-- ==== Sys2Proof/Word.lean ====
section
/-! DEFINITION. The word types of the block, the register width of an instance, and the two bit orders.

A `W`-bit value of the spec (POLY, IXOR, OXOR, VALUE) is held zero-extended in a 64-bit `Word`, since every such
register is read zero-extended to 64 bits (R35); that it stays below `2^W` is an invariant, not a type
(DESIGN CHOICE, log entry 4). -/

namespace Sys2Proof

/-- A 64-bit value: an ARG register, RESULT, a command word, or a `W`-bit register zero-extended. -/
abbrev Word := BitVec 64

/-- One byte of MEM. -/
abbrev Byte := BitVec 8

/-- The register widths an instance can have (R7, S1). -/
inductive Width where
  | w8 | w16 | w32 | w64
  deriving DecidableEq, Repr

/-- `W` in bits. -/
def Width.bits : Width → Nat
  | .w8 => 8
  | .w16 => 16
  | .w32 => 32
  | .w64 => 64

/-- `W / 8`, the alignment of a table address (R55). -/
def Width.bytes : Width → Nat
  | .w8 => 1
  | .w16 => 2
  | .w32 => 4
  | .w64 => 8

/-- The two bit orders (R12). -/
inductive BitOrder where
  /-- most-significant-bit-first, encoded 0 -/
  | msb
  /-- least-significant-bit-first, encoded 1 -/
  | lsb
  deriving DecidableEq, Repr

end Sys2Proof
end

