-- ==== Sys2Proof/Syntax.lean ====
section
/-! DEFINITION. The six commands of the opcode map (R83), with the slot indices each one uses.

An index field a command does not use is not part of the command (R82, R86), so it is no argument here. The other
operands are not in the word: they come from the captured ARG registers (R84). -/

namespace Sys2Proof

/-- One constructor per row of spec/opcode_table.json. `ci` and `si` are the slot indices of R81. -/
inductive Instr where
  /-- CONFIGURE, OP 0x1 (R108) -/
  | configure (ci : Nat)
  /-- BUILD_TABLE, OP 0x2 (R132) -/
  | buildTable (ci : Nat)
  /-- SIZEOF_TABLE, OP 0x3 (R131) -/
  | sizeofTable
  /-- RESET, OP 0x4 (R193) -/
  | reset (ci si : Nat)
  /-- PROCESS, OP 0x5 (R194) -/
  | process (ci si : Nat)
  /-- FINALIZE, OP 0x6 (R201) -/
  | finalize (ci si : Nat)
  deriving DecidableEq, Repr

end Sys2Proof
end

