-- ==== Sys2Proof/WellFormed.lean ====
section
/-! DEFINITION. Well-formed commands: the slot indices fit their 8-bit fields (R82). -/

namespace Sys2Proof

/-- A slot index fits its 8-bit field (R81, R82). -/
def indexFits (k : Nat) : Bool := decide (k < 256)

/-- The commands some 64-bit word encodes. -/
def Instr.wellFormed : Instr → Bool
  | .configure ci => indexFits ci
  | .buildTable ci => indexFits ci
  | .sizeofTable => true
  | .reset ci si => indexFits ci && indexFits si
  | .process ci si => indexFits ci && indexFits si
  | .finalize ci si => indexFits ci && indexFits si

end Sys2Proof
end

