-- ==== Sys2Proof/Decode.lean ====
section
/-! DEFINITION. Decoding a command word (R81, R85), total on every 64-bit word, and the encoder written from the same
field table. -/

namespace Sys2Proof

/-- Why a word names none of the six operations (R87). -/
inductive Reserved where
  /-- a bit of 7:4 is set -/
  | bits7to4
  /-- a bit of 63:24 is set -/
  | bits63to24
  /-- OP is 0x0 or 0x7 to 0xF -/
  | opcode
  deriving DecidableEq, Repr

/-- `w[hi:lo]` of R10. -/
def wordField (w : Word) (hi lo : Nat) : Nat := (w.toNat >>> lo) % 2 ^ (hi - lo + 1)

/-- `decode(w)` of R85. -/
def decode (w : Word) : Except Reserved Instr :=
  if wordField w 7 4 ≠ 0 then .error .bits7to4
  else if wordField w 63 24 ≠ 0 then .error .bits63to24
  else match wordField w 3 0 with
    | 0x1 => .ok (.configure (wordField w 15 8))
    | 0x2 => .ok (.buildTable (wordField w 15 8))
    | 0x3 => .ok .sizeofTable
    | 0x4 => .ok (.reset (wordField w 15 8) (wordField w 23 16))
    | 0x5 => .ok (.process (wordField w 15 8) (wordField w 23 16))
    | 0x6 => .ok (.finalize (wordField w 15 8) (wordField w 23 16))
    | _ => .error .opcode

/-- The command word with the given fields of R81 and zeros in the reserved bits. -/
def commandWord (op ci si : Nat) : Word := BitVec.ofNat 64 (op + ci * 2 ^ 8 + si * 2 ^ 16)

/-- The OP field of a command, the `match` column of R83. -/
def Instr.op : Instr → Nat
  | .configure _ => 0x1
  | .buildTable _ => 0x2
  | .sizeofTable => 0x3
  | .reset _ _ => 0x4
  | .process _ _ => 0x5
  | .finalize _ _ => 0x6

/-- The word of a command, with 0 in the index fields it does not use; the words R90's pseudo-instructions write. -/
def encode : Instr → Word
  | .configure ci => commandWord 0x1 ci 0
  | .buildTable ci => commandWord 0x2 ci 0
  | .sizeofTable => commandWord 0x3 0 0
  | .reset ci si => commandWord 0x4 ci si
  | .process ci si => commandWord 0x5 ci si
  | .finalize ci si => commandWord 0x6 ci si

/-- The command the decoder reads from `w`, bit 0 the least significant; a command is one 64-bit word (R88), and bits
from `nbits` up are 0. -/
def decodeTableWord (nbits w : Nat) : Option Instr :=
  match decode (BitVec.ofNat 64 (w % 2 ^ nbits)) with
  | .ok i => some i
  | .error _ => none

end Sys2Proof
end

