-- ==== Sys2Proof/Machine/Mirror.lean ====
section
/-! DEFINITION. The Bit-Mirror unit (R100, R101) and the bit primitives of R10. -/

namespace Sys2Proof.Machine

/-- `v mod 2^n` (R10). -/
def trunc (n : Nat) (v : Word) : Word := (v.setWidth n).setWidth 64

/-- `bitlen(v)` (R10): the number of bits needed to write `v`. -/
def bitlen (v : Word) : Nat := if v = 0 then 0 else v.toNat.log2 + 1

/-- `Mirror64(v)` (R100): bit `i` of `v` at bit `63 - i`. -/
def mirror64 (v : Word) : Word := v.reverse

/-- `mirror_n(v)` (R101): the `n` low bits of `v` reversed; `mirror_W` for `n = W`, `reflect_d` of R159 for `n = d`. -/
def mirror (n : Nat) (v : Word) : Word := mirror64 v >>> (64 - n)

end Sys2Proof.Machine
end

