-- ==== Sys2Proof/Config.lean ====
section
/-! DEFINITION. What one instance of the block fixes (R7), and the free values of the model.

The parameters are plain data carried by the state, so that every statement over all states is a statement over all
instances (R8); no step changes them (DESIGN CHOICE, log entry 1). -/

namespace Sys2Proof.Config

/-- The two kinds of MEM access that MemAdmit tells apart (R50). -/
inductive AccessKind where
  | read | write
  deriving DecidableEq, Repr

/-- A run of MEM addresses the platform backs, with the kinds of access it admits. -/
structure Region where
  base : Nat
  size : Nat
  read : Bool
  write : Bool
  deriving DecidableEq, Repr

/-- The OPEN parameters of one instance (R7, S1, S3, S4). NCFG and NST are the lengths of the state's slot lists. -/
structure Params where
  /-- `W` -/
  width : Width
  /-- `REG_BASE`: where the register window stands in the host's address space -/
  regBase : Nat
  /-- `MemAdmit`, as the list of backed regions -/
  regions : List Region
  deriving DecidableEq, Repr

/-- The instance of `State.reset` (DESIGN CHOICE, log entry 2): the widest one, backed everywhere. -/
def Params.widest : Params :=
  { width := .w64, regBase := 0, regions := [{ base := 0, size := 2 ^ 64, read := true, write := true }] }

/-- FREE VALUE (R227, S5): the `n`-th unspecified register value. It has no body, so nothing can be proved of it
(log entry 5). -/
opaque freeWord : Nat → Word

/-- FREE VALUE (R261, S6): the `n`-th draw between the old and the new value of a table byte (log entry 6). -/
opaque freeBit : Nat → Bool

end Sys2Proof.Config
end

