-- ==== Sys2Proof/Machine/State.lean ====
section
/-! DEFINITION. The state of the block and of what surrounds it, its reasons to stop, and its reset.

The block's own state is exactly that of R20: the Configuration slots, the Checksum State slots, ARG, RESULT, the fields
of STATUS and PENDING. MEM stands beside it (R50). `params` is the instance (log entry 1); `lines`, `turns` and `reads`
are the hosts and the platform (log entries 7, 8 and 15); `draws` counts the free values used (log entry 5). -/

namespace Sys2Proof.Machine

/-- One Configuration slot `CFG[k]` (R21). -/
structure CfgSlot where
  /-- VALID -/
  valid : Bool
  /-- DEG, the polynomial degree, 7 bits -/
  deg : BitVec 7
  /-- IN_ORDER -/
  inOrder : BitOrder
  /-- OUT_ORDER -/
  outOrder : BitOrder
  /-- POLY, the canonical polynomial -/
  poly : Word
  /-- IXOR, the canonical input mask -/
  ixor : Word
  /-- OXOR, the canonical output mask -/
  oxor : Word
  /-- TABLE, the MEM address of the attached table, 0 for none -/
  table : Word
  deriving DecidableEq, Repr

/-- The life-cycle phases of a Checksum State slot (R23). -/
inductive Phase where
  | uninit | fresh | accum | final
  deriving DecidableEq, Repr

/-- One Checksum State slot `ST[j]` (R23). -/
structure StSlot where
  /-- VALUE, the checksum register -/
  value : Word
  /-- PHASE -/
  phase : Phase
  deriving DecidableEq, Repr

/-- The six operand registers `ARG[0..5]` (R25), and their captured copy in PENDING (R29). -/
structure Args where
  a0 : Word
  a1 : Word
  a2 : Word
  a3 : Word
  a4 : Word
  a5 : Word
  deriving DecidableEq, Repr

/-- The status codes of R220. -/
inductive StatusCode where
  | success | invalidParam | failed | notSupported
  deriving DecidableEq, Repr

/-- The fault causes of R225; `none` is code 0, no fault. -/
inductive Cause where
  | none | unconfigured | stateUninit | stateFinal | bus | hostBusy
  deriving DecidableEq, Repr

/-- The fields of STATUS (R27). -/
structure Status where
  code : StatusCode
  busy : Bool
  fault : Bool
  cause : Cause
  deriving DecidableEq, Repr

/-- A command in flight (R29): the word written to CMD and the ARG values at that write. -/
structure Pending where
  word : Word
  args : Args
  deriving DecidableEq, Repr

/-- MEM as the list of the bytes that differ from what an unlisted address reads as (log entry 3). -/
abbrev Memory := List Host.Cell

/-- One action of a host (R68, in the notation of R89). -/
inductive HostLine where
  /-- a write of `size` bytes to the register window at host address `addr` -/
  | wr (addr size : Nat) (v : Word)
  /-- a read of `size` bytes from the register window at host address `addr` -/
  | rd (addr size : Nat)
  /-- MEMWR: writes of bytes to MEM at ascending addresses -/
  | memWr (addr : Nat) (bytes : List Byte)
  /-- a read of one MEM byte -/
  | memRd (addr : Nat)
  /-- POLL: reads STATUS until BUSY reads 0 -/
  | poll
  deriving DecidableEq, Repr

/-- Who moves next. -/
inductive Turn where
  /-- a host executes its next line -/
  | host
  /-- the block completes its pending command -/
  | block
  /-- the platform asserts block reset -/
  | blockReset
  deriving DecidableEq, Repr

/-- The whole state. -/
structure State where
  /-- the parameters of the instance -/
  params : Config.Params
  /-- the Configuration slots; NCFG is the length -/
  cfg : List CfgSlot
  /-- the Checksum State slots; NST is the length -/
  st : List StSlot
  /-- ARG -/
  args : Args
  /-- RESULT -/
  result : Word
  /-- STATUS -/
  status : Status
  /-- PENDING -/
  pending : Option Pending
  /-- MEM -/
  mem : Memory
  /-- the host lines not yet executed -/
  lines : List HostLine
  /-- the turns still fixed; when none is left, the block moves if it can and a host otherwise -/
  turns : List Turn
  /-- the values the hosts have read, newest first -/
  reads : List Word
  /-- how many free values have been used -/
  draws : Nat
  deriving DecidableEq, Repr

/-- Why the machine stops with a fault. The spec's own faults are no stops: they set STATUS.FAULT (R224). -/
inductive Fault where
  /-- Raised by every command's meaning when no command is in flight: the completion step is enabled exactly when
  PENDING is not none (R190), so this is the stuck state of a step that is not enabled. `step` never raises it. Safe. -/
  | noCommandInFlight
  /-- Raised by a host's MEM access that reaches an address of 2^64 or more: MEM has no such address (R50). Safe. -/
  | noSuchAddress
  deriving DecidableEq, Repr

/-- Why the machine has no meaning for a move. -/
inductive Refusal where
  /-- Raised by `exec` for an instruction that has no meaning yet. Safe. -/
  | notModelled (mnemonic : String)
  /-- Raised by a host access to the register window that is not 64 bits wide at an 8-byte-aligned offset (R36, S8). Safe. -/
  | windowAccessForm
  /-- Raised by a host register access at an address outside the block's window, which does not reach the block (R35). Safe. -/
  | outsideWindow
  /-- Raised by a host MEM access to a byte of the command in flight, a breach of the duty of R66 (S9). Safe. -/
  | hostDuty
  deriving DecidableEq, Repr

/-- A Configuration slot after block reset (R39). -/
def CfgSlot.reset : CfgSlot :=
  { valid := false, deg := 0, inOrder := .msb, outOrder := .msb, poly := 0, ixor := 0, oxor := 0, table := 0 }

/-- A Checksum State slot after block reset (R39). -/
def StSlot.reset : StSlot := { value := 0, phase := .uninit }

/-- The ARG registers after block reset (R39). -/
def Args.reset : Args := { a0 := 0, a1 := 0, a2 := 0, a3 := 0, a4 := 0, a5 := 0 }

/-- STATUS after block reset (R39). -/
def Status.reset : Status := { code := .success, busy := false, fault := false, cause := .none }

/-- The state right after reset of an instance with parameters `p`, `ncfg` and `nst`, and MEM contents `m` (R39). -/
def State.resetOf (p : Config.Params) (ncfg nst : Nat) (m : Memory) : State :=
  { params := p
    cfg := List.replicate ncfg CfgSlot.reset
    st := List.replicate nst StSlot.reset
    args := Args.reset
    result := 0
    status := Status.reset
    pending := none
    mem := m
    lines := []
    turns := []
    reads := []
    draws := 0 }

/-- The machine right after reset (R39), for the instance of log entry 2. -/
def State.reset : State := State.resetOf Config.Params.widest 256 256 []

end Sys2Proof.Machine
end

