-- ==== Sys2Proof/Machine/Operands.lean ====
section
/-! DEFINITION. The operand forms: which ARG register carries which operand of a command (R84), the order and table
address operands (R12, R52, R55), and the message bits a PROCESS range names (R57, R150, R154). -/

namespace Sys2Proof.Machine

/-- CONFIGURE's `polynomial`, SIZEOF_TABLE's `polynomial` (R84). -/
def Args.polynomial (a : Args) : Word := a.a0
/-- CONFIGURE's `inputXOR` (R84). -/
def Args.inputXor (a : Args) : Word := a.a1
/-- CONFIGURE's `outputXOR` (R84). -/
def Args.outputXor (a : Args) : Word := a.a2
/-- CONFIGURE's `table` address (R84). -/
def Args.cfgTable (a : Args) : Word := a.a3
/-- CONFIGURE's `inputOrder` (R84). -/
def Args.inputOrder (a : Args) : Word := a.a4
/-- CONFIGURE's `outputOrder` (R84). -/
def Args.outputOrder (a : Args) : Word := a.a5
/-- BUILD_TABLE's `table` address (R84). -/
def Args.buildTable (a : Args) : Word := a.a0
/-- BUILD_TABLE's `sizeInBytes` (R84). -/
def Args.sizeInBytes (a : Args) : Word := a.a1
/-- PROCESS's `buffer` address (R84). -/
def Args.buffer (a : Args) : Word := a.a0
/-- PROCESS's bit `offset` (R84). -/
def Args.offset (a : Args) : Word := a.a1
/-- PROCESS's `bitLength` (R84). -/
def Args.bitLength (a : Args) : Word := a.a2

/-- `ARG[i]`, for `i < 6` (R25). -/
def Args.get (a : Args) (i : Nat) : Word :=
  match i with
  | 0 => a.a0
  | 1 => a.a1
  | 2 => a.a2
  | 3 => a.a3
  | 4 => a.a4
  | 5 => a.a5
  | _ => 0

/-- `ARG[i] <- v`, for `i < 6` (R25). -/
def Args.set (a : Args) (i : Nat) (v : Word) : Args :=
  match i with
  | 0 => { a with a0 := v }
  | 1 => { a with a1 := v }
  | 2 => { a with a2 := v }
  | 3 => { a with a3 := v }
  | 4 => { a with a4 := v }
  | 5 => { a with a5 := v }
  | _ => a

/-- The bit order an order operand names (R12): 0 MSB, 1 LSB, anything else invalid. -/
def orderOfOperand (v : Word) : Option BitOrder :=
  if v = 0 then some .msb else if v = 1 then some .lsb else none

/-- A table address is a multiple of `W/8` (R55). The null address 0 is. -/
def tableAligned (w : Width) (t : Word) : Bool := decide (t.toNat % w.bytes = 0)

/-- `bitsOf(ord, v, s, n)` (R150): `n` bits of the byte `v` from position `s` in the order `ord`. -/
def bitsOf (ord : BitOrder) (v : Byte) (s n : Nat) : List Bool :=
  (List.range n).map fun i =>
    match ord with
    | .msb => v.getLsbD (7 - (s + i))
    | .lsb => v.getLsbD (s + i)

/-- `nb` of R194: the bytes a range of `L` bits at offset `o` touches. -/
def bytesTouched (o L : Nat) : Nat := if L = 0 then 0 else (o + L + 7) / 8

end Sys2Proof.Machine
end

