-- ==== Sys2Proof/Machine/Ops.lean ====
section
/-! DEFINITION. The named operations over MEM, the slots and the status, and the two ways a command ends: `finish`
(R220) and raising a fault (R224). -/

namespace Sys2Proof.Machine

/-! ### MEM -/

/-- What a MEM address that is not listed reads as (log entry 3). -/
def unlistedByte : Byte := 0

/-- MEM in its one canonical form: addresses strictly rising, and no entry that says what an unlisted address says. -/
abbrev Memory.wf (m : Memory) : Prop :=
  m.Pairwise (fun x y => x.1 < y.1) ∧ ∀ c ∈ m, c.2 ≠ unlistedByte

/-- `MEM[a]`. -/
def Memory.read : Memory → Nat → Byte
  | [], _ => unlistedByte
  | (k, v) :: rest, a => if a = k then v else Memory.read rest a

/-- `MEM[a] <- v`, in the canonical form: writing what an unlisted address reads as removes the entry. -/
def Memory.write : Memory → Nat → Byte → Memory
  | [], a, v => if v = unlistedByte then [] else [(a, v)]
  | (k, w) :: rest, a, v =>
    if a < k then (if v = unlistedByte then (k, w) :: rest else (a, v) :: (k, w) :: rest)
    else if a = k then (if v = unlistedByte then rest else (a, v) :: rest)
    else (k, w) :: Memory.write rest a v

/-- Unchecked writes of a list of (address, byte) pairs, in order. -/
def Memory.writeList (m : Memory) (ws : List Host.Cell) : Memory :=
  ws.foldl (fun m c => Memory.write m c.1 c.2) m

/-- The pairs of address and byte of a run of bytes at ascending addresses. -/
def cellsAt (a : Nat) (bs : List Byte) : List Host.Cell :=
  match bs with
  | [] => []
  | b :: rest => (a, b) :: cellsAt (a + 1) rest

/-- A region backs address `a` for an access of kind `k`. -/
def regionAdmits (k : Config.AccessKind) (a : Nat) (r : Config.Region) : Bool :=
  decide (r.base ≤ a) && decide (a < r.base + r.size) &&
    (match k with
     | .read => r.read
     | .write => r.write)

/-- A byte access of the block at `a` is admitted: `a < 2^64` and `MemAdmit(a, kind)` (R56). -/
def memAdmit (p : Config.Params) (k : Config.AccessKind) (a : Nat) : Bool :=
  decide (a < 2 ^ 64) && p.regions.any (regionAdmits k a)

/-- One byte read of the block; `none` is `Fault(BUS)` at this access (R56). -/
def readByte (p : Config.Params) (m : Memory) (a : Nat) : Option Byte :=
  if memAdmit p .read a then some (Memory.read m a) else none

/-- `MemRead(a, n)` (R11, R53, R54): `n` byte reads at ascending addresses, little-endian; `none` at the first byte
that is not admitted. -/
def readLE (p : Config.Params) (m : Memory) : Nat → Nat → Option Word
  | _, 0 => some 0
  | a, n + 1 =>
    match readByte p m a with
    | none => none
    | some b =>
      match readLE p m (a + 1) n with
      | none => none
      | some r => some (b.setWidth 64 ||| r <<< 8)

/-- The `n` bytes of `v mod 2^(8n)`, least significant first (R11, R53). -/
def bytesLE (n : Nat) (v : Word) : List Byte := (List.range n).map fun j => v.extractLsb' (8 * j) 8

/-- Byte writes of the block in order, up to the first byte that is not admitted (R56); the flag is false when one was
not, which is `Fault(BUS)` at that access. -/
def writeCells (p : Config.Params) : Memory → List Host.Cell → Memory × Bool
  | m, [] => (m, true)
  | m, (a, v) :: rest =>
    if memAdmit p .write a then writeCells p (Memory.write m a v) rest else (m, false)

/-! ### Slots -/

/-- `W` in bits. -/
abbrev State.W (s : State) : Nat := s.params.width.bits

/-- NCFG (R7). -/
abbrev State.ncfg (s : State) : Nat := s.cfg.length

/-- NST (R7). -/
abbrev State.nst (s : State) : Nat := s.st.length

/-- `CFG[k] <- c`. -/
def State.setCfg (s : State) (k : Nat) (c : CfgSlot) : State := { s with cfg := s.cfg.set k c }

/-- `ST[j] <- x`. -/
def State.setSt (s : State) (j : Nat) (x : StSlot) : State := { s with st := s.st.set j x }

/-! ### How a command ends -/

/-- `finish(code)` (R220): the status is written. The completion then retires the command. -/
def State.finish (s : State) (c : StatusCode) : State := { s with status := { s.status with code := c } }

/-- `raise Fault(cause)` (R224): the one operation that takes a fault. The first cause is kept, and nothing else is
saved or redirected (R229). -/
def State.raise (s : State) (c : Cause) : State :=
  if s.status.fault then s else { s with status := { s.status with fault := true, cause := c } }

/-- The way back from a fault: there is no trap return (R230), only the values of block reset (R39). MEM, the hosts, the
instance and the count of free values are not the block's. -/
def State.clearBlock (s : State) : State :=
  { s with
    cfg := List.replicate s.cfg.length CfgSlot.reset
    st := List.replicate s.st.length StSlot.reset
    args := Args.reset
    result := 0
    status := Status.reset
    pending := none }

/-- The end of a completion (R190): PENDING becomes none and BUSY 0, after a finish and after a fault alike. -/
def State.retire (s : State) : State := { s with pending := none, status := { s.status with busy := false } }

/-- A completion step (R190): the command's rule runs on the operands captured in PENDING, then the command is retired.
With no command in flight the step is not enabled (log entry 10). -/
def State.completing (s : State) (rule : Args → State → State) : Host.Outcome State Fault Refusal :=
  match s.pending with
  | none => .fault .noCommandInFlight
  | some p => .next (rule p.args s).retire

/-- A `W`-bit free value (R227), and the count of free values advanced. -/
def State.drawWord (s : State) : Word × State :=
  (trunc s.W (Config.freeWord s.draws), { s with draws := s.draws + 1 })

end Sys2Proof.Machine
end

