-- ==== Sys2Proof/Machine/BitKernel.lean ====
section
/-! DEFINITION. The bit-wise kernels (42_bitwise.md). `w` is `W` in bits. -/

namespace Sys2Proof.Machine

/-- `FwdBit(P, r, x)` (R151). -/
def fwdBit (w : Nat) (P r : Word) (x : Bool) : Word :=
  if r.getLsbD (w - 1) != x then trunc w (r <<< 1) ^^^ P else trunc w (r <<< 1)

/-- `RevBit(P, r, x)` (R152). -/
def revBit (P r : Word) (x : Bool) : Word :=
  if r.getLsbD 0 != x then (r >>> 1) ^^^ P else r >>> 1

/-- One step of the kernel that matches the slot's input order (R153). -/
def bitStep (w : Nat) (c : CfgSlot) (r : Word) (x : Bool) : Word :=
  match c.inOrder with
  | .msb => fwdBit w c.poly r x
  | .lsb => revBit c.poly r x

/-- `BitKernel(c, r, s)` (R153). -/
def bitKernel (w : Nat) (c : CfgSlot) (r : Word) (s : List Bool) : Word := s.foldl (bitStep w c) r

/-- `bitAt(ord, b, g)` (R57): bit `g` of the message that starts at byte address `b`. -/
def bitAt (m : Memory) (ord : BitOrder) (b g : Nat) : Bool :=
  match ord with
  | .msb => (Memory.read m (b + g / 8)).getLsbD (7 - g % 8)
  | .lsb => (Memory.read m (b + g / 8)).getLsbD (g % 8)

/-- `Bits(ord, b, o, L)` (R154). -/
def messageBits (m : Memory) (ord : BitOrder) (b o L : Nat) : List Bool :=
  (List.range L).map fun k => bitAt m ord b (o + k)

/-- `ProcBit` (R195) as the block makes its accesses (R62): `n` bytes from address `p`, each read once and all its bits
consumed before the next is read; `o` is the first bit's position in the byte at `p`, `rem` the bits still to consume.
`none` is `Fault(BUS)`. -/
def procBytes (ps : Config.Params) (m : Memory) (c : CfgSlot) : Nat → Nat → Nat → Nat → Word → Option Word
  | 0, _, _, _, r => some r
  | n + 1, p, o, rem, r =>
    match readByte ps m p with
    | none => none
    | some v =>
      let k := min (8 - o) rem
      procBytes ps m c n (p + 1) 0 (rem - k) (bitKernel ps.width.bits c r (bitsOf c.inOrder v o k))

/-- `ProcBit(c, r, b, o, L)` (R195); `none` is `Fault(BUS)`. -/
def procBit (ps : Config.Params) (m : Memory) (c : CfgSlot) (r : Word) (b o L : Nat) : Option Word :=
  procBytes ps m c (bytesTouched o L) b o L r

end Sys2Proof.Machine
end

