-- ==== Sys2Proof/Machine/Table.lean ====
section
/-! DEFINITION. Table Sizing and the Table Builder: SIZEOF_TABLE and BUILD_TABLE (41_table.md). -/

namespace Sys2Proof.Machine

/-- `EB(d)` (R130): the bytes of one table entry. -/
def entryBytes (d : Nat) : Nat := if d ≤ 8 then 1 else if d ≤ 16 then 2 else if d ≤ 32 then 4 else 8

/-- `TBLSIZE(d)` (R130). -/
def tableSize (d : Nat) : Nat := 256 * entryBytes d

/-- `Entry(c, i)` (R134). -/
def entry (w : Nat) (c : CfgSlot) (i : Nat) : Word :=
  let r := bitKernel w c 0 (bitsOf c.inOrder (BitVec.ofNat 8 i) 0 8)
  match c.inOrder with
  | .msb => r >>> (w - 8 * entryBytes c.deg.toNat)
  | .lsb => trunc (8 * entryBytes c.deg.toNat) r

/-- The byte writes of BUILD_TABLE at table address `t`, in the order the block makes them (R62, R135). -/
def tableCells (w : Nat) (c : CfgSlot) (t : Nat) : List Host.Cell :=
  let e := entryBytes c.deg.toNat
  (List.range 256).flatMap fun i => cellsAt (t + i * e) (bytesLE e (entry w c i))

/-- The parameter checks of BUILD_TABLE on a valid slot (R133). -/
def buildChecks (w : Width) (c : CfgSlot) (a : Args) : Bool :=
  decide (a.buildTable ≠ 0) &&
  decide (a.sizeInBytes.toNat = tableSize c.deg.toNat) &&
  tableAligned w a.buildTable

/-- The rule of SIZEOF_TABLE (R131). -/
def sizeofTableRule (a : Args) (s : State) : State :=
  { s with result := BitVec.ofNat 64 (tableSize (bitlen a.polynomial)) }.finish .success

/-- The writes and the attachment of BUILD_TABLE (R135, R136), or `Fault(BUS)` with the bytes before it written and no
table attached (R227). -/
def buildInto (ci : Nat) (c : CfgSlot) (t : Word) (s : State) : State :=
  let r := writeCells s.params s.mem (tableCells s.W c t.toNat)
  if r.2 then ({ s with mem := r.1 }.setCfg ci { c with table := t }).finish .success
  else { s with mem := r.1 }.raise .bus

/-- The rule of BUILD_TABLE (R132). -/
def buildTableRule (ci : Nat) (a : Args) (s : State) : State :=
  match s.cfg[ci]? with
  | none => s.finish .invalidParam
  | some c =>
    if c.valid = false then s.raise .unconfigured
    else if buildChecks s.params.width c a then buildInto ci c a.buildTable s
    else s.finish .invalidParam

/-- SIZEOF_TABLE (R131). -/
def execSizeofTable (s : State) : Host.Outcome State Fault Refusal := s.completing sizeofTableRule

/-- BUILD_TABLE (R132). -/
def execBuildTable (ci : Nat) (s : State) : Host.Outcome State Fault Refusal := s.completing (buildTableRule ci)

end Sys2Proof.Machine
end

