-- ==== Sys2Proof/Machine/LutKernel.lean ====
section
/-! DEFINITION. The table-wise kernels (43_lutwise.md). `none` is `Fault(BUS)` at the access that is not admitted. -/

namespace Sys2Proof.Machine

/-- `TE(c, idx)` (R170): the entry as MEM holds it now (R64), a forward entry shifted to the top of the register (C8). -/
def tableEntry (ps : Config.Params) (m : Memory) (c : CfgSlot) (idx : Nat) : Option Word :=
  let e := entryBytes c.deg.toNat
  match readLE ps m (c.table.toNat + idx * e) e with
  | none => none
  | some raw =>
    match c.inOrder with
    | .msb => some (raw <<< (ps.width.bits - 8 * e))
    | .lsb => some raw

/-- The table index of a LUT step (R171, R172). -/
def lutIndex (w : Nat) (c : CfgSlot) (r : Word) (v : Byte) : Nat :=
  match c.inOrder with
  | .msb => ((r >>> (w - 8)) ^^^ v.setWidth 64).toNat % 256
  | .lsb => (r ^^^ v.setWidth 64).toNat % 256

/-- The register as a LUT step shifts it, before the entry is joined (R171, R172). -/
def lutShift (w : Nat) (c : CfgSlot) (r : Word) : Word :=
  match c.inOrder with
  | .msb => trunc w (r <<< 8)
  | .lsb => r >>> 8

/-- `FwdLut(c, r, v)` (R171) or `RevLut(c, r, v)` (R172), by the slot's input order. -/
def lutStep (ps : Config.Params) (m : Memory) (c : CfgSlot) (r : Word) (v : Byte) : Option Word :=
  match tableEntry ps m c (lutIndex ps.width.bits c r v) with
  | none => none
  | some te => some (lutShift ps.width.bits c r ^^^ te)

/-- `LutKernel(c, r, b, n)` (R173): `n` steps, each reading its message byte and then its table entry (R62). -/
def lutKernel (ps : Config.Params) (m : Memory) (c : CfgSlot) : Nat → Nat → Word → Option Word
  | 0, _, r => some r
  | n + 1, b, r =>
    match readByte ps m b with
    | none => none
    | some v =>
      match lutStep ps m c r v with
      | none => none
      | some r' => lutKernel ps m c n (b + 1) r'

end Sys2Proof.Machine
end

