-- ==== Sys2Proof/Machine/Normalizer.lean ====
section
/-! DEFINITION. The Polynomial Normalizer and CONFIGURE (40_normalizer.md). `w` is `W` in bits, `d` the degree. -/

namespace Sys2Proof.Machine

/-- `N(p)` for degree `d` (R103, C1): the `d` coefficients of the generator below `x^d`. -/
def normalForm (d : Nat) (p : Word) : Word := trunc d ((p <<< 1) ||| 1)

/-- `Pf`, the canonical forward polynomial (R104). -/
def forwardPoly (w d : Nat) (p : Word) : Word := normalForm d p <<< (w - d)

/-- The stored polynomial (R105). -/
def canonPoly (w d : Nat) (io : BitOrder) (p : Word) : Word :=
  match io with
  | .msb => forwardPoly w d p
  | .lsb => mirror w (forwardPoly w d p)

/-- The stored input mask (R106). -/
def canonIxor (w d : Nat) (io : BitOrder) (ix : Word) : Word :=
  match io with
  | .msb => ix <<< (w - d)
  | .lsb => mirror w (ix <<< (w - d))

/-- The stored output mask (R107). -/
def canonOxor (w d : Nat) (io oo : BitOrder) (ox : Word) : Word :=
  match io, oo with
  | .msb, .msb => ox <<< (w - d)
  | .msb, .lsb => mirror w ox
  | .lsb, .lsb => ox
  | .lsb, .msb => mirror w (ox <<< (w - d))

/-- The Configuration a successful CONFIGURE writes (R108), whole (R110). -/
def configSlot (w : Nat) (p ix ox t : Word) (io oo : BitOrder) : CfgSlot :=
  let d := bitlen p
  { valid := true
    deg := BitVec.ofNat 7 d
    inOrder := io
    outOrder := oo
    poly := canonPoly w d io p
    ixor := canonIxor w d io ix
    oxor := canonOxor w d io oo ox
    table := t }

/-- The numeric checks of R109: the polynomial is nonzero and fits, the table address is aligned, the masks fit the
degree. -/
def configChecks (w : Width) (a : Args) : Bool :=
  decide (a.polynomial ≠ 0) &&
  decide (bitlen a.polynomial ≤ w.bits) &&
  tableAligned w a.cfgTable &&
  decide (a.inputXor.toNat < 2 ^ bitlen a.polynomial) &&
  decide (a.outputXor.toNat < 2 ^ bitlen a.polynomial)

/-- The rule of CONFIGURE (R108). -/
def configureRule (ci : Nat) (a : Args) (s : State) : State :=
  if s.ncfg ≤ ci then s.finish .invalidParam
  else if configChecks s.params.width a then
    match orderOfOperand a.inputOrder, orderOfOperand a.outputOrder with
    | some io, some oo =>
      (s.setCfg ci (configSlot s.W a.polynomial a.inputXor a.outputXor a.cfgTable io oo)).finish .success
    | _, _ => s.finish .invalidParam
  else s.finish .invalidParam

/-- CONFIGURE (R108). -/
def execConfigure (ci : Nat) (s : State) : Host.Outcome State Fault Refusal := s.completing (configureRule ci)

end Sys2Proof.Machine
end

