-- ==== Sys2Proof/Machine/Stream.lean ====
section
/-! DEFINITION. The Streaming State Controller: RESET, PROCESS and FINALIZE (44_stream.md). -/

namespace Sys2Proof.Machine

/-! ### RESET -/

/-- The rule of RESET (R193). -/
def resetRule (ci si : Nat) (_a : Args) (s : State) : State :=
  match s.cfg[ci]?, s.st[si]? with
  | some c, some _ =>
    if c.valid = false then s.raise .unconfigured
    else (s.setSt si { value := c.ixor, phase := .fresh }).finish .success
  | _, _ => s.finish .invalidParam

/-- RESET (R193). -/
def execReset (ci si : Nat) (s : State) : Host.Outcome State Fault Refusal := s.completing (resetRule ci si)

/-! ### PROCESS -/

/-- The leading partial byte of `ProcLut` (R196): the register, the next address and the bits left. -/
def leadPiece (ps : Config.Params) (m : Memory) (c : CfgSlot) (r : Word) (b o L : Nat) : Option (Word × Nat × Nat) :=
  if o ≠ 0 ∧ 0 < L then
    match readByte ps m b with
    | none => none
    | some v => some (bitKernel ps.width.bits c r (bitsOf c.inOrder v o (min (8 - o) L)), b + 1, L - min (8 - o) L)
  else some (r, b, L)

/-- The trailing partial byte of `ProcLut` (R196). -/
def trailPiece (ps : Config.Params) (m : Memory) (c : CfgSlot) (r : Word) (p rem : Nat) : Option Word :=
  if 0 < rem then
    match readByte ps m p with
    | none => none
    | some v => some (bitKernel ps.width.bits c r (bitsOf c.inOrder v 0 rem))
  else some r

/-- `ProcLut(c, r, b, o, L)` (R196): a leading partial byte, a run of whole bytes through the table, a trailing partial
byte. -/
def procLut (ps : Config.Params) (m : Memory) (c : CfgSlot) (r : Word) (b o L : Nat) : Option Word :=
  match leadPiece ps m c r b o L with
  | none => none
  | some (r1, p, rem) =>
    match lutKernel ps m c (rem / 8) p r1 with
    | none => none
    | some r2 => trailPiece ps m c r2 (p + rem / 8) (rem % 8)

/-- The register after the range: bit-wise with no table attached, table-wise otherwise (R34, R194). -/
def processRange (ps : Config.Params) (m : Memory) (c : CfgSlot) (r : Word) (b o L : Nat) : Option Word :=
  if c.table = 0 then procBit ps m c r b o L else procLut ps m c r b o L

/-- The parameter checks of PROCESS (R194): a buffer, an offset below 8, and a range that does not pass `2^64`. -/
def processChecks (a : Args) : Bool :=
  decide (a.buffer ≠ 0) &&
  decide (a.offset.toNat < 8) &&
  decide (a.buffer.toNat + bytesTouched a.offset.toNat a.bitLength.toNat ≤ 2 ^ 64)

/-- The contract check of a State's phase (R192, R225): the cause PROCESS and FINALIZE raise, if any. -/
def phaseCause : Phase → Option Cause
  | .uninit => some .stateUninit
  | .final => some .stateFinal
  | .fresh => none
  | .accum => none

/-- `Fault(BUS)` in PROCESS (R227): VALUE becomes a free `W`-bit value, PHASE stays. -/
def busInProcess (si : Nat) (x : StSlot) (s : State) : State :=
  (s.drawWord.2.setSt si { x with value := s.drawWord.1 }).raise .bus

/-- The execution of PROCESS once its checks have passed (R194). -/
def processInto (si : Nat) (c : CfgSlot) (x : StSlot) (a : Args) (s : State) : State :=
  match processRange s.params s.mem c x.value a.buffer.toNat a.offset.toNat a.bitLength.toNat with
  | none => busInProcess si x s
  | some r => (s.setSt si { value := r, phase := .accum }).finish .success

/-- The rule of PROCESS (R194), its checks in the order of R192. -/
def processRule (ci si : Nat) (a : Args) (s : State) : State :=
  match s.cfg[ci]?, s.st[si]? with
  | some c, some x =>
    if c.valid = false then s.raise .unconfigured
    else match phaseCause x.phase with
      | some cause => s.raise cause
      | none => if processChecks a then processInto si c x a s else s.finish .invalidParam
  | _, _ => s.finish .invalidParam

/-- PROCESS (R194). -/
def execProcess (ci si : Nat) (s : State) : Host.Outcome State Fault Refusal := s.completing (processRule ci si)

/-! ### FINALIZE -/

/-- The correction of FINALIZE (R201, C3): mirror when the orders differ, shift when the output order is MSB. -/
def correct (w : Nat) (c : CfgSlot) (v : Word) : Word :=
  let v' := if c.inOrder ≠ c.outOrder then mirror w v else v
  match c.outOrder with
  | .msb => v' >>> (w - c.deg.toNat)
  | .lsb => v'

/-- The rule of FINALIZE (R201). -/
def finalizeRule (ci si : Nat) (_a : Args) (s : State) : State :=
  match s.cfg[ci]?, s.st[si]? with
  | some c, some x =>
    if c.valid = false then s.raise .unconfigured
    else match phaseCause x.phase with
      | some cause => s.raise cause
      | none => (s.setSt si { value := correct s.W c (x.value ^^^ c.oxor), phase := .final }).finish .success
  | _, _ => s.finish .invalidParam

/-- FINALIZE (R201). -/
def execFinalize (ci si : Nat) (s : State) : Host.Outcome State Fault Refusal := s.completing (finalizeRule ci si)

end Sys2Proof.Machine
end

