-- ==== Sys2Proof/Machine/Footprint.lean ====
section
/-! DEFINITION. The MEM bytes the pending command reads and writes, in the order of its accesses (R51, R62). They are
what the host duty of R66 is about, and what an abandoned BUILD_TABLE may have written (R261). -/

namespace Sys2Proof.Machine

/-- The bytes a LUT run reads: each message byte and then its table entry, up to the first that is not admitted (R62,
R173). -/
def lutReads (ps : Config.Params) (m : Memory) (c : CfgSlot) : Nat → Nat → Word → List Nat
  | 0, _, _ => []
  | n + 1, b, r =>
    match readByte ps m b with
    | none => []
    | some v =>
      let e := entryBytes c.deg.toNat
      let at0 := c.table.toNat + lutIndex ps.width.bits c r v * e
      b :: ((List.range' at0 e).takeWhile (memAdmit ps .read) ++
        (match lutStep ps m c r v with
         | none => []
         | some r' => lutReads ps m c n (b + 1) r'))

/-- The bytes `ProcLut` reads (R196). -/
def procLutReads (ps : Config.Params) (m : Memory) (c : CfgSlot) (r : Word) (b o L : Nat) : List Nat :=
  match leadPiece ps m c r b o L with
  | none => []
  | some (r1, p, rem) =>
    (if o ≠ 0 ∧ 0 < L then [b] else []) ++
      (lutReads ps m c (rem / 8) p r1 ++
        (match lutKernel ps m c (rem / 8) p r1 with
         | none => []
         | some _ => if 0 < rem % 8 then [p + rem / 8].takeWhile (memAdmit ps .read) else []))

/-- The bytes a PROCESS range reads (R195, R196). -/
def rangeReads (ps : Config.Params) (m : Memory) (c : CfgSlot) (r : Word) (b o L : Nat) : List Nat :=
  if c.table = 0 then (List.range' b (bytesTouched o L)).takeWhile (memAdmit ps .read)
  else procLutReads ps m c r b o L

/-- The bytes PROCESS reads: none when one of its checks fails (R223, R227). -/
def processReads (ci si : Nat) (a : Args) (s : State) : List Nat :=
  match s.cfg[ci]?, s.st[si]? with
  | some c, some x =>
    if c.valid && (phaseCause x.phase).isNone && processChecks a then
      rangeReads s.params s.mem c x.value a.buffer.toNat a.offset.toNat a.bitLength.toNat
    else []
  | _, _ => []

/-- The byte writes of BUILD_TABLE that are made: none when one of its checks fails, and up to the first byte that is
not admitted (R135, R223). -/
def buildCells (ci : Nat) (a : Args) (s : State) : List Host.Cell :=
  match s.cfg[ci]? with
  | none => []
  | some c =>
    if c.valid && buildChecks s.params.width c a then
      (tableCells s.W c a.buildTable.toNat).takeWhile fun cell => memAdmit s.params .write cell.1
    else []

/-- The MEM bytes the pending command reads (R51): only PROCESS reads MEM. -/
def pendingReads (s : State) : List Nat :=
  match s.pending with
  | none => []
  | some p =>
    match decode p.word with
    | .ok (.process ci si) => processReads ci si p.args s
    | _ => []

/-- The MEM writes of the pending command (R51): only BUILD_TABLE writes MEM. -/
def pendingCells (s : State) : List Host.Cell :=
  match s.pending with
  | none => []
  | some p =>
    match decode p.word with
    | .ok (.buildTable ci) => buildCells ci p.args s
    | _ => []

/-- The MEM bytes the pending command writes. -/
def pendingWrites (s : State) : List Nat := (pendingCells s).map Prod.fst

end Sys2Proof.Machine
end

