-- ==== Sys2Proof/Machine/BlockReset.lean ====
section
/-! DEFINITION. Block reset (R260, R261): the platform's event, the only way out of a fault. -/

namespace Sys2Proof.Machine

/-- Each byte of the list is written or left as it is, by the free bits from number `n` on (R261, S6). -/
def drawCells : Nat → Memory → List Host.Cell → Memory
  | _, m, [] => m
  | n, m, (a, v) :: rest => drawCells (n + 1) (if Config.freeBit n then Memory.write m a v else m) rest

/-- Block reset: the values of R39, with each byte an abandoned BUILD_TABLE would have written drawn between old and new
(R261). -/
def blockReset (s : State) : State :=
  State.clearBlock
    { s with
      mem := drawCells s.draws s.mem (pendingCells s)
      draws := s.draws + (pendingCells s).length }

end Sys2Proof.Machine
end

