-- ==== Sys2Proof/Machine/Dispatch.lean ====
section
/-! DEFINITION. The command's rule, by its operation (R190). -/

namespace Sys2Proof.Machine

def exec (i : Instr) (s : State) : Host.Outcome State Fault Refusal :=
  match i with
  | .configure ci => Sys2Proof.Machine.execConfigure ci s
  | .buildTable ci => Sys2Proof.Machine.execBuildTable ci s
  | .sizeofTable => Sys2Proof.Machine.execSizeofTable s
  | .reset ci si => Sys2Proof.Machine.execReset ci si s
  | .process ci si => Sys2Proof.Machine.execProcess ci si s
  | .finalize ci si => Sys2Proof.Machine.execFinalize ci si s

end Sys2Proof.Machine
end

