-- ==== Sys2Proof/Machine/Complete.lean ====
section
/-! DEFINITION. The block's only step: completion of the pending command (R190). -/

namespace Sys2Proof.Machine

/-- The rule of a Reserved word (R87): it completes with NOT_SUPPORTED and changes nothing else. -/
def execReserved (s : State) : Host.Outcome State Fault Refusal :=
  s.completing fun _ s => s.finish .notSupported

/-- Completion of the command word `w` (R190). -/
def completeWord (w : Word) (s : State) : Host.Outcome State Fault Refusal :=
  match decode w with
  | .ok i => exec i s
  | .error _ => execReserved s

/-- The block's turn: completion when a command is pending, and otherwise no enabled step, so that nothing changes
(R190, R237, log entry 9). -/
def blockTurn (s : State) : Host.Outcome State Fault Refusal :=
  match s.pending with
  | none => .next s
  | some p => completeWord p.word s

end Sys2Proof.Machine
end

