-- ==== Sys2Proof/Machine/Flags.lean ====
section
/-! DEFINITION. The status fields: their numeric codes and the STATUS word (R27, R220, R225). The block has no condition
codes (R32); these fields are its only outcome indication. -/

namespace Sys2Proof.Machine

/-- The numeric status codes of R220. -/
def StatusCode.num : StatusCode → Word
  | .success => 0
  | .invalidParam => 1
  | .failed => 2
  | .notSupported => 3

/-- The numeric cause codes of R225. -/
def Cause.num : Cause → Word
  | .none => 0
  | .unconfigured => 1
  | .stateUninit => 2
  | .stateFinal => 3
  | .bus => 4
  | .hostBusy => 5

/-- The numeric phases of R23. -/
def Phase.num : Phase → Word
  | .uninit => 0
  | .fresh => 1
  | .accum => 2
  | .final => 3

/-- The numeric bit orders of R12. -/
def orderNum : BitOrder → Word
  | .msb => 0
  | .lsb => 1

/-- A one-bit field as a word. -/
def bitNum (b : Bool) : Word := if b then 1 else 0

/-- STATUS read as a 64-bit word (R27): CODE at 1:0, BUSY at 8, FAULT at 16, CAUSE at 27:24, all other bits 0. -/
def Status.word (s : Status) : Word :=
  s.code.num ||| (bitNum s.busy <<< 8) ||| (bitNum s.fault <<< 16) ||| (s.cause.num <<< 24)

end Sys2Proof.Machine
end

