-- ==== Sys2Proof/Machine/HostPort.lean ====
section
/-! DEFINITION. The host interface: the register window (R35 to R37), issue (R190), and the hosts' lines (R68, R89, R90). -/

namespace Sys2Proof.Machine

/-! ### The register map -/

/-- The registers of one Configuration slot in the window (R35). -/
inductive CfgReg where
  | poly | ixor | oxor | table | ctrl
  deriving DecidableEq, Repr

/-- The registers of one Checksum State slot in the window (R35). -/
inductive StReg where
  | value | phase
  deriving DecidableEq, Repr

/-- What stands at an offset of the register window (R35). -/
inductive Reg where
  | id | status | cmd | result
  | arg (i : Nat)
  | cfg (k : Nat) (f : CfgReg)
  | st (j : Nat) (f : StReg)
  | unmapped
  deriving DecidableEq, Repr

/-- The size of the register window (R35). -/
def windowSize : Nat := 0x9000

/-- The register at a slot-relative offset of a Configuration slot (R35). -/
def cfgRegAt (k off : Nat) : Reg :=
  match off with
  | 0x00 => .cfg k .poly
  | 0x08 => .cfg k .ixor
  | 0x10 => .cfg k .oxor
  | 0x18 => .cfg k .table
  | 0x20 => .cfg k .ctrl
  | _ => .unmapped

/-- The register at a slot-relative offset of a Checksum State slot (R35). -/
def stRegAt (j off : Nat) : Reg :=
  match off with
  | 0x0 => .st j .value
  | 0x8 => .st j .phase
  | _ => .unmapped

/-- The register at an 8-byte-aligned offset of the window, for an instance with `ncfg` and `nst` slots (R35). -/
def regAt (ncfg nst off : Nat) : Reg :=
  if off = 0x000 then .id
  else if off = 0x008 then .status
  else if off = 0x010 then .cmd
  else if off = 0x018 then .result
  else if 0x020 ≤ off ∧ off < 0x050 then .arg ((off - 0x020) / 8)
  else if 0x1000 ≤ off ∧ off < 0x1000 + 0x40 * ncfg then cfgRegAt ((off - 0x1000) / 0x40) ((off - 0x1000) % 0x40)
  else if 0x8000 ≤ off ∧ off < 0x8000 + 0x10 * nst then stRegAt ((off - 0x8000) / 0x10) ((off - 0x8000) % 0x10)
  else .unmapped

/-- The offset of a register, read off the same map (R35). -/
def regOffset : Reg → Nat
  | .id => 0x000
  | .status => 0x008
  | .cmd => 0x010
  | .result => 0x018
  | .arg i => 0x020 + 8 * i
  | .cfg k f => 0x1000 + 0x40 * k +
      (match f with
       | .poly => 0x00
       | .ixor => 0x08
       | .oxor => 0x10
       | .table => 0x18
       | .ctrl => 0x20)
  | .st j f => 0x8000 + 0x10 * j +
      (match f with
       | .value => 0x0
       | .phase => 0x8)
  | .unmapped => 0x058

/-- ID (R28): `W`, NCFG - 1, NST - 1 and interface version 1. -/
def idWord (s : State) : Word :=
  BitVec.ofNat 64 (s.W + (s.ncfg - 1) * 2 ^ 8 + (s.nst - 1) * 2 ^ 16 + 0x01 * 2 ^ 24)

/-- `CFG[k].CTRL` (R37). -/
def ctrlWord (c : CfgSlot) : Word :=
  bitNum c.valid ||| (orderNum c.inOrder <<< 1) ||| (orderNum c.outOrder <<< 2) ||| (c.deg.setWidth 64 <<< 8) |||
    ((if c.valid then BitVec.ofNat 64 (entryBytes c.deg.toNat) else 0) <<< 16)

/-- A register of a Configuration slot as it reads (R35). -/
def readCfgReg (c : CfgSlot) : CfgReg → Word
  | .poly => c.poly
  | .ixor => c.ixor
  | .oxor => c.oxor
  | .table => c.table
  | .ctrl => ctrlWord c

/-- A register of a Checksum State slot as it reads (R35). -/
def readStReg (x : StSlot) : StReg → Word
  | .value => x.value
  | .phase => x.phase.num

/-- What a host read of a register returns (R35, R36): 0 for CMD and for an unmapped offset. -/
def readReg (s : State) : Reg → Word
  | .id => idWord s
  | .status => s.status.word
  | .cmd => 0
  | .result => s.result
  | .arg i => s.args.get i
  | .cfg k f =>
    match s.cfg[k]? with
    | some c => readCfgReg c f
    | none => 0
  | .st j f =>
    match s.st[j]? with
    | some x => readStReg x f
    | none => 0
  | .unmapped => 0

/-! ### Host accesses -/

/-- Issue (R190): a write of `w` to CMD while not busy. It is ignored while a fault stands (R226). -/
def issue (w : Word) (s : State) : State :=
  if s.status.fault then s
  else { s with pending := some { word := w, args := s.args }, status := { s.status with busy := true } }

/-- A host write to a register while not busy (R36): ARG and CMD take it, every other offset ignores it. -/
def writeReg (r : Reg) (v : Word) (s : State) : State :=
  match r with
  | .arg i => { s with args := s.args.set i v }
  | .cmd => issue v s
  | .id => s
  | .status => s
  | .result => s
  | .cfg _ _ => s
  | .st _ _ => s
  | .unmapped => s

/-- A host write to the window at `off` (R36): while busy it raises HOST_BUSY and is discarded (R227). -/
def hostWrite (off : Nat) (v : Word) (s : State) : State :=
  if s.status.busy then s.raise .hostBusy else writeReg (regAt s.ncfg s.nst off) v s

/-- The window offset of a host register access of `size` bytes at host address `addr`: inside the window, and 64 bits
wide at an 8-byte-aligned offset (R36, S8). -/
def windowOffset (p : Config.Params) (addr size : Nat) : Except Refusal Nat :=
  if addr < p.regBase ∨ p.regBase + windowSize ≤ addr then .error .outsideWindow
  else if size ≠ 8 ∨ (addr - p.regBase) % 8 ≠ 0 then .error .windowAccessForm
  else .ok (addr - p.regBase)

/-- The MEM bytes a host may not write now (R66): those the pending command reads or writes. -/
def mayNotWrite (s : State) (a : Nat) : Bool :=
  s.status.busy && ((pendingReads s).contains a || (pendingWrites s).contains a)

/-- The MEM bytes a host may not read now (R66): those a pending BUILD_TABLE writes. -/
def mayNotRead (s : State) (a : Nat) : Bool := s.status.busy && (pendingWrites s).contains a

/-- A value given back to a host (log entry 15). -/
def giveBack (v : Word) (s : State) : State := { s with reads := v :: s.reads }

/-- One host line, already taken off the list (R68, R89). A POLL that reads BUSY = 1 stays the next line. R59 leaves it
to the platform whether the register window and MEM overlap; here they are two spaces, whatever `regBase` and the regions
are: `wr` and `rd` reach the window alone, `memWr` and `memRd` MEM alone (DESIGN CHOICE, log entry 25). -/
def hostLine (l : HostLine) (s : State) : Host.Outcome State Fault Refusal :=
  match l with
  | .wr addr size v =>
    match windowOffset s.params addr size with
    | .error r => .refused r
    | .ok off => .next (hostWrite off v s)
  | .rd addr size =>
    match windowOffset s.params addr size with
    | .error r => .refused r
    | .ok off => .next (giveBack (readReg s (regAt s.ncfg s.nst off)) s)
  | .memWr a bs =>
    if 2 ^ 64 < a + bs.length then .fault .noSuchAddress
    else if (cellsAt a bs).any (fun c => mayNotWrite s c.1) then .refused .hostDuty
    else .next { s with mem := Memory.writeList s.mem (cellsAt a bs) }
  | .memRd a =>
    if 2 ^ 64 ≤ a then .fault .noSuchAddress
    else if mayNotRead s a then .refused .hostDuty
    else .next (giveBack ((Memory.read s.mem a).setWidth 64) s)
  | .poll => if s.status.busy then .next { s with lines := .poll :: s.lines } else .next s

/-- A host's turn: its next line, and nothing when there is none. -/
def hostTurn (s : State) : Host.Outcome State Fault Refusal :=
  match s.lines with
  | [] => .next s
  | l :: rest => hostLine l { s with lines := rest }

/-! ### The notation of R89 and R90 -/

/-- `WR <reg>, <v>` (R89). -/
def lineWr (p : Config.Params) (r : Reg) (v : Word) : HostLine := .wr (p.regBase + regOffset r) 8 v

/-- `RD <reg>` (R89). -/
def lineRd (p : Config.Params) (r : Reg) : HostLine := .rd (p.regBase + regOffset r) 8

/-- The writes of operands to ARG0, ARG1, ... in order. -/
def argLines (p : Config.Params) (i : Nat) (vs : List Word) : List HostLine :=
  match vs with
  | [] => []
  | v :: rest => lineWr p (.arg i) v :: argLines p (i + 1) rest

/-- The pseudo-instructions of R90: the operands to ARG, the command word to CMD, and POLL. -/
def pseudoLines (p : Config.Params) (operands : List Word) (i : Instr) : List HostLine :=
  argLines p 0 operands ++ [lineWr p .cmd (encode i), .poll]

end Sys2Proof.Machine
end

