-- ==== Sys2Proof/Machine/Step.lean ====
section
/-! DEFINITION. One move of the machine, and the placing of a command for the next one. -/

namespace Sys2Proof.Machine

/-- The move of the agent whose turn it is (R68, R190, R260). -/
def takeTurn (t : Turn) (s : State) : Host.Outcome State Fault Refusal :=
  match t with
  | .host => hostTurn s
  | .block => blockTurn s
  | .blockReset => .next (blockReset s)

/-- One step: the next fixed turn, or, when none is left, the block's if a command is pending and a host's otherwise
(log entry 8). -/
def step (s : State) : Host.Outcome State Fault Refusal :=
  match s.turns with
  | t :: rest => takeTurn t { s with turns := rest }
  | [] => if s.pending.isSome then takeTurn .block s else takeTurn .host s

/-- The command word `w` placed where the block takes its next command: in PENDING, as an issue captures it (R29, R190),
with the block to move next (log entry 18). -/
def State.withFetchWord (s : State) (nbits w : Nat) : State :=
  { s with
    pending := some { word := BitVec.ofNat 64 (w % 2 ^ nbits), args := s.args }
    status := { s.status with busy := true }
    turns := .block :: s.turns }

end Sys2Proof.Machine
end

