-- ==== Sys2Proof/Safety.lean ====
section
/-! DEFINITION. The terms claims are stated in: what a finished and a successful run is (R274), the invariant of the
machine, the conditions of R222 and R225, tables and admitted ranges, and the textbook register of R159 and R202. -/

namespace Sys2Proof.Machine

/-! ### The end of a run -/

/-- A run is over: every host line is executed and no command is pending (R274). -/
abbrev State.runOver (s : State) : Prop := s.lines = [] ∧ s.pending = none

/-- A run ended successfully (R226, R274). -/
abbrev State.successful (s : State) : Prop := s.runOver ∧ s.status.fault = false

/-! ### The invariant -/

/-- A valid slot holds what a successful CONFIGURE with some operands wrote, except for its table address, which is
aligned (R22). -/
def CfgSlot.configured (w : Width) (c : CfgSlot) : Prop :=
  ∃ (a : Args) (io oo : BitOrder),
    configChecks w a = true ∧ orderOfOperand a.inputOrder = some io ∧ orderOfOperand a.outputOrder = some oo ∧
    tableAligned w c.table = true ∧
    c = { configSlot w.bits a.polynomial a.inputXor a.outputXor a.cfgTable io oo with table := c.table }

/-- A Configuration slot of a reachable state: configured, or as block reset left it (R22, R39). -/
def CfgSlot.inv (w : Width) (c : CfgSlot) : Prop := (c.valid = true ∧ c.configured w) ∨ c = CfgSlot.reset

/-- A Checksum State slot of a reachable state: a `W`-bit value (R23), which is 0 in a slot no RESET has written (R39). -/
def StSlot.inv (w : Width) (x : StSlot) : Prop :=
  x.value.toNat < 2 ^ w.bits ∧ (x.phase = .uninit → x.value = 0)

/-- The status fields of a reachable state: CAUSE is 0 exactly when FAULT is 0 (R27), and FAILED is never produced
(R221). -/
def Status.inv (x : Status) : Prop := (x.fault = false ↔ x.cause = .none) ∧ x.code ≠ .failed

/-- MEM in its canonical form, at addresses below `2^64` (R50). -/
def Memory.inv (m : Memory) : Prop := Memory.wf m ∧ ∀ c ∈ m, c.1 < 2 ^ 64

/-- The invariant of the machine. -/
structure State.Inv (s : State) : Prop where
  mem : Memory.inv s.mem
  /-- PENDING is not none exactly when BUSY is 1 (R29) -/
  busy : s.status.busy = s.pending.isSome
  status : s.status.inv
  cfg : ∀ c ∈ s.cfg, c.inv s.params.width
  st : ∀ x ∈ s.st, x.inv s.params.width

/-! ### When a command is rejected, and when it faults -/

/-- The conditions of R222: the command completes with INVALID_PARAM. -/
def invalidCase (i : Instr) (a : Args) (s : State) : Prop :=
  match i with
  | .configure ci =>
    s.ncfg ≤ ci ∨ a.a0 = 0 ∨ s.W < bitlen a.a0 ∨ (a.a3 ≠ 0 ∧ a.a3.toNat % (s.W / 8) ≠ 0) ∨
      2 ^ bitlen a.a0 ≤ a.a1.toNat ∨ 2 ^ bitlen a.a0 ≤ a.a2.toNat ∨ 1 < a.a4.toNat ∨ 1 < a.a5.toNat
  | .buildTable ci =>
    s.ncfg ≤ ci ∨ ∃ c, s.cfg[ci]? = some c ∧ c.valid = true ∧
      (a.a0 = 0 ∨ a.a1.toNat ≠ tableSize c.deg.toNat ∨ a.a0.toNat % (s.W / 8) ≠ 0)
  | .sizeofTable => False
  | .reset ci si => s.ncfg ≤ ci ∨ s.nst ≤ si
  | .process ci si =>
    s.ncfg ≤ ci ∨ s.nst ≤ si ∨ ∃ c x, s.cfg[ci]? = some c ∧ s.st[si]? = some x ∧ c.valid = true ∧
      (x.phase = .fresh ∨ x.phase = .accum) ∧
      (a.a0 = 0 ∨ 8 ≤ a.a1.toNat ∨ 2 ^ 64 < a.a0.toNat + bytesTouched a.a1.toNat a.a2.toNat)
  | .finalize ci si => s.ncfg ≤ ci ∨ s.nst ≤ si

/-- The contract faults of R225 in the order of R228, for slots in range: the cause the command raises. -/
def contractCause (i : Instr) (s : State) (cause : Cause) : Prop :=
  match i with
  | .configure _ => False
  | .buildTable ci => ∃ c, s.cfg[ci]? = some c ∧ c.valid = false ∧ cause = .unconfigured
  | .sizeofTable => False
  | .reset ci si =>
    ∃ c x, s.cfg[ci]? = some c ∧ s.st[si]? = some x ∧ c.valid = false ∧ cause = .unconfigured
  | .process ci si =>
    ∃ c x, s.cfg[ci]? = some c ∧ s.st[si]? = some x ∧
      ((c.valid = false ∧ cause = .unconfigured) ∨
       (c.valid = true ∧ x.phase = .uninit ∧ cause = .stateUninit) ∨
       (c.valid = true ∧ x.phase = .final ∧ cause = .stateFinal))
  | .finalize ci si =>
    ∃ c x, s.cfg[ci]? = some c ∧ s.st[si]? = some x ∧
      ((c.valid = false ∧ cause = .unconfigured) ∨
       (c.valid = true ∧ x.phase = .uninit ∧ cause = .stateUninit) ∨
       (c.valid = true ∧ x.phase = .final ∧ cause = .stateFinal))

/-- STATUS after a fault of the given cause was raised and the command retired (R190, R224). -/
def Status.faulted (x : Status) (cause : Cause) : Status :=
  { code := x.code, busy := false, fault := true, cause := if x.fault then x.cause else cause }

/-- STATUS after a command that ended by `finish(code)` was retired (R190, R220). -/
def Status.finished (x : Status) (code : StatusCode) : Status := { x with code := code, busy := false }

/-! ### MEM ranges and tables -/

/-- Every one of the `n` bytes from `a` is admitted for accesses of kind `k`. -/
abbrev rangeAdmitted (ps : Config.Params) (k : Config.AccessKind) (a n : Nat) : Prop :=
  ∀ i < n, memAdmit ps k (a + i) = true

/-- MEM at `c.TABLE` holds `Entry(c, 0..255)` in the layout of R58, and its bytes are admitted for reading (R267). -/
abbrev holdsTable (ps : Config.Params) (m : Memory) (c : CfgSlot) : Prop :=
  ∀ i < 256, ∀ j < entryBytes c.deg.toNat,
    memAdmit ps .read (c.table.toNat + i * entryBytes c.deg.toNat + j) = true ∧
    Memory.read m (c.table.toNat + i * entryBytes c.deg.toNat + j) =
      (entry ps.width.bits c i).extractLsb' (8 * j) 8

/-- A BUILD_TABLE of slot `ci` is in flight, its checks pass, and `n` is the number of its table bytes before the first
one that is not admitted: the whole table when all are (R56, R132, R133). -/
abbrev buildsUpTo (s : State) (p : Pending) (ci : Nat) (c : CfgSlot) (n : Nat) : Prop :=
  s.pending = some p ∧ decode p.word = .ok (.buildTable ci) ∧ s.cfg[ci]? = some c ∧ c.valid = true ∧
    ¬ invalidCase (.buildTable ci) p.args s ∧ n ≤ tableSize c.deg.toNat ∧
    rangeAdmitted s.params .write p.args.a0.toNat n ∧
    (n < tableSize c.deg.toNat → memAdmit s.params .write (p.args.a0.toNat + n) = false)

/-- `T` is what MEM holds at `c.TABLE`, whatever built it: `T i` is entry `i` read little-endian, and none when a byte of
it is not admitted (R56, R58, R170). -/
def tableReads (ps : Config.Params) (m : Memory) (c : CfgSlot) (T : Nat → Option Word) : Prop :=
  ∀ i < 256,
    (T i = none → ∃ j < entryBytes c.deg.toNat,
      memAdmit ps .read (c.table.toNat + i * entryBytes c.deg.toNat + j) = false) ∧
    (∀ v, T i = some v → v.toNat < 2 ^ (8 * entryBytes c.deg.toNat) ∧ ∀ j < entryBytes c.deg.toNat,
      memAdmit ps .read (c.table.toNat + i * entryBytes c.deg.toNat + j) = true ∧
      v.extractLsb' (8 * j) 8 = Memory.read m (c.table.toNat + i * entryBytes c.deg.toNat + j))

/-- The step of R171 and R172 over any table `T`: the register shifted by eight, xor the entry at the index, which is
moved to the top of the register for MSB input (R170); none when the entry cannot be read. -/
def tableStep (w : Nat) (c : CfgSlot) (T : Nat → Option Word) (r : Word) (v : Byte) : Option Word :=
  match c.inOrder with
  | .msb => (T (((r >>> (w - 8)) ^^^ v.setWidth 64).toNat % 256)).map fun te : Word =>
      trunc w (r <<< 8) ^^^ te <<< (w - 8 * entryBytes c.deg.toNat)
  | .lsb => (T ((r ^^^ v.setWidth 64).toNat % 256)).map fun te : Word => r >>> 8 ^^^ te

/-- The register R196 leaves over any table `T`: the leading partial byte's bits by the bit-wise kernel, the whole bytes
by `tableStep`, the trailing bits by the bit-wise kernel. -/
def tableRange (w : Nat) (c : CfgSlot) (m : Memory) (T : Nat → Option Word) (r : Word) (b o L : Nat) : Option Word :=
  let k := if o = 0 then 0 else min (8 - o) L
  let p := if k = 0 then b else b + 1
  let n := (L - k) / 8
  (((List.range n).map fun i => Memory.read m (p + i)).foldlM (tableStep w c T)
      (bitKernel w c r (messageBits m c.inOrder b o k))).map fun r2 =>
    bitKernel w c r2 (messageBits m c.inOrder (p + n) 0 ((L - k) % 8))

/-! ### The textbook register -/

/-- `NR(R, x)` of R159: the degree-`d` normal register step. -/
def normalStep (d : Nat) (N R : Word) (x : Bool) : Word :=
  trunc d (R <<< 1) ^^^ (if R.getLsbD (d - 1) != x then N else 0)

/-- The register of R202 after the bits `S`, from `ix`. -/
def normalRegister (d : Nat) (N ix : Word) (S : List Bool) : Word := S.foldl (normalStep d N) ix

/-- The checksum of R202. -/
def checksum (p ix ox : Word) (oo : BitOrder) (S : List Bool) : Word :=
  let d := bitlen p
  let R := normalRegister d (normalForm d p) ix S
  (match oo with
   | .msb => R
   | .lsb => mirror d R) ^^^ ox

/-! ### Runs of commands -/

/-- The state in which the command `i` with operands `a` is in flight: with BUSY and FAULT 0, the state right after a host
has written `a` to ARG and the command word of `i` to CMD (R90, R190; `Obligations.CmdWriteIssues` says so). With BUSY or
FAULT 1 no host write leads to it; statements over it hold there too. -/
def State.issued (s : State) (i : Instr) (a : Args) : State :=
  { s with args := a, pending := some { word := encode i, args := a }, status := { s.status with busy := true } }

/-- Issue and completion of each command in turn. -/
def runCommands : List (Instr × Args) → State → Host.Outcome State Fault Refusal
  | [], s => .next s
  | (i, a) :: rest, s =>
    match step (s.issued i a) with
    | .next t => runCommands rest t
    | .fault f => .fault f
    | .refused r => .refused r

end Sys2Proof.Machine
end

