-- ==== Sys2Proof/Certificates/Slice0/Obligations.lean ====
section
/-! DEFINITION. The statements for the provers: what the block does, from the numbered rules of spec/. -/

open Sys2Proof Sys2Proof.Machine

/-! ### Encoding -/

/-- The command words that the programs of 95_test_vectors.md write, read as the field table reads them (R81, R85).
Which name the decoder gives a Reserved word is the model's choice (log entry 24). -/
def Obligations.DecodesTheSpecsCommandWords : Prop :=
  decode 0x101 = .ok (.configure 1) ∧
  decode 0x102 = .ok (.buildTable 1) ∧
  decode 0x3 = .ok .sizeofTable ∧
  decode 0x20104 = .ok (.reset 1 2) ∧
  decode 0x20105 = .ok (.process 1 2) ∧
  decode 0x10006 = .ok (.finalize 0 1) ∧
  decode 0x7 = .error .opcode ∧
  decode 0x10 = .error .bits7to4

/-- The decoder is `decode(w)` of R85 on every 64-bit word. -/
def Obligations.DecodeFollowsTheFieldTable : Prop :=
  ∀ w : Word,
    ((w.extractLsb' 4 4 ≠ 0 ∨ w.extractLsb' 24 40 ≠ 0) → ∃ e, decode w = .error e) ∧
    (w.extractLsb' 4 4 = 0 → w.extractLsb' 24 40 = 0 →
      (w.extractLsb' 0 4 = 1 → decode w = .ok (.configure (w.extractLsb' 8 8).toNat)) ∧
      (w.extractLsb' 0 4 = 2 → decode w = .ok (.buildTable (w.extractLsb' 8 8).toNat)) ∧
      (w.extractLsb' 0 4 = 3 → decode w = .ok .sizeofTable) ∧
      (w.extractLsb' 0 4 = 4 → decode w = .ok (.reset (w.extractLsb' 8 8).toNat (w.extractLsb' 16 8).toNat)) ∧
      (w.extractLsb' 0 4 = 5 → decode w = .ok (.process (w.extractLsb' 8 8).toNat (w.extractLsb' 16 8).toNat)) ∧
      (w.extractLsb' 0 4 = 6 → decode w = .ok (.finalize (w.extractLsb' 8 8).toNat (w.extractLsb' 16 8).toNat)) ∧
      ((w.extractLsb' 0 4 = 0 ∨ 7 ≤ (w.extractLsb' 0 4).toNat) → ∃ e, decode w = .error e))

/-- Decoding an encoded well-formed command gives it back, for all six operations and every slot index (R81, R85). -/
def Obligations.DecodeEncodeAgree : Prop := ∀ i : Instr, i.wellFormed = true → decode (encode i) = .ok i

/-- Two words that differ only in index fields their operation does not use are the same command (R86). `m` holds the
bits in which they differ. -/
def Obligations.UnusedIndexFieldsHaveNoEffect : Prop :=
  ∀ w m : Word,
    (((w.extractLsb' 0 4 = 1 ∨ w.extractLsb' 0 4 = 2) ∧ m &&& 0xFFFFFFFFFF00FFFF = 0) ∨
      (w.extractLsb' 0 4 = 3 ∧ m &&& 0xFFFFFFFFFF0000FF = 0)) →
    decode (w ^^^ m) = decode w ∧ ∀ s, completeWord (w ^^^ m) s = completeWord w s

/-! ### The command life cycle -/

/-- A step makes the move of the agent whose turn it is, with that turn taken off the list. The block's turn runs the
meaning of the decoded command in flight (R190); a host's turn runs its next line, that line taken off (R68, R89), and
changes nothing else when no line is left. POLL stays the next line while BUSY is 1 (R89). With no turn left the block
moves if a command is in flight, and a host otherwise. A word placed by `withFetchWord` is the next one run. The turns,
the idle moves, POLL's values and the placing are the model's choice (log entries 7, 8, 9, 15 and 18). -/
def Obligations.StepRunsThePendingCommand : Prop :=
  ∀ s : State,
    (∀ (i : Instr) (p : Pending), s.pending = some p → decode p.word = .ok i →
      (s.turns = [] → step s = exec i s) ∧
      (∀ rest, s.turns = .block :: rest → step s = exec i { s with turns := rest })) ∧
    (∀ (i : Instr) (w : Nat), decodeTableWord 64 w = some i →
      step (s.withFetchWord 64 w) = exec i { s.withFetchWord 64 w with turns := s.turns }) ∧
    (∀ l ls, s.lines = l :: ls →
      (s.turns = [] → s.pending = none → step s = hostLine l { s with lines := ls }) ∧
      (∀ rest, s.turns = .host :: rest → step s = hostLine l { s with turns := rest, lines := ls })) ∧
    (s.lines = [] →
      (s.turns = [] → s.pending = none → step s = .next s) ∧
      (∀ rest, s.turns = .host :: rest → step s = .next { s with turns := rest })) ∧
    (∀ rest, s.turns = .block :: rest → s.pending = none → step s = .next { s with turns := rest }) ∧
    (s.status.busy = true → hostLine .poll s = .next { s with lines := .poll :: s.lines }) ∧
    (s.status.busy = false → hostLine .poll s = .next s)

/-- A Reserved word completes with NOT_SUPPORTED and changes nothing but CODE, BUSY and PENDING (R87). -/
def Obligations.ReservedWordsCompleteNotSupported : Prop :=
  ∀ (s : State) (p : Pending), s.pending = some p → s.turns = [] →
    (p.word.extractLsb' 0 4 = 0 ∨ 7 ≤ (p.word.extractLsb' 0 4).toNat ∨ p.word.extractLsb' 4 4 ≠ 0 ∨
      p.word.extractLsb' 24 40 ≠ 0) →
    step s = .next { s with pending := none, status := { s.status with code := .notSupported, busy := false } }

/-- A host write to CMD while not busy captures the word and the ARG registers and sets BUSY, and is ignored while a
fault stands (R190, R226). With no fault, the write of a command's word leaves that command in flight as `State.issued`
has it. -/
def Obligations.CmdWriteIssues : Prop :=
  ∀ (s : State) (v : Word), s.status.busy = false →
    hostLine (lineWr s.params .cmd v) s =
      .next (if s.status.fault then s
        else { s with pending := some { word := v, args := s.args }, status := { s.status with busy := true } }) ∧
    ∀ i : Instr, v = encode i → s.status.fault = false →
      hostLine (lineWr s.params .cmd v) s = .next (s.issued i s.args)

/-- A host write to `ARG[i]` while not busy sets that register and nothing else (R25, R36). -/
def Obligations.ArgWriteSetsOneRegister : Prop :=
  ∀ (s : State) (i : Nat) (v : Word), i < 6 → s.status.busy = false →
    ∃ t, hostLine (lineWr s.params (.arg i) v) s = .next t ∧ t.args.get i = v ∧
      (∀ j, j < 6 → j ≠ i → t.args.get j = s.args.get j) ∧ t = { s with args := t.args }

/-- A host write to the window while busy raises HOST_BUSY, is discarded, and leaves the pending command (R36, R224,
R227). -/
def Obligations.BusyWriteRaisesHostBusy : Prop :=
  ∀ (s : State) (off : Nat) (v : Word), s.status.busy = true → off < 0x9000 → off % 8 = 0 →
    hostLine (.wr (s.params.regBase + off) 8 v) s =
      .next (if s.status.fault then s
        else { s with status := { s.status with fault := true, cause := .hostBusy } })

/-- A host access to the window that is not 64 bits wide at an 8-byte-aligned offset is refused (R36, S8). -/
def Obligations.MisformedWindowAccessIsRefused : Prop :=
  ∀ (s : State) (off size : Nat) (v : Word), off < 0x9000 → (size ≠ 8 ∨ off % 8 ≠ 0) →
    hostLine (.wr (s.params.regBase + off) size v) s = .refused .windowAccessForm ∧
    hostLine (.rd (s.params.regBase + off) size) s = .refused .windowAccessForm

/-- A host read of the window gives back the value of the register that stands at its offset and changes no other part
of the state; CMD and unmapped offsets read 0 (R35, R36, R68). Where the hosts keep the values they read is the model's
choice (log entry 15). -/
def Obligations.WindowReadsChangeNothing : Prop :=
  ∀ (s : State) (off : Nat), off < 0x9000 → off % 8 = 0 →
    hostLine (.rd (s.params.regBase + off) 8) s =
      .next { s with reads := readReg s (regAt s.ncfg s.nst off) :: s.reads } ∧
    (off = 0x10 ∨ (0x50 ≤ off ∧ off < 0x1000) ∨ (0x1000 + 0x40 * s.ncfg ≤ off ∧ off < 0x8000) ∨
      (0x1000 + 0x40 * s.ncfg ≤ off ∧ 0x8000 + 0x10 * s.nst ≤ off) ∨
      (0x1000 ≤ off ∧ off < 0x1000 + 0x40 * s.ncfg ∧ 0x28 ≤ (off - 0x1000) % 0x40) →
      readReg s (regAt s.ncfg s.nst off) = 0)

/-- A host write while not busy to an offset that is neither CMD nor ARG is ignored (R36). -/
def Obligations.ReadOnlyWindowWritesAreIgnored : Prop :=
  ∀ (s : State) (off : Nat) (v : Word), s.status.busy = false → off < 0x9000 → off % 8 = 0 → off ≠ 0x10 →
    ¬ (0x20 ≤ off ∧ off < 0x50) → hostLine (.wr (s.params.regBase + off) 8 v) s = .next s

/-- A host register write never changes a CFG or ST field, RESULT or `STATUS.CODE` (R36), nor MEM: that no register
write reaches MEM is the model's choice where the platform maps both (R59, log entry 25). -/
def Obligations.HostRegisterWritesLeaveTheSlots : Prop :=
  ∀ (s t : State) (addr size : Nat) (v : Word), hostLine (.wr addr size v) s = .next t →
    t.cfg = s.cfg ∧ t.st = s.st ∧ t.result = s.result ∧ t.status.code = s.status.code ∧ t.mem = s.mem

/-- A host write to a MEM byte the pending command reads or writes, and a host read of a byte a pending BUILD_TABLE
writes, is no move of the model; any other host access of MEM bytes is made (R66, R68). The writes of a BUILD_TABLE in
flight that passes its checks are byte `j` of `Entry(c, i)` at `t + i*e + j`, up to the first byte that is not admitted
(R56, R135). The exact bytes, and that MemAdmit does not bind hosts, are deduced (log entries 11 and 12); that a MEMWR of
several bytes is one move, and that it reaches MEM alone, is the model's choice (log entries 23 and 25). -/
def Obligations.HostMemoryDuty : Prop :=
  ∀ (s : State) (a : Nat) (v : Byte), a < 2 ^ 64 →
    (s.status.busy = true → (a ∈ pendingReads s ∨ a ∈ pendingWrites s) →
      hostLine (.memWr a [v]) s = .refused .hostDuty) ∧
    (s.status.busy = true → a ∈ pendingWrites s → hostLine (.memRd a) s = .refused .hostDuty) ∧
    ((s.status.busy = false ∨ (a ∉ pendingReads s ∧ a ∉ pendingWrites s)) →
      hostLine (.memWr a [v]) s = .next { s with mem := Memory.write s.mem a v }) ∧
    ((s.status.busy = false ∨ a ∉ pendingWrites s) →
      hostLine (.memRd a) s = .next { s with reads := (Memory.read s.mem a).setWidth 64 :: s.reads }) ∧
    (∀ bs : List Byte, a + bs.length ≤ 2 ^ 64 →
      (s.status.busy = true → (∃ i < bs.length, a + i ∈ pendingReads s ∨ a + i ∈ pendingWrites s) →
        hostLine (.memWr a bs) s = .refused .hostDuty) ∧
      (Memory.wf s.mem →
        (s.status.busy = false ∨ ∀ i < bs.length, a + i ∉ pendingReads s ∧ a + i ∉ pendingWrites s) →
        ∃ m : Memory, hostLine (.memWr a bs) s = .next { s with mem := m } ∧
          (∀ (i : Nat) (h : i < bs.length), Memory.read m (a + i) = bs[i]) ∧
          (∀ x, x < a ∨ a + bs.length ≤ x → Memory.read m x = Memory.read s.mem x))) ∧
    (∀ (p : Pending) (ci : Nat) (c : CfgSlot) (n : Nat), buildsUpTo s p ci c n →
      pendingWrites s = List.range' p.args.a0.toNat n ∧
      (∀ i < 256, ∀ j < entryBytes c.deg.toNat, i * entryBytes c.deg.toNat + j < n →
        (p.args.a0.toNat + i * entryBytes c.deg.toNat + j, (entry s.W c i).extractLsb' (8 * j) 8) ∈ pendingCells s))

/-! ### The register window -/

/-- ID reads the instance's parameters (R28). -/
def Obligations.IdReadsTheParameters : Prop :=
  ∀ s : State, 1 ≤ s.ncfg → s.ncfg ≤ 256 → 1 ≤ s.nst → s.nst ≤ 256 →
    (readReg s (regAt s.ncfg s.nst 0x000)).extractLsb' 0 8 = BitVec.ofNat 8 s.W ∧
    (readReg s (regAt s.ncfg s.nst 0x000)).extractLsb' 8 8 = BitVec.ofNat 8 (s.ncfg - 1) ∧
    (readReg s (regAt s.ncfg s.nst 0x000)).extractLsb' 16 8 = BitVec.ofNat 8 (s.nst - 1) ∧
    (readReg s (regAt s.ncfg s.nst 0x000)).extractLsb' 24 8 = 0x01 ∧
    (readReg s (regAt s.ncfg s.nst 0x000)).extractLsb' 32 32 = 0

/-- STATUS reads CODE, BUSY, FAULT and CAUSE in their fields, and 0 in the reserved bits (R27). -/
def Obligations.StatusReadsItsFields : Prop :=
  ∀ s : State,
    (readReg s (regAt s.ncfg s.nst 0x008)).extractLsb' 0 2 =
      (match s.status.code with
       | .success => 0
       | .invalidParam => 1
       | .failed => 2
       | .notSupported => 3) ∧
    (readReg s (regAt s.ncfg s.nst 0x008)).extractLsb' 2 6 = 0 ∧
    (readReg s (regAt s.ncfg s.nst 0x008)).getLsbD 8 = s.status.busy ∧
    (readReg s (regAt s.ncfg s.nst 0x008)).extractLsb' 9 7 = 0 ∧
    (readReg s (regAt s.ncfg s.nst 0x008)).getLsbD 16 = s.status.fault ∧
    (readReg s (regAt s.ncfg s.nst 0x008)).extractLsb' 17 7 = 0 ∧
    (readReg s (regAt s.ncfg s.nst 0x008)).extractLsb' 24 4 =
      (match s.status.cause with
       | .none => 0
       | .unconfigured => 1
       | .stateUninit => 2
       | .stateFinal => 3
       | .bus => 4
       | .hostBusy => 5) ∧
    (readReg s (regAt s.ncfg s.nst 0x008)).extractLsb' 28 36 = 0

/-- `CFG[k].CTRL` reads VALID, the orders, DEG and the entry width in their fields, and 0 elsewhere (R37). -/
def Obligations.CtrlReadsItsFields : Prop :=
  ∀ (s : State) (k : Nat) (c : CfgSlot), s.cfg[k]? = some c →
    ∃ v, readReg s (regAt s.ncfg s.nst (0x1000 + 0x40 * k + 0x20)) = v ∧
      v.getLsbD 0 = c.valid ∧
      v.getLsbD 1 = decide (c.inOrder = .lsb) ∧
      v.getLsbD 2 = decide (c.outOrder = .lsb) ∧
      v.extractLsb' 3 5 = 0 ∧
      v.extractLsb' 8 7 = c.deg ∧
      v.getLsbD 15 = false ∧
      v.extractLsb' 16 4 = (if c.valid then BitVec.ofNat 4 (entryBytes c.deg.toNat) else 0) ∧
      v.extractLsb' 20 44 = 0

/-- Every register stands at its offset of the register map (R35). -/
def Obligations.WindowReadsTheRegisters : Prop :=
  ∀ s : State, s.ncfg ≤ 256 → s.nst ≤ 256 →
    readReg s (regAt s.ncfg s.nst 0x008) = s.status.word ∧
    readReg s (regAt s.ncfg s.nst 0x010) = 0 ∧
    readReg s (regAt s.ncfg s.nst 0x018) = s.result ∧
    (∀ i, i < 6 → readReg s (regAt s.ncfg s.nst (0x020 + 8 * i)) = s.args.get i) ∧
    (∀ (k : Nat) (c : CfgSlot), s.cfg[k]? = some c →
      readReg s (regAt s.ncfg s.nst (0x1000 + 0x40 * k)) = c.poly ∧
      readReg s (regAt s.ncfg s.nst (0x1000 + 0x40 * k + 0x08)) = c.ixor ∧
      readReg s (regAt s.ncfg s.nst (0x1000 + 0x40 * k + 0x10)) = c.oxor ∧
      readReg s (regAt s.ncfg s.nst (0x1000 + 0x40 * k + 0x18)) = c.table) ∧
    (∀ (j : Nat) (x : StSlot), s.st[j]? = some x →
      readReg s (regAt s.ncfg s.nst (0x8000 + 0x10 * j)) = x.value ∧
      readReg s (regAt s.ncfg s.nst (0x8000 + 0x10 * j + 0x8)) =
        (match x.phase with
         | .uninit => 0
         | .fresh => 1
         | .accum => 2
         | .final => 3))

/-! ### Reset -/

/-- Every state element right after reset has the value of R39, for every instance and every contents of MEM, and
`State.reset` is one of these states; its instance is the model's choice (log entry 2). -/
def Obligations.ResetLeavesTheTabledValues : Prop :=
  ∀ (ps : Config.Params) (ncfg nst : Nat) (m : Memory) (s : State),
    s = State.resetOf ps ncfg nst m ∨ (s = State.reset ∧ ncfg = 256 ∧ nst = 256) →
    s.ncfg = ncfg ∧ s.nst = nst ∧
    (∀ (k : Nat) (c : CfgSlot), s.cfg[k]? = some c →
      c.valid = false ∧ c.deg = 0 ∧ c.inOrder = .msb ∧ c.outOrder = .msb ∧ c.poly = 0 ∧ c.ixor = 0 ∧ c.oxor = 0 ∧ c.table = 0) ∧
    (∀ (j : Nat) (x : StSlot), s.st[j]? = some x → x.value = 0 ∧ x.phase = .uninit) ∧
    (∀ i, s.args.get i = 0) ∧ s.result = 0 ∧
    s.status.code = .success ∧ s.status.busy = false ∧ s.status.fault = false ∧ s.status.cause = .none ∧
    s.pending = none

/-- Block reset sets every state element of the block to its reset value, abandons a command in flight, keeps the
instance, and leaves every MEM byte as it was, except that a byte an abandoned BUILD_TABLE would have written is its old
or its new value (R260, R261): for one that passes its checks, byte `j` of `Entry(c, i)` at `t + i*e + j`, up to the first
byte that is not admitted. Which bytes it would have written is deduced (log entry 6). -/
def Obligations.BlockResetRestoresTheResetState : Prop :=
  ∀ (s : State) (rest : List Turn), s.turns = .blockReset :: rest →
    ∃ t, step s = .next t ∧
      t.cfg = List.replicate s.ncfg CfgSlot.reset ∧ t.st = List.replicate s.nst StSlot.reset ∧ t.args = Args.reset ∧
      t.result = 0 ∧ t.status = Status.reset ∧ t.pending = none ∧ t.params = s.params ∧ t.turns = rest ∧
      (∀ a, a ∉ pendingWrites s → Memory.read t.mem a = Memory.read s.mem a) ∧
      (Memory.wf s.mem → ∀ c ∈ pendingCells s,
        Memory.read t.mem c.1 = Memory.read s.mem c.1 ∨ Memory.read t.mem c.1 = c.2) ∧
      ((∀ p ci, s.pending = some p → decode p.word ≠ .ok (.buildTable ci)) → t.mem = s.mem) ∧
      (∀ (p : Pending) (ci : Nat) (c : CfgSlot) (n : Nat), buildsUpTo s p ci c n → Memory.wf s.mem →
        (∀ i < 256, ∀ j < entryBytes c.deg.toNat, i * entryBytes c.deg.toNat + j < n →
          Memory.read t.mem (p.args.a0.toNat + i * entryBytes c.deg.toNat + j) =
            Memory.read s.mem (p.args.a0.toNat + i * entryBytes c.deg.toNat + j) ∨
          Memory.read t.mem (p.args.a0.toNat + i * entryBytes c.deg.toNat + j) =
            (entry s.W c i).extractLsb' (8 * j) 8) ∧
        (∀ a, a < p.args.a0.toNat ∨ p.args.a0.toNat + n ≤ a → Memory.read t.mem a = Memory.read s.mem a))

/-! ### Invariants and whole-machine rules -/

/-- Every step keeps the invariant of the machine: MEM canonical, BUSY exactly while a command is pending (R29), CAUSE 0
exactly without a fault (R27), FAILED never produced (R221), every valid Configuration slot what a CONFIGURE wrote up to
its table address (R22), and every VALUE within `W` bits (R23). -/
def Obligations.StepKeepsTheInvariant : Prop := ∀ s t : State, s.Inv → step s = .next t → t.Inv

/-- The invariant holds right after reset, for every instance and every canonical contents of MEM. -/
def Obligations.ResetMeetsTheInvariant : Prop :=
  State.reset.Inv ∧ ∀ (ps : Config.Params) (ncfg nst : Nat) (m : Memory), Memory.inv m →
    (State.resetOf ps ncfg nst m).Inv

/-- No step changes the parameters of the instance: `W`, REG_BASE, MemAdmit, NCFG and NST (R7). That
the state carries them is the model's choice (log entry 1). -/
def Obligations.InstanceNeverChanges : Prop :=
  ∀ s t : State, step s = .next t → t.params = s.params ∧ t.ncfg = s.ncfg ∧ t.nst = s.nst

/-- Every command in flight completes: it answers a next state with PENDING none and BUSY 0 (R190, R191). -/
def Obligations.EveryCommandCompletes : Prop :=
  ∀ (i : Instr) (s : State) (p : Pending), s.pending = some p →
    ∃ t, exec i s = .next t ∧ t.pending = none ∧ t.status.busy = false

/-- STATUS.FAULT is sticky and CAUSE keeps the first cause: no step but block reset changes them once FAULT is 1 (R224,
R226, R261). -/
def Obligations.FaultIsSticky : Prop :=
  ∀ s t : State, step s = .next t → s.status.fault = true → (∀ rest, s.turns ≠ .blockReset :: rest) →
    t.status.fault = true ∧ t.status.cause = s.status.cause

/-- While a fault stands and no command is in flight, no step but block reset starts one or changes a slot, RESULT or
STATUS (R190, R226). -/
def Obligations.FaultedBlockRunsNoCommand : Prop :=
  ∀ s t : State, step s = .next t → s.status.fault = true → s.pending = none → s.status.busy = false →
    (∀ rest, s.turns ≠ .blockReset :: rest) →
    t.pending = none ∧ t.cfg = s.cfg ∧ t.st = s.st ∧ t.result = s.result ∧ t.status = s.status

/-- A State slot's PHASE changes only by the events of R24's table. -/
def Obligations.PhaseChangesOnlyAsTabled : Prop :=
  ∀ s t : State, step s = .next t → ∀ (j : Nat) (x y : StSlot), s.st[j]? = some x → t.st[j]? = some y →
    y.phase = x.phase ∨
    ((∃ rest, s.turns = .blockReset :: rest) ∧ y.phase = .uninit) ∨
    (∃ p ci, s.pending = some p ∧ decode p.word = .ok (.reset ci j) ∧ t.status.code = .success ∧ y.phase = .fresh) ∨
    (∃ p ci, s.pending = some p ∧ decode p.word = .ok (.process ci j) ∧ t.status.code = .success ∧
      (x.phase = .fresh ∨ x.phase = .accum) ∧ y.phase = .accum) ∨
    (∃ p ci, s.pending = some p ∧ decode p.word = .ok (.finalize ci j) ∧ t.status.code = .success ∧
      (x.phase = .fresh ∨ x.phase = .accum) ∧ y.phase = .final)

/-- A Configuration slot changes only by block reset, by a CONFIGURE of that slot, or by a BUILD_TABLE of that slot,
which changes only its TABLE (R22, R113, R136). -/
def Obligations.ConfigurationsChangeOnlyAsAllowed : Prop :=
  ∀ s t : State, step s = .next t → ∀ (k : Nat) (c d : CfgSlot), s.cfg[k]? = some c → t.cfg[k]? = some d →
    d = c ∨
    ((∃ rest, s.turns = .blockReset :: rest) ∧ d = CfgSlot.reset) ∨
    (∃ p, s.pending = some p ∧ decode p.word = .ok (.configure k)) ∨
    (∃ p, s.pending = some p ∧ decode p.word = .ok (.buildTable k) ∧ d = { c with table := p.args.a0 })

/-- A MEM byte changes only by a host's MEMWR of it, or by a pending BUILD_TABLE whose table covers it (R51, R68). That
no host register write changes one is the model's choice where the platform maps both (R59, log entry 25). -/
def Obligations.MemoryChangesOnlyAsAllowed : Prop :=
  ∀ s t : State, step s = .next t → ∀ a : Nat,
    Memory.read t.mem a = Memory.read s.mem a ∨
    (∃ b bs rest, s.lines = .memWr b bs :: rest ∧ b ≤ a ∧ a < b + bs.length) ∨
    (∃ p ci c, s.pending = some p ∧ decode p.word = .ok (.buildTable ci) ∧ s.cfg[ci]? = some c ∧
      p.args.a0.toNat ≤ a ∧ a < p.args.a0.toNat + tableSize c.deg.toNat)

/-- The block never accesses MEM address 0 (R52): no pending command reads or writes it. -/
def Obligations.NullAddressIsNeverAccessed : Prop := ∀ s : State, 0 ∉ pendingReads s ∧ 0 ∉ pendingWrites s

/-! ### The frame of a command -/

/-- Frame of all six commands, the registers: a command leaves the instance, ARG, the host's fields, every Configuration
slot it does not write, every State slot it does not name, and, but for SIZEOF_TABLE, RESULT. BUILD_TABLE leaves every
field of its slot but TABLE (R25, R26, R31, R136, R204). -/
def Obligations.CommandsFrameRegisters : Prop :=
  ∀ (i : Instr) (s t : State), exec i s = .next t →
    t.params = s.params ∧ t.args = s.args ∧ t.lines = s.lines ∧ t.turns = s.turns ∧ t.reads = s.reads ∧
    (i ≠ .sizeofTable → t.result = s.result) ∧
    (∀ k, i ≠ .configure k → i ≠ .buildTable k → t.cfg[k]? = s.cfg[k]?) ∧
    (∀ j, (∀ ci, i ≠ .reset ci j ∧ i ≠ .process ci j ∧ i ≠ .finalize ci j) → t.st[j]? = s.st[j]?) ∧
    (∀ (k : Nat) (c : CfgSlot), i = .buildTable k → s.cfg[k]? = some c →
      ∃ d, t.cfg[k]? = some d ∧ { d with table := c.table } = c)

/-- Frame of all six commands, MEM: only BUILD_TABLE stores, and only to the `TBLSIZE(DEG)` bytes of its table operand
(R51, R135). -/
def Obligations.CommandsFrameMemory : Prop :=
  ∀ (i : Instr) (s t : State) (p : Pending), s.pending = some p → exec i s = .next t → ∀ a : Nat,
    (∀ (ci : Nat) (c : CfgSlot), i = .buildTable ci → s.cfg[ci]? = some c →
      a < p.args.a0.toNat ∨ p.args.a0.toNat + tableSize c.deg.toNat ≤ a) →
    Memory.read t.mem a = Memory.read s.mem a

/-- Frame of all six commands, the status: a command ends by SUCCESS or INVALID_PARAM and leaves FAULT and CAUSE, or it
raises a fault and leaves CODE; none of the six ends with FAILED or NOT_SUPPORTED (R220, R221, R224). -/
def Obligations.CommandsFrameStatus : Prop :=
  ∀ (i : Instr) (s t : State), exec i s = .next t →
    t.pending = none ∧ t.status.busy = false ∧
    (((t.status.code = .success ∨ t.status.code = .invalidParam) ∧ t.status.fault = s.status.fault ∧
        t.status.cause = s.status.cause) ∨
      (t.status.code = s.status.code ∧ t.status.fault = true ∧
        (s.status.fault = true → t.status.cause = s.status.cause)))

/-! ### Rejections and faults -/

/-- A command that completes with INVALID_PARAM changes nothing but CODE, BUSY and PENDING, and makes no MEM access
(R222, R223). -/
def Obligations.InvalidParamChangesNothing : Prop :=
  ∀ (i : Instr) (s : State) (p : Pending), s.pending = some p → invalidCase i p.args s →
    exec i s = .next { s with pending := none, status := { s.status with code := .invalidParam, busy := false } } ∧
    (decode p.word = .ok i → pendingReads s = [] ∧ pendingWrites s = [])

/-- INVALID_PARAM is produced exactly by the conditions of R222. A command that faults leaves CODE and an earlier FAULT as
they were, so its outcome is told apart by a CODE that was not INVALID_PARAM, or by a FAULT that was 0. -/
def Obligations.InvalidParamExactly : Prop :=
  ∀ (i : Instr) (s t : State) (p : Pending), s.pending = some p → exec i s = .next t →
    (s.status.code ≠ .invalidParam → (t.status.code = .invalidParam ↔ invalidCase i p.args s)) ∧
    (s.status.fault = false →
      ((t.status.code = .invalidParam ∧ t.status.fault = false) ↔ invalidCase i p.args s))

/-- A broken contract raises its cause before any state change or MEM access: FAULT is set, the first cause is kept,
CODE is not written, and the command is retired (R224, R225, R227, R228). -/
def Obligations.ContractFaultsAreTaken : Prop :=
  ∀ (i : Instr) (s : State) (p : Pending) (cause : Cause), s.pending = some p → contractCause i s cause →
    exec i s = .next
      { s with
        pending := none
        status := { code := s.status.code, busy := false, fault := true
                    cause := if s.status.fault then s.status.cause else cause } } ∧
    (decode p.word = .ok i → pendingReads s = [] ∧ pendingWrites s = [])

/-! ### CONFIGURE -/

/-- A CONFIGURE that a condition of R109 rejects completes with INVALID_PARAM and changes nothing else; any other writes
the whole slot by R103 to R107 and succeeds (R108). -/
def Obligations.ConfigureWritesTheSlot : Prop :=
  ∀ (s : State) (p : Pending) (ci : Nat), s.pending = some p →
    (invalidCase (.configure ci) p.args s → exec (.configure ci) s = .next
      { s with pending := none, status := { s.status with code := .invalidParam, busy := false } }) ∧
    (¬ invalidCase (.configure ci) p.args s → exec (.configure ci) s = .next
      { s with
        pending := none
        status := { s.status with code := .success, busy := false }
        cfg := s.cfg.set ci
          (let d := bitlen p.args.a0
           let Pf := trunc d ((p.args.a0 <<< 1) ||| 1) <<< (s.W - d)
           let Xf := p.args.a1 <<< (s.W - d)
           let ox := p.args.a2
           { valid := true
             deg := BitVec.ofNat 7 d
             inOrder := if p.args.a4 = 0 then .msb else .lsb
             outOrder := if p.args.a5 = 0 then .msb else .lsb
             poly := if p.args.a4 = 0 then Pf else mirror s.W Pf
             ixor := if p.args.a4 = 0 then Xf else mirror s.W Xf
             oxor :=
               if p.args.a4 = 0 then (if p.args.a5 = 0 then ox <<< (s.W - d) else mirror s.W ox)
               else (if p.args.a5 = 0 then mirror s.W (ox <<< (s.W - d)) else ox)
             table := p.args.a3 }) })

/-- The shape of a configured slot's POLY, IXOR and OXOR in the register (R111). -/
def Obligations.CanonicalFormsSitInTheirBits : Prop :=
  ∀ (w : Width) (c : CfgSlot), c.configured w →
    (c.inOrder = .msb →
      c.poly.getLsbD (w.bits - c.deg.toNat) = true ∧ c.poly.toNat % 2 ^ (w.bits - c.deg.toNat) = 0 ∧
      c.ixor.toNat % 2 ^ (w.bits - c.deg.toNat) = 0 ∧ c.oxor.toNat % 2 ^ (w.bits - c.deg.toNat) = 0 ∧
      c.poly.toNat < 2 ^ w.bits ∧ c.ixor.toNat < 2 ^ w.bits ∧ c.oxor.toNat < 2 ^ w.bits ∧
      c.poly.ctz.toNat = w.bits - c.deg.toNat) ∧
    (c.inOrder = .lsb →
      c.poly.getLsbD (c.deg.toNat - 1) = true ∧ c.poly.toNat < 2 ^ c.deg.toNat ∧
      c.ixor.toNat < 2 ^ c.deg.toNat ∧ c.oxor.toNat < 2 ^ c.deg.toNat ∧ bitlen c.poly = c.deg.toNat)

/-- The degree is recovered from a configured slot: `W - ctz(POLY)` for MSB input, `bitlen(POLY)` for LSB input (R112). -/
def Obligations.DegreeIsRecoverable : Prop :=
  ∀ (w : Width) (c : CfgSlot), c.configured w →
    1 ≤ c.deg.toNat ∧ c.deg.toNat ≤ w.bits ∧
    (c.inOrder = .msb → c.deg.toNat = w.bits - c.poly.ctz.toNat) ∧
    (c.inOrder = .lsb → c.deg.toNat = bitlen c.poly)

/-- FINALIZE's correction maps `VALUE xor OXOR` to `correct(VALUE) xor outputXOR`, in every order pair (R107). -/
def Obligations.OutputMaskAppliesInOutputOrientation : Prop :=
  ∀ (w : Width) (a : Args) (io oo : BitOrder) (v : Word), configChecks w a = true →
    correct w.bits (configSlot w.bits a.a0 a.a1 a.a2 a.a3 io oo) (v ^^^ canonOxor w.bits (bitlen a.a0) io oo a.a2) =
      correct w.bits (configSlot w.bits a.a0 a.a1 a.a2 a.a3 io oo) v ^^^ a.a2

/-! ### The Bit-Mirror unit -/

/-- `Mirror64` moves bit `i` to bit `63 - i`, `mirror_W` bit `i` to bit `W - 1 - i`, and `mirror_W` undoes itself (R100,
R101). -/
def Obligations.MirrorReversesBits : Prop :=
  (∀ (v : Word) (i : Nat), i < 64 → (mirror64 v).getLsbD (63 - i) = v.getLsbD i) ∧
  (∀ (w : Width) (v : Word), mirror w.bits v = mirror64 v >>> (64 - w.bits)) ∧
  (∀ (w : Width) (v : Word) (i : Nat), i < w.bits → (mirror w.bits v).getLsbD (w.bits - 1 - i) = v.getLsbD i) ∧
  (∀ (w : Width) (v : Word), v.toNat < 2 ^ w.bits → mirror w.bits (mirror w.bits v) = v)

/-! ### SIZEOF_TABLE and BUILD_TABLE -/

/-- SIZEOF_TABLE always succeeds and writes RESULT by the thresholds of R130 (R131). -/
def Obligations.SizeofTableGivesTheTableSize : Prop :=
  ∀ (s : State) (p : Pending), s.pending = some p →
    exec .sizeofTable s = .next
      { s with
        pending := none
        status := { s.status with code := .success, busy := false }
        result :=
          if bitlen p.args.a0 ≤ 8 then 256
          else if bitlen p.args.a0 ≤ 16 then 512
          else if bitlen p.args.a0 ≤ 32 then 1024
          else 2048 }

/-- The entry width and the table size by degree, and that an entry of a configured slot fits the register (R130). -/
def Obligations.EntryWidthsFollowTheDegree : Prop :=
  (∀ d, d ≤ 8 → entryBytes d = 1 ∧ tableSize d = 256) ∧
  (∀ d, 9 ≤ d → d ≤ 16 → entryBytes d = 2 ∧ tableSize d = 512) ∧
  (∀ d, 17 ≤ d → d ≤ 32 → entryBytes d = 4 ∧ tableSize d = 1024) ∧
  (∀ d, 33 ≤ d → d ≤ 64 → entryBytes d = 8 ∧ tableSize d = 2048) ∧
  (∀ (w : Width) (c : CfgSlot), c.configured w → 8 * entryBytes c.deg.toNat ≤ w.bits)

/-- A BUILD_TABLE that passes its checks on a table whose bytes are all admitted stores `Entry(c, i)` little-endian at
`t + i*e` for all 256 entries, stores nothing else, attaches the table and succeeds (R132, R135, R136). -/
def Obligations.BuildTableFillsAndAttaches : Prop :=
  ∀ (s : State) (p : Pending) (ci : Nat) (c : CfgSlot), s.pending = some p → s.cfg[ci]? = some c → c.valid = true →
    ¬ invalidCase (.buildTable ci) p.args s → Memory.wf s.mem →
    rangeAdmitted s.params .write p.args.a0.toNat (tableSize c.deg.toNat) →
    ∃ m : Memory,
      exec (.buildTable ci) s = .next
        { s with
          pending := none
          status := { s.status with code := .success, busy := false }
          mem := m
          cfg := s.cfg.set ci { c with table := p.args.a0 } } ∧
      (∀ i < 256, ∀ j < entryBytes c.deg.toNat,
        Memory.read m (p.args.a0.toNat + i * entryBytes c.deg.toNat + j) =
          (entry s.W c i).extractLsb' (8 * j) 8) ∧
      (∀ a, a < p.args.a0.toNat ∨ p.args.a0.toNat + tableSize c.deg.toNat ≤ a →
        Memory.read m a = Memory.read s.mem a)

/-- A BUILD_TABLE whose first byte that is not admitted is byte `n` of its table raises BUS there: the bytes before it
are written, no later byte is, and the table is not attached (R56, R135, R227). -/
def Obligations.BuildTableBusFaultKeepsTheBytesBefore : Prop :=
  ∀ (s : State) (p : Pending) (ci : Nat) (c : CfgSlot) (n : Nat), s.pending = some p → s.cfg[ci]? = some c →
    c.valid = true → ¬ invalidCase (.buildTable ci) p.args s → Memory.wf s.mem → n < tableSize c.deg.toNat →
    rangeAdmitted s.params .write p.args.a0.toNat n → memAdmit s.params .write (p.args.a0.toNat + n) = false →
    ∃ m : Memory,
      exec (.buildTable ci) s = .next
        { s with
          pending := none
          status := { code := s.status.code, busy := false, fault := true
                      cause := if s.status.fault then s.status.cause else .bus }
          mem := m } ∧
      (∀ i < 256, ∀ j < entryBytes c.deg.toNat, i * entryBytes c.deg.toNat + j < n →
        Memory.read m (p.args.a0.toNat + i * entryBytes c.deg.toNat + j) =
          (entry s.W c i).extractLsb' (8 * j) 8) ∧
      (∀ a, a < p.args.a0.toNat ∨ p.args.a0.toNat + n ≤ a → Memory.read m a = Memory.read s.mem a)

/-! ### The kernels -/

/-- The bit-wise kernel keeps the low `W - d` bits 0 (MSB), or the register below `2^d` (LSB) (R158). -/
def Obligations.KernelKeepsThePadding : Prop :=
  ∀ (w : Width) (c : CfgSlot) (r : Word) (S : List Bool), c.configured w → r.toNat < 2 ^ w.bits →
    (c.inOrder = .msb → r.toNat % 2 ^ (w.bits - c.deg.toNat) = 0 →
      (bitKernel w.bits c r S).toNat % 2 ^ (w.bits - c.deg.toNat) = 0) ∧
    (c.inOrder = .lsb → r.toNat < 2 ^ c.deg.toNat → (bitKernel w.bits c r S).toNat < 2 ^ c.deg.toNat)

/-- The bit-wise kernel is the textbook degree-`d` register, left-aligned for MSB input and reflected for LSB input
(R159). -/
def Obligations.KernelIsTheTextbookRegister : Prop :=
  ∀ (w : Width) (a : Args) (io oo : BitOrder) (t r : Word) (S : List Bool), configChecks w a = true →
    r.toNat < 2 ^ w.bits →
    (io = .msb → r.toNat % 2 ^ (w.bits - bitlen a.a0) = 0 →
      bitKernel w.bits (configSlot w.bits a.a0 a.a1 a.a2 t io oo) r S =
        normalRegister (bitlen a.a0) (normalForm (bitlen a.a0) a.a0) (r >>> (w.bits - bitlen a.a0)) S <<<
          (w.bits - bitlen a.a0)) ∧
    (io = .lsb → r.toNat < 2 ^ bitlen a.a0 →
      bitKernel w.bits (configSlot w.bits a.a0 a.a1 a.a2 t io oo) r S =
        mirror (bitlen a.a0)
          (normalRegister (bitlen a.a0) (normalForm (bitlen a.a0) a.a0) (mirror (bitlen a.a0) r) S))

/-- With the table BUILD_TABLE writes, one LUT step is the bit-wise kernel over the byte's eight bits, and a LUT run over
admitted message bytes is the kernel over their bits (R174). -/
def Obligations.LutKernelIsTheBitKernel : Prop :=
  ∀ (ps : Config.Params) (m : Memory) (c : CfgSlot) (r : Word), c.configured ps.width → holdsTable ps m c →
    r.toNat < 2 ^ ps.width.bits →
    (∀ v : Byte, lutStep ps m c r v = some (bitKernel ps.width.bits c r (bitsOf c.inOrder v 0 8))) ∧
    (∀ b n : Nat, rangeAdmitted ps .read b n →
      lutKernel ps m c n b r = some (bitKernel ps.width.bits c r (messageBits m c.inOrder b 0 (8 * n))))

/-- Table-assisted and bit-wise processing agree for every offset, every length and every `W`-bit register, also in
whether a message byte faults (R197). -/
def Obligations.TableAssistedEqualsBitwise : Prop :=
  ∀ (ps : Config.Params) (m : Memory) (c : CfgSlot) (r : Word) (b o L : Nat), c.configured ps.width →
    holdsTable ps m c → r.toNat < 2 ^ ps.width.bits → o < 8 → procLut ps m c r b o L = procBit ps m c r b o L

/-! ### RESET, PROCESS, FINALIZE -/

/-- RESET rejects absent slots, faults on an unconfigured slot, and otherwise sets VALUE to IXOR and PHASE to FRESH, from
every phase (R193). -/
def Obligations.ResetStartsAChecksum : Prop :=
  ∀ (s : State) (p : Pending) (ci si : Nat), s.pending = some p →
    ((s.ncfg ≤ ci ∨ s.nst ≤ si) → exec (.reset ci si) s =
      .next { s with pending := none, status := { s.status with code := .invalidParam, busy := false } }) ∧
    (∀ (c : CfgSlot) (x : StSlot), s.cfg[ci]? = some c → s.st[si]? = some x → c.valid = false → exec (.reset ci si) s =
      .next { s with
        pending := none
        status := { code := s.status.code, busy := false, fault := true
                    cause := if s.status.fault then s.status.cause else .unconfigured } }) ∧
    (∀ (c : CfgSlot) (x : StSlot), s.cfg[ci]? = some c → s.st[si]? = some x → c.valid = true → exec (.reset ci si) s =
      .next { s with
        pending := none
        status := { s.status with code := .success, busy := false }
        st := s.st.set si { value := c.ixor, phase := .fresh } })

/-- PROCESS with no table attached, on admitted bytes, sets VALUE to the bit-wise kernel over the message bits and PHASE
to ACCUM (R154, R194, R195). -/
def Obligations.ProcessRunsTheBitwiseKernel : Prop :=
  ∀ (s : State) (p : Pending) (ci si : Nat) (c : CfgSlot) (x : StSlot), s.pending = some p → s.cfg[ci]? = some c →
    s.st[si]? = some x → c.valid = true → (x.phase = .fresh ∨ x.phase = .accum) →
    ¬ invalidCase (.process ci si) p.args s → c.table = 0 →
    rangeAdmitted s.params .read p.args.a0.toNat (bytesTouched p.args.a1.toNat p.args.a2.toNat) →
    exec (.process ci si) s = .next
      { s with
        pending := none
        status := { s.status with code := .success, busy := false }
        st := s.st.set si
          { value := bitKernel s.W c x.value
              (messageBits s.mem c.inOrder p.args.a0.toNat p.args.a1.toNat p.args.a2.toNat)
            phase := .accum } }

/-- PROCESS with the slot's own table attached, on admitted bytes, gives the same VALUE and PHASE (R194, R196, R197). -/
def Obligations.ProcessRunsTheTableKernel : Prop :=
  ∀ (s : State) (p : Pending) (ci si : Nat) (c : CfgSlot) (x : StSlot), s.pending = some p → s.cfg[ci]? = some c →
    s.st[si]? = some x → c.valid = true → (x.phase = .fresh ∨ x.phase = .accum) →
    ¬ invalidCase (.process ci si) p.args s → c.table ≠ 0 → c.configured s.params.width →
    holdsTable s.params s.mem c → x.value.toNat < 2 ^ s.W →
    rangeAdmitted s.params .read p.args.a0.toNat (bytesTouched p.args.a1.toNat p.args.a2.toNat) →
    exec (.process ci si) s = .next
      { s with
        pending := none
        status := { s.status with code := .success, busy := false }
        st := s.st.set si
          { value := bitKernel s.W c x.value
              (messageBits s.mem c.inOrder p.args.a0.toNat p.args.a1.toNat p.args.a2.toNat)
            phase := .accum } }

/-- PROCESS with a table attached, whatever the table's bytes hold: on admitted message bytes, and when every entry it
reaches can be read, VALUE is the register of R196 over the entries as MEM holds them, with any leading and trailing
piece and any number of whole bytes, and PHASE is ACCUM (R170 to R173, R175, R196). -/
def Obligations.ProcessTakesTheTableAsItIs : Prop :=
  ∀ (s : State) (p : Pending) (ci si : Nat) (c : CfgSlot) (x : StSlot) (T : Nat → Option Word) (r : Word),
    s.pending = some p → s.cfg[ci]? = some c → s.st[si]? = some x → c.valid = true →
    (x.phase = .fresh ∨ x.phase = .accum) → ¬ invalidCase (.process ci si) p.args s → c.table ≠ 0 →
    rangeAdmitted s.params .read p.args.a0.toNat (bytesTouched p.args.a1.toNat p.args.a2.toNat) →
    tableReads s.params s.mem c T →
    tableRange s.W c s.mem T x.value p.args.a0.toNat p.args.a1.toNat p.args.a2.toNat = some r →
    exec (.process ci si) s = .next
      { s with
        pending := none
        status := { s.status with code := .success, busy := false }
        st := s.st.set si { value := r, phase := .accum } }

/-- PROCESS raises BUS when its range has a message byte that is not admitted, whatever table is attached, and when all
its message bytes are admitted but it reaches a table entry with a byte that is not: VALUE becomes some `W`-bit value,
PHASE and MEM stay, CODE is not written (R56, R170, R225, R227). Which value it is, no statement says: it is the model's
free value (log entry 5). -/
def Obligations.ProcessBusFaultLeavesAnOpenValue : Prop :=
  ∀ (s : State) (p : Pending) (ci si : Nat) (c : CfgSlot) (x : StSlot), s.pending = some p → s.cfg[ci]? = some c →
    s.st[si]? = some x → c.valid = true → (x.phase = .fresh ∨ x.phase = .accum) →
    ¬ invalidCase (.process ci si) p.args s →
    ((∃ k < bytesTouched p.args.a1.toNat p.args.a2.toNat,
        memAdmit s.params .read (p.args.a0.toNat + k) = false) ∨
      (c.table ≠ 0 ∧ ∃ T, tableReads s.params s.mem c T ∧
        tableRange s.W c s.mem T x.value p.args.a0.toNat p.args.a1.toNat p.args.a2.toNat = none)) →
    ∃ v : Word, v.toNat < 2 ^ s.W ∧
      exec (.process ci si) s = .next
        { s with
          pending := none
          status := { code := s.status.code, busy := false, fault := true
                      cause := if s.status.fault then s.status.cause else .bus }
          st := s.st.set si { value := v, phase := x.phase }
          draws := s.draws + 1 }

/-- PROCESS reads no MEM byte outside its footprint: with any other contents elsewhere it ends the same way, and every
byte of the footprint is admitted and is a byte of the message range or, with a table attached, a byte of the table (R51,
R68). -/
def Obligations.ProcessReadsOnlyItsFootprint : Prop :=
  ∀ (s : State) (p : Pending) (ci si : Nat), s.pending = some p → decode p.word = .ok (.process ci si) →
    (∀ a ∈ pendingReads s, memAdmit s.params .read a = true ∧
      ((p.args.a0.toNat ≤ a ∧ a < p.args.a0.toNat + bytesTouched p.args.a1.toNat p.args.a2.toNat) ∨
        ∃ c, s.cfg[ci]? = some c ∧ c.table ≠ 0 ∧ c.table.toNat ≤ a ∧
          a < c.table.toNat + tableSize c.deg.toNat)) ∧
    (∀ (t : State) (m : Memory), (∀ a ∈ pendingReads s, Memory.read m a = Memory.read s.mem a) →
      exec (.process ci si) s = .next t → exec (.process ci si) { s with mem := m } = .next { t with mem := m })

/-- FINALIZE rejects absent slots, faults on its contract, and otherwise writes the corrected checksum and PHASE FINAL
(R201). -/
def Obligations.FinalizeWritesTheChecksum : Prop :=
  ∀ (s : State) (p : Pending) (ci si : Nat), s.pending = some p →
    ((s.ncfg ≤ ci ∨ s.nst ≤ si) → exec (.finalize ci si) s =
      .next { s with pending := none, status := { s.status with code := .invalidParam, busy := false } }) ∧
    (∀ cause, contractCause (.finalize ci si) s cause → exec (.finalize ci si) s =
      .next { s with
        pending := none
        status := { code := s.status.code, busy := false, fault := true
                    cause := if s.status.fault then s.status.cause else cause } }) ∧
    (∀ (c : CfgSlot) (x : StSlot), s.cfg[ci]? = some c → s.st[si]? = some x → c.valid = true →
      (x.phase = .fresh ∨ x.phase = .accum) → exec (.finalize ci si) s =
        .next { s with
          pending := none
          status := { s.status with code := .success, busy := false }
          st := s.st.set si
            { value :=
                (let v := x.value ^^^ c.oxor
                 let v := if c.inOrder = c.outOrder then v else mirror s.W v
                 if c.outOrder = .msb then v >>> (s.W - c.deg.toNat) else v)
              phase := .final } })

/-- Commands on distinct State slots do not interact: changing the contents of a slot a command does not name changes
nothing else in its outcome, and no Configuration slot is written (R204). -/
def Obligations.DistinctStateSlotsDoNotInteract : Prop :=
  ∀ (i : Instr) (ci si j : Nat) (s t : State) (x : StSlot), j ≠ si →
    (i = .reset ci si ∨ i = .process ci si ∨ i = .finalize ci si) → exec i s = .next t →
    exec i (s.setSt j x) = .next (t.setSt j x) ∧ t.st[j]? = s.st[j]? ∧ t.cfg = s.cfg

/-! ### Streams of commands -/

/-- A run of PROCESS commands on one State slot under one Configuration slot leaves the bit-wise kernel over the joined
bit lists of the chunks, whatever their offsets and lengths (R199). -/
def Obligations.StreamingJoinsTheBitLists : Prop :=
  ∀ (s : State) (ci si : Nat) (c : CfgSlot) (x : StSlot) (chunks : List Args), s.turns = [] → ci < 256 → si < 256 →
    s.cfg[ci]? = some c → s.st[si]? = some x → c.valid = true → (x.phase = .fresh ∨ x.phase = .accum) →
    (c.table = 0 ∨ (c.configured s.params.width ∧ holdsTable s.params s.mem c ∧ x.value.toNat < 2 ^ s.W)) →
    (∀ a ∈ chunks, a.a0 ≠ 0 ∧ a.a1.toNat < 8 ∧ a.a0.toNat + bytesTouched a.a1.toNat a.a2.toNat ≤ 2 ^ 64 ∧
      rangeAdmitted s.params .read a.a0.toNat (bytesTouched a.a1.toNat a.a2.toNat)) →
    ∃ t y, runCommands (chunks.map fun a => (.process ci si, a)) s = .next t ∧ t.st[si]? = some y ∧
      y.value = bitKernel s.W c x.value
        (chunks.flatMap fun a => messageBits s.mem c.inOrder a.a0.toNat a.a1.toNat a.a2.toNat)

/-- The checksum of a message: RESET, PROCESS of its chunks and FINALIZE under one Configuration leave the closed form
of R202, below `2^d`, in the State slot, and end with SUCCESS and no fault beside one that stood before. The commands are
put in flight by `State.issued`, which host writes do when FAULT and BUSY are 0. -/
def Obligations.ChecksumHasTheClosedForm : Prop :=
  ∀ (s : State) (ci si : Nat) (a0 : Args) (io oo : BitOrder) (t0 : Word) (x : StSlot) (chunks : List Args),
    s.turns = [] → ci < 256 → si < 256 → configChecks s.params.width a0 = true →
    s.cfg[ci]? = some (configSlot s.W a0.a0 a0.a1 a0.a2 t0 io oo) → s.st[si]? = some x →
    (t0 = 0 ∨ (tableAligned s.params.width t0 = true ∧
      holdsTable s.params s.mem (configSlot s.W a0.a0 a0.a1 a0.a2 t0 io oo))) →
    (∀ a ∈ chunks, a.a0 ≠ 0 ∧ a.a1.toNat < 8 ∧ a.a0.toNat + bytesTouched a.a1.toNat a.a2.toNat ≤ 2 ^ 64 ∧
      rangeAdmitted s.params .read a.a0.toNat (bytesTouched a.a1.toNat a.a2.toNat)) →
    ∃ t y,
      runCommands ((.reset ci si, Args.reset) :: (chunks.map fun a => (.process ci si, a)) ++
        [(.finalize ci si, Args.reset)]) s = .next t ∧
      t.st[si]? = some y ∧ y.phase = .final ∧ t.status.code = .success ∧ t.status.fault = s.status.fault ∧
      y.value = checksum a0.a0 a0.a1 a0.a2 oo
        (chunks.flatMap fun a => messageBits s.mem io a.a0.toNat a.a1.toNat a.a2.toNat) ∧
      y.value.toNat < 2 ^ bitlen a0.a0

/-- The empty message: FINALIZE straight after RESET leaves `inputXOR`, reflected for LSB output, xor `outputXOR`
(R203, C6). -/
def Obligations.EmptyMessageChecksum : Prop :=
  ∀ (s : State) (ci si : Nat) (a0 : Args) (io oo : BitOrder) (t0 : Word) (x : StSlot),
    s.turns = [] → ci < 256 → si < 256 → configChecks s.params.width a0 = true →
    s.cfg[ci]? = some (configSlot s.W a0.a0 a0.a1 a0.a2 t0 io oo) → s.st[si]? = some x →
    ∃ t y,
      runCommands [(.reset ci si, Args.reset), (.finalize ci si, Args.reset)] s = .next t ∧
      t.st[si]? = some y ∧ y.phase = .final ∧
      y.value = (if oo = .lsb then mirror (bitlen a0.a0) a0.a1 else a0.a1) ^^^ a0.a2
end

