-- ==== Sys2Proof/Laws/Bits.lean ====
section
/-! SUPPORT. The laws of the bit primitives (R10, R100, R101) and of the bit-wise kernels (R151 to R153): each by its
bits, and with its bound. -/

namespace Sys2Proof

theorem Width.bits_le (w : Width) : w.bits ≤ 64 := by cases w <;> decide

theorem Width.bits_pos (w : Width) : 1 ≤ w.bits := by cases w <;> decide

theorem Width.eight_le_bits (w : Width) : 8 ≤ w.bits := by cases w <;> decide

theorem Width.bytes_eq (w : Width) : w.bytes = w.bits / 8 := by cases w <;> rfl

end Sys2Proof

namespace Sys2Proof.Machine

@[simp] theorem getLsbD_trunc (n : Nat) (v : Word) (i : Nat) :
    (trunc n v).getLsbD i = (decide (i < 64) && (decide (i < n) && v.getLsbD i)) := by
  unfold trunc
  simp [BitVec.getLsbD_setWidth]

/-- `trunc n` is the remainder by `2^n` (R10). -/
theorem trunc_toNat {n : Nat} (hn : n ≤ 64) (v : Word) : (trunc n v).toNat = v.toNat % 2 ^ n := by
  unfold trunc
  rw [BitVec.toNat_setWidth, BitVec.toNat_setWidth]
  exact Nat.mod_eq_of_lt (Nat.lt_of_lt_of_le (Nat.mod_lt _ (Nat.two_pow_pos n)) (Nat.pow_le_pow_right (by omega) hn))

/-- A word is below `2^n` exactly when it has no bit from `n` up. -/
theorem lt_two_pow_iff {n : Nat} (v : Word) : v.toNat < 2 ^ n ↔ ∀ i, n ≤ i → v.getLsbD i = false := by
  constructor
  · intro h i hi
    exact Nat.testBit_lt_two_pow (Nat.lt_of_lt_of_le h (Nat.pow_le_pow_right (by omega) hi))
  · intro h
    exact Nat.lt_pow_two_of_testBit _ fun i hi => h i hi

theorem trunc_lt (n : Nat) (v : Word) : (trunc n v).toNat < 2 ^ n :=
  (lt_two_pow_iff _).mpr fun i hi => by simp; omega

theorem xor_lt {n : Nat} {a b : Word} (ha : a.toNat < 2 ^ n) (hb : b.toNat < 2 ^ n) : (a ^^^ b).toNat < 2 ^ n := by
  rw [BitVec.toNat_xor]
  exact Nat.xor_lt_two_pow ha hb

theorem ushiftRight_lt {n : Nat} {a : Word} (ha : a.toNat < 2 ^ n) (k : Nat) : (a >>> k).toNat < 2 ^ n := by
  rw [BitVec.toNat_ushiftRight, Nat.shiftRight_eq_div_pow]
  exact Nat.lt_of_le_of_lt (Nat.div_le_self _ _) ha

/-- A left shift by `k` of a word below `2^n`. -/
theorem shiftLeft_lt {n k : Nat} {a : Word} (ha : a.toNat < 2 ^ n) : (a <<< k).toNat < 2 ^ (n + k) := by
  rw [BitVec.toNat_shiftLeft, Nat.shiftLeft_eq]
  refine Nat.lt_of_le_of_lt (Nat.mod_le _ _) ?_
  rw [Nat.pow_add]
  exact Nat.mul_lt_mul_of_pos_right ha (Nat.two_pow_pos k)

/-- A word of `n` bits shifted to the top of `m` bits. -/
theorem shiftLeft_top_lt {n m : Nat} {a : Word} (ha : a.toNat < 2 ^ n) (h : n ≤ m) :
    (a <<< (m - n)).toNat < 2 ^ m := by
  have := shiftLeft_lt (k := m - n) ha
  rwa [Nat.add_sub_cancel' h] at this

/-- The bits of `mirror_n(v)` (R101): bit `i` is bit `n - 1 - i` of `v`. -/
theorem getLsbD_mirror {n : Nat} (hn : n ≤ 64) (v : Word) (i : Nat) :
    (mirror n v).getLsbD i = (decide (i < n) && v.getLsbD (n - 1 - i)) := by
  unfold mirror mirror64
  rw [BitVec.getLsbD_ushiftRight, BitVec.getLsbD_reverse, BitVec.getMsbD_eq_getLsbD]
  by_cases hi : i < n
  · rw [show 64 - 1 - (64 - n + i) = n - 1 - i by omega]
    simp [hi]; omega
  · simp [hi]; omega

theorem mirror_lt {n : Nat} (hn : n ≤ 64) (v : Word) : (mirror n v).toNat < 2 ^ n :=
  (lt_two_pow_iff _).mpr fun i hi => by rw [getLsbD_mirror hn]; simp; omega

theorem bitlen_zero : bitlen 0 = 0 := rfl

/-- A word is below `2^bitlen` (R10). -/
theorem lt_two_pow_bitlen (v : Word) : v.toNat < 2 ^ bitlen v := by
  unfold bitlen
  split
  · simp_all
  · rename_i h
    have : v.toNat ≠ 0 := fun h0 => h (BitVec.eq_of_toNat_eq (by simpa using h0))
    exact Nat.lt_log2_self

/-- A nonzero word has bit `bitlen - 1` set (R10). -/
theorem getLsbD_bitlen_sub_one {v : Word} (h : v ≠ 0) : v.getLsbD (bitlen v - 1) = true := by
  have h0 : v.toNat ≠ 0 := fun h0 => h (BitVec.eq_of_toNat_eq (by simpa using h0))
  unfold bitlen
  rw [if_neg h, Nat.add_sub_cancel]
  exact Nat.testBit_log2 h0

theorem bitlen_pos {v : Word} (h : v ≠ 0) : 1 ≤ bitlen v := by
  unfold bitlen
  rw [if_neg h]
  omega

theorem bitlen_le (v : Word) : bitlen v ≤ 64 := by
  unfold bitlen
  split
  · omega
  · rename_i h
    have h0 : v.toNat ≠ 0 := fun h0 => h (BitVec.eq_of_toNat_eq (by simpa using h0))
    have := (Nat.log2_lt h0).mpr v.isLt
    omega

/-! ### The bit-wise kernels -/

theorem fwdBit_lt {w : Nat} {P : Word} (hP : P.toNat < 2 ^ w) (r : Word) (x : Bool) :
    (fwdBit w P r x).toNat < 2 ^ w := by
  unfold fwdBit
  split
  · exact xor_lt (trunc_lt w _) hP
  · exact trunc_lt w _

theorem revBit_lt {w : Nat} {P r : Word} (hP : P.toNat < 2 ^ w) (hr : r.toNat < 2 ^ w) (x : Bool) :
    (revBit P r x).toNat < 2 ^ w := by
  unfold revBit
  split
  · exact xor_lt (ushiftRight_lt hr 1) hP
  · exact ushiftRight_lt hr 1

@[simp] theorem bitKernel_nil (w : Nat) (c : CfgSlot) (r : Word) : bitKernel w c r [] = r := rfl

@[simp] theorem bitKernel_cons (w : Nat) (c : CfgSlot) (r : Word) (x : Bool) (s : List Bool) :
    bitKernel w c r (x :: s) = bitKernel w c (bitStep w c r x) s := rfl

/-- The kernel keeps the register within `W` bits. -/
theorem bitKernel_lt {w : Nat} {c : CfgSlot} {r : Word} (hP : c.poly.toNat < 2 ^ w) (hr : r.toNat < 2 ^ w)
    (s : List Bool) : (bitKernel w c r s).toNat < 2 ^ w := by
  induction s generalizing r with
  | nil => exact hr
  | cons x s ih =>
    refine ih ?_
    unfold bitStep
    split
    · exact fwdBit_lt hP r x
    · exact revBit_lt hP hr x

/-! ### Tables -/

theorem entryBytes_le (d : Nat) : entryBytes d ≤ 8 := by unfold entryBytes; split_ifs <;> omega

theorem entryBytes_pos (d : Nat) : 1 ≤ entryBytes d := by unfold entryBytes; split_ifs <;> omega

theorem length_bytesLE (n : Nat) (v : Word) : (bytesLE n v).length = n := by simp [bytesLE]

theorem cellsAt_map_fst (a : Nat) (bs : List Byte) : (cellsAt a bs).map Prod.fst = List.range' a bs.length := by
  induction bs generalizing a with
  | nil => rfl
  | cons b bs ih => simp [cellsAt, ih, List.range'_succ]

end Sys2Proof.Machine
end

