-- ==== Sys2Proof/Laws/State.lean ====
section
/-! SUPPORT. One lemma per field per update of the state, so that no later proof unfolds a record update. -/

namespace Sys2Proof.Machine

@[simp] theorem State.setCfg_params (s : State) (k : Nat) (c : CfgSlot) : (s.setCfg k c).params = s.params := rfl
@[simp] theorem State.setCfg_cfg (s : State) (k : Nat) (c : CfgSlot) : (s.setCfg k c).cfg = s.cfg.set k c := rfl
@[simp] theorem State.setCfg_st (s : State) (k : Nat) (c : CfgSlot) : (s.setCfg k c).st = s.st := rfl
@[simp] theorem State.setCfg_args (s : State) (k : Nat) (c : CfgSlot) : (s.setCfg k c).args = s.args := rfl
@[simp] theorem State.setCfg_result (s : State) (k : Nat) (c : CfgSlot) : (s.setCfg k c).result = s.result := rfl
@[simp] theorem State.setCfg_status (s : State) (k : Nat) (c : CfgSlot) : (s.setCfg k c).status = s.status := rfl
@[simp] theorem State.setCfg_pending (s : State) (k : Nat) (c : CfgSlot) : (s.setCfg k c).pending = s.pending := rfl
@[simp] theorem State.setCfg_mem (s : State) (k : Nat) (c : CfgSlot) : (s.setCfg k c).mem = s.mem := rfl
@[simp] theorem State.setCfg_lines (s : State) (k : Nat) (c : CfgSlot) : (s.setCfg k c).lines = s.lines := rfl
@[simp] theorem State.setCfg_turns (s : State) (k : Nat) (c : CfgSlot) : (s.setCfg k c).turns = s.turns := rfl
@[simp] theorem State.setCfg_reads (s : State) (k : Nat) (c : CfgSlot) : (s.setCfg k c).reads = s.reads := rfl
@[simp] theorem State.setCfg_draws (s : State) (k : Nat) (c : CfgSlot) : (s.setCfg k c).draws = s.draws := rfl

@[simp] theorem State.setSt_params (s : State) (j : Nat) (x : StSlot) : (s.setSt j x).params = s.params := rfl
@[simp] theorem State.setSt_cfg (s : State) (j : Nat) (x : StSlot) : (s.setSt j x).cfg = s.cfg := rfl
@[simp] theorem State.setSt_st (s : State) (j : Nat) (x : StSlot) : (s.setSt j x).st = s.st.set j x := rfl
@[simp] theorem State.setSt_args (s : State) (j : Nat) (x : StSlot) : (s.setSt j x).args = s.args := rfl
@[simp] theorem State.setSt_result (s : State) (j : Nat) (x : StSlot) : (s.setSt j x).result = s.result := rfl
@[simp] theorem State.setSt_status (s : State) (j : Nat) (x : StSlot) : (s.setSt j x).status = s.status := rfl
@[simp] theorem State.setSt_pending (s : State) (j : Nat) (x : StSlot) : (s.setSt j x).pending = s.pending := rfl
@[simp] theorem State.setSt_mem (s : State) (j : Nat) (x : StSlot) : (s.setSt j x).mem = s.mem := rfl
@[simp] theorem State.setSt_lines (s : State) (j : Nat) (x : StSlot) : (s.setSt j x).lines = s.lines := rfl
@[simp] theorem State.setSt_turns (s : State) (j : Nat) (x : StSlot) : (s.setSt j x).turns = s.turns := rfl
@[simp] theorem State.setSt_reads (s : State) (j : Nat) (x : StSlot) : (s.setSt j x).reads = s.reads := rfl
@[simp] theorem State.setSt_draws (s : State) (j : Nat) (x : StSlot) : (s.setSt j x).draws = s.draws := rfl

@[simp] theorem State.finish_params (s : State) (c : StatusCode) : (s.finish c).params = s.params := rfl
@[simp] theorem State.finish_cfg (s : State) (c : StatusCode) : (s.finish c).cfg = s.cfg := rfl
@[simp] theorem State.finish_st (s : State) (c : StatusCode) : (s.finish c).st = s.st := rfl
@[simp] theorem State.finish_args (s : State) (c : StatusCode) : (s.finish c).args = s.args := rfl
@[simp] theorem State.finish_result (s : State) (c : StatusCode) : (s.finish c).result = s.result := rfl
@[simp] theorem State.finish_status (s : State) (c : StatusCode) : (s.finish c).status = { s.status with code := c } := rfl
@[simp] theorem State.finish_pending (s : State) (c : StatusCode) : (s.finish c).pending = s.pending := rfl
@[simp] theorem State.finish_mem (s : State) (c : StatusCode) : (s.finish c).mem = s.mem := rfl
@[simp] theorem State.finish_lines (s : State) (c : StatusCode) : (s.finish c).lines = s.lines := rfl
@[simp] theorem State.finish_turns (s : State) (c : StatusCode) : (s.finish c).turns = s.turns := rfl
@[simp] theorem State.finish_reads (s : State) (c : StatusCode) : (s.finish c).reads = s.reads := rfl
@[simp] theorem State.finish_draws (s : State) (c : StatusCode) : (s.finish c).draws = s.draws := rfl

@[simp] theorem State.retire_params (s : State) : (s.retire).params = s.params := rfl
@[simp] theorem State.retire_cfg (s : State) : (s.retire).cfg = s.cfg := rfl
@[simp] theorem State.retire_st (s : State) : (s.retire).st = s.st := rfl
@[simp] theorem State.retire_args (s : State) : (s.retire).args = s.args := rfl
@[simp] theorem State.retire_result (s : State) : (s.retire).result = s.result := rfl
@[simp] theorem State.retire_status (s : State) : (s.retire).status = { s.status with busy := false } := rfl
@[simp] theorem State.retire_pending (s : State) : (s.retire).pending = none := rfl
@[simp] theorem State.retire_mem (s : State) : (s.retire).mem = s.mem := rfl
@[simp] theorem State.retire_lines (s : State) : (s.retire).lines = s.lines := rfl
@[simp] theorem State.retire_turns (s : State) : (s.retire).turns = s.turns := rfl
@[simp] theorem State.retire_reads (s : State) : (s.retire).reads = s.reads := rfl
@[simp] theorem State.retire_draws (s : State) : (s.retire).draws = s.draws := rfl

@[simp] theorem State.clearBlock_params (s : State) : (s.clearBlock).params = s.params := rfl
@[simp] theorem State.clearBlock_cfg (s : State) : (s.clearBlock).cfg = List.replicate s.cfg.length CfgSlot.reset := rfl
@[simp] theorem State.clearBlock_st (s : State) : (s.clearBlock).st = List.replicate s.st.length StSlot.reset := rfl
@[simp] theorem State.clearBlock_args (s : State) : (s.clearBlock).args = Args.reset := rfl
@[simp] theorem State.clearBlock_result (s : State) : (s.clearBlock).result = 0 := rfl
@[simp] theorem State.clearBlock_status (s : State) : (s.clearBlock).status = Status.reset := rfl
@[simp] theorem State.clearBlock_pending (s : State) : (s.clearBlock).pending = none := rfl
@[simp] theorem State.clearBlock_mem (s : State) : (s.clearBlock).mem = s.mem := rfl
@[simp] theorem State.clearBlock_lines (s : State) : (s.clearBlock).lines = s.lines := rfl
@[simp] theorem State.clearBlock_turns (s : State) : (s.clearBlock).turns = s.turns := rfl
@[simp] theorem State.clearBlock_reads (s : State) : (s.clearBlock).reads = s.reads := rfl
@[simp] theorem State.clearBlock_draws (s : State) : (s.clearBlock).draws = s.draws := rfl

@[simp] theorem State.drawWord_params (s : State) : (s.drawWord.2).params = s.params := rfl
@[simp] theorem State.drawWord_cfg (s : State) : (s.drawWord.2).cfg = s.cfg := rfl
@[simp] theorem State.drawWord_st (s : State) : (s.drawWord.2).st = s.st := rfl
@[simp] theorem State.drawWord_args (s : State) : (s.drawWord.2).args = s.args := rfl
@[simp] theorem State.drawWord_result (s : State) : (s.drawWord.2).result = s.result := rfl
@[simp] theorem State.drawWord_status (s : State) : (s.drawWord.2).status = s.status := rfl
@[simp] theorem State.drawWord_pending (s : State) : (s.drawWord.2).pending = s.pending := rfl
@[simp] theorem State.drawWord_mem (s : State) : (s.drawWord.2).mem = s.mem := rfl
@[simp] theorem State.drawWord_lines (s : State) : (s.drawWord.2).lines = s.lines := rfl
@[simp] theorem State.drawWord_turns (s : State) : (s.drawWord.2).turns = s.turns := rfl
@[simp] theorem State.drawWord_reads (s : State) : (s.drawWord.2).reads = s.reads := rfl
@[simp] theorem State.drawWord_draws (s : State) : (s.drawWord.2).draws = s.draws + 1 := rfl

@[simp] theorem State.raise_params (s : State) (c : Cause) : (s.raise c).params = s.params := by
  unfold State.raise; split <;> rfl
@[simp] theorem State.raise_cfg (s : State) (c : Cause) : (s.raise c).cfg = s.cfg := by
  unfold State.raise; split <;> rfl
@[simp] theorem State.raise_st (s : State) (c : Cause) : (s.raise c).st = s.st := by
  unfold State.raise; split <;> rfl
@[simp] theorem State.raise_args (s : State) (c : Cause) : (s.raise c).args = s.args := by
  unfold State.raise; split <;> rfl
@[simp] theorem State.raise_result (s : State) (c : Cause) : (s.raise c).result = s.result := by
  unfold State.raise; split <;> rfl
@[simp] theorem State.raise_pending (s : State) (c : Cause) : (s.raise c).pending = s.pending := by
  unfold State.raise; split <;> rfl
@[simp] theorem State.raise_mem (s : State) (c : Cause) : (s.raise c).mem = s.mem := by
  unfold State.raise; split <;> rfl
@[simp] theorem State.raise_lines (s : State) (c : Cause) : (s.raise c).lines = s.lines := by
  unfold State.raise; split <;> rfl
@[simp] theorem State.raise_turns (s : State) (c : Cause) : (s.raise c).turns = s.turns := by
  unfold State.raise; split <;> rfl
@[simp] theorem State.raise_reads (s : State) (c : Cause) : (s.raise c).reads = s.reads := by
  unfold State.raise; split <;> rfl
@[simp] theorem State.raise_draws (s : State) (c : Cause) : (s.raise c).draws = s.draws := by
  unfold State.raise; split <;> rfl

@[simp] theorem State.issued_params (s : State) (i : Instr) (a : Args) : (s.issued i a).params = s.params := rfl
@[simp] theorem State.issued_cfg (s : State) (i : Instr) (a : Args) : (s.issued i a).cfg = s.cfg := rfl
@[simp] theorem State.issued_st (s : State) (i : Instr) (a : Args) : (s.issued i a).st = s.st := rfl
@[simp] theorem State.issued_args (s : State) (i : Instr) (a : Args) : (s.issued i a).args = a := rfl
@[simp] theorem State.issued_result (s : State) (i : Instr) (a : Args) : (s.issued i a).result = s.result := rfl
@[simp] theorem State.issued_status (s : State) (i : Instr) (a : Args) : (s.issued i a).status = { s.status with busy := true } := rfl
@[simp] theorem State.issued_pending (s : State) (i : Instr) (a : Args) : (s.issued i a).pending = some { word := encode i, args := a } := rfl
@[simp] theorem State.issued_mem (s : State) (i : Instr) (a : Args) : (s.issued i a).mem = s.mem := rfl
@[simp] theorem State.issued_lines (s : State) (i : Instr) (a : Args) : (s.issued i a).lines = s.lines := rfl
@[simp] theorem State.issued_turns (s : State) (i : Instr) (a : Args) : (s.issued i a).turns = s.turns := rfl
@[simp] theorem State.issued_reads (s : State) (i : Instr) (a : Args) : (s.issued i a).reads = s.reads := rfl
@[simp] theorem State.issued_draws (s : State) (i : Instr) (a : Args) : (s.issued i a).draws = s.draws := rfl

@[simp] theorem giveBack_params (s : State) (v : Word) : (giveBack v s).params = s.params := rfl
@[simp] theorem giveBack_cfg (s : State) (v : Word) : (giveBack v s).cfg = s.cfg := rfl
@[simp] theorem giveBack_st (s : State) (v : Word) : (giveBack v s).st = s.st := rfl
@[simp] theorem giveBack_args (s : State) (v : Word) : (giveBack v s).args = s.args := rfl
@[simp] theorem giveBack_result (s : State) (v : Word) : (giveBack v s).result = s.result := rfl
@[simp] theorem giveBack_status (s : State) (v : Word) : (giveBack v s).status = s.status := rfl
@[simp] theorem giveBack_pending (s : State) (v : Word) : (giveBack v s).pending = s.pending := rfl
@[simp] theorem giveBack_mem (s : State) (v : Word) : (giveBack v s).mem = s.mem := rfl
@[simp] theorem giveBack_lines (s : State) (v : Word) : (giveBack v s).lines = s.lines := rfl
@[simp] theorem giveBack_turns (s : State) (v : Word) : (giveBack v s).turns = s.turns := rfl
@[simp] theorem giveBack_reads (s : State) (v : Word) : (giveBack v s).reads = v :: s.reads := rfl
@[simp] theorem giveBack_draws (s : State) (v : Word) : (giveBack v s).draws = s.draws := rfl

@[simp] theorem State.raise_code (s : State) (c : Cause) : (s.raise c).status.code = s.status.code := by
  unfold State.raise; split <;> rfl
@[simp] theorem State.raise_busy (s : State) (c : Cause) : (s.raise c).status.busy = s.status.busy := by
  unfold State.raise; split <;> rfl
@[simp] theorem State.raise_fault (s : State) (c : Cause) : (s.raise c).status.fault = true := by
  unfold State.raise; split
  · assumption
  · rfl
@[simp] theorem State.raise_cause (s : State) (c : Cause) :
    (s.raise c).status.cause = if s.status.fault then s.status.cause else c := by
  unfold State.raise; split <;> simp_all

/-- Raising a fault and retiring the command, as one update of STATUS and PENDING (R190, R224). -/
theorem State.raise_retire (s : State) (c : Cause) :
    (s.raise c).retire = { s with pending := none, status := s.status.faulted c } := by
  unfold State.raise State.retire Status.faulted
  cases h : s.status.fault <;> simp [h]

/-- Finishing and retiring the command, as one update of STATUS and PENDING (R190, R220). -/
theorem State.finish_retire (s : State) (c : StatusCode) :
    (s.finish c).retire = { s with pending := none, status := s.status.finished c } := rfl

@[simp] theorem Status.finished_code (x : Status) (c : StatusCode) : (x.finished c).code = c := rfl
@[simp] theorem Status.finished_busy (x : Status) (c : StatusCode) : (x.finished c).busy = false := rfl
@[simp] theorem Status.finished_fault (x : Status) (c : StatusCode) : (x.finished c).fault = x.fault := rfl
@[simp] theorem Status.finished_cause (x : Status) (c : StatusCode) : (x.finished c).cause = x.cause := rfl
@[simp] theorem Status.faulted_code (x : Status) (c : Cause) : (x.faulted c).code = x.code := rfl
@[simp] theorem Status.faulted_busy (x : Status) (c : Cause) : (x.faulted c).busy = false := rfl
@[simp] theorem Status.faulted_fault (x : Status) (c : Cause) : (x.faulted c).fault = true := rfl
@[simp] theorem Status.faulted_cause (x : Status) (c : Cause) :
    (x.faulted c).cause = if x.fault then x.cause else c := rfl

end Sys2Proof.Machine
end

