-- ==== Sys2Proof/Laws/Exec.lean ====
section
/-! SUPPORT. What a completion can do: each meaning is the shared completion over the command's rule, each rule ends in
one of the listed ways, and `step` makes one of the listed moves. Provers cite these instead of unfolding the meanings. -/

namespace Sys2Proof.Machine

/-- The rule of each command. -/
def ruleOf : Instr → Args → State → State
  | .configure ci => configureRule ci
  | .buildTable ci => buildTableRule ci
  | .sizeofTable => sizeofTableRule
  | .reset ci si => resetRule ci si
  | .process ci si => processRule ci si
  | .finalize ci si => finalizeRule ci si

/-- Every meaning is a completion of the command's rule. -/
theorem exec_eq (i : Instr) (s : State) : exec i s = s.completing (ruleOf i) := by cases i <;> rfl

/-- A completion with a command in flight runs its rule on the captured operands and retires it (R190). -/
theorem State.completing_some {s : State} {p : Pending} (h : s.pending = some p) (rule : Args → State → State) :
    s.completing rule = .next (rule p.args s).retire := by
  unfold State.completing
  rw [h]

/-- The completion step is enabled exactly when a command is in flight (R190). -/
theorem State.completing_eq_next {s t : State} {rule : Args → State → State} :
    s.completing rule = .next t ↔ ∃ p, s.pending = some p ∧ t = (rule p.args s).retire := by
  unfold State.completing
  cases s.pending <;> simp [eq_comm]

/-- `exec` with a command in flight. -/
theorem exec_some {i : Instr} {s : State} {p : Pending} (h : s.pending = some p) :
    exec i s = .next (ruleOf i p.args s).retire := by
  rw [exec_eq, State.completing_some h]

/-- `exec` answers a next state exactly when a command is in flight, and then the rule's. -/
theorem exec_eq_next {i : Instr} {s t : State} :
    exec i s = .next t ↔ ∃ p, s.pending = some p ∧ t = (ruleOf i p.args s).retire := by
  rw [exec_eq, State.completing_eq_next]

/-! ### How each rule ends -/

/-- CONFIGURE writes the slot and succeeds, or is rejected (R108). -/
theorem configureRule_cases (ci : Nat) (a : Args) (s : State) :
    (∃ io oo, ci < s.ncfg ∧ configChecks s.params.width a = true ∧ orderOfOperand a.inputOrder = some io ∧
      orderOfOperand a.outputOrder = some oo ∧
      configureRule ci a s =
        (s.setCfg ci (configSlot s.W a.polynomial a.inputXor a.outputXor a.cfgTable io oo)).finish .success) ∨
    configureRule ci a s = s.finish .invalidParam := by
  unfold configureRule
  split
  · exact .inr rfl
  · split
    · split
      · rename_i h1 h2 _ _ io oo hi ho
        exact .inl ⟨io, oo, by omega, h2, hi, ho, rfl⟩
      · exact .inr rfl
    · exact .inr rfl

/-- BUILD_TABLE faults on an unconfigured slot, is rejected, or builds (R132). -/
theorem buildTableRule_cases (ci : Nat) (a : Args) (s : State) :
    (∃ c, s.cfg[ci]? = some c ∧ c.valid = false ∧ buildTableRule ci a s = s.raise .unconfigured) ∨
    (∃ c, s.cfg[ci]? = some c ∧ c.valid = true ∧ buildChecks s.params.width c a = true ∧
      buildTableRule ci a s = buildInto ci c a.buildTable s) ∨
    buildTableRule ci a s = s.finish .invalidParam := by
  unfold buildTableRule
  split
  · exact .inr (.inr rfl)
  · rename_i c hc
    split
    · exact .inl ⟨c, hc, ‹_›, rfl⟩
    · split
      · exact .inr (.inl ⟨c, hc, by simpa using ‹¬c.valid = false›, ‹_›, rfl⟩)
      · exact .inr (.inr rfl)

/-- What building does: all bytes written and the table attached, or `Fault(BUS)` (R135, R136, R227). -/
theorem buildInto_cases (ci : Nat) (c : CfgSlot) (t : Word) (s : State) :
    ((writeCells s.params s.mem (tableCells s.W c t.toNat)).2 = true ∧
      buildInto ci c t s =
        ({ s with mem := (writeCells s.params s.mem (tableCells s.W c t.toNat)).1 }.setCfg ci
          { c with table := t }).finish .success) ∨
    ((writeCells s.params s.mem (tableCells s.W c t.toNat)).2 = false ∧
      buildInto ci c t s =
        { s with mem := (writeCells s.params s.mem (tableCells s.W c t.toNat)).1 }.raise .bus) := by
  unfold buildInto
  cases h : (writeCells s.params s.mem (tableCells s.W c t.toNat)).2 <;> simp [h]

/-- RESET faults on an unconfigured slot, writes the State slot, or is rejected (R193). -/
theorem resetRule_cases (ci si : Nat) (a : Args) (s : State) :
    (∃ c x, s.cfg[ci]? = some c ∧ s.st[si]? = some x ∧ c.valid = false ∧
      resetRule ci si a s = s.raise .unconfigured) ∨
    (∃ c x, s.cfg[ci]? = some c ∧ s.st[si]? = some x ∧ c.valid = true ∧
      resetRule ci si a s = (s.setSt si { value := c.ixor, phase := .fresh }).finish .success) ∨
    ((s.cfg[ci]? = none ∨ s.st[si]? = none) ∧ resetRule ci si a s = s.finish .invalidParam) := by
  unfold resetRule
  cases hc : s.cfg[ci]? with
  | none => exact .inr (.inr ⟨.inl rfl, rfl⟩)
  | some c =>
    cases hx : s.st[si]? with
    | none => exact .inr (.inr ⟨.inr rfl, rfl⟩)
    | some x =>
      cases hv : c.valid
      · exact .inl ⟨c, x, rfl, rfl, hv, by simp [hv]⟩
      · exact .inr (.inl ⟨c, x, rfl, rfl, hv, by simp [hv]⟩)

/-- PROCESS faults on its contract, runs, or is rejected (R194). -/
theorem processRule_cases (ci si : Nat) (a : Args) (s : State) :
    (∃ c x cause, s.cfg[ci]? = some c ∧ s.st[si]? = some x ∧
      ((c.valid = false ∧ cause = .unconfigured) ∨ (c.valid = true ∧ phaseCause x.phase = some cause)) ∧
      processRule ci si a s = s.raise cause) ∨
    (∃ c x, s.cfg[ci]? = some c ∧ s.st[si]? = some x ∧ c.valid = true ∧ phaseCause x.phase = none ∧
      processChecks a = true ∧ processRule ci si a s = processInto si c x a s) ∨
    processRule ci si a s = s.finish .invalidParam := by
  unfold processRule
  cases hc : s.cfg[ci]? with
  | none => exact .inr (.inr rfl)
  | some c =>
    cases hx : s.st[si]? with
    | none => exact .inr (.inr rfl)
    | some x =>
      cases hv : c.valid
      · exact .inl ⟨c, x, .unconfigured, rfl, rfl, .inl ⟨hv, rfl⟩, by simp [hv]⟩
      · cases hp : phaseCause x.phase with
        | some cause => exact .inl ⟨c, x, cause, rfl, rfl, .inr ⟨hv, hp⟩, by simp [hv, hp]⟩
        | none =>
          cases hk : processChecks a
          · exact .inr (.inr (by simp [hv, hp]))
          · exact .inr (.inl ⟨c, x, rfl, rfl, hv, hp, rfl, by simp [hv, hp]⟩)

/-- What the execution of PROCESS does: the register written, or `Fault(BUS)` with a free value (R194, R227). -/
theorem processInto_cases (si : Nat) (c : CfgSlot) (x : StSlot) (a : Args) (s : State) :
    (∃ r, processRange s.params s.mem c x.value a.buffer.toNat a.offset.toNat a.bitLength.toNat = some r ∧
      processInto si c x a s = (s.setSt si { value := r, phase := .accum }).finish .success) ∨
    (processRange s.params s.mem c x.value a.buffer.toNat a.offset.toNat a.bitLength.toNat = none ∧
      processInto si c x a s = busInProcess si x s) := by
  unfold processInto
  cases h : processRange s.params s.mem c x.value a.buffer.toNat a.offset.toNat a.bitLength.toNat with
  | none => exact .inr ⟨rfl, rfl⟩
  | some r => exact .inl ⟨r, rfl, rfl⟩

/-- FINALIZE faults on its contract, writes the checksum, or is rejected (R201). -/
theorem finalizeRule_cases (ci si : Nat) (a : Args) (s : State) :
    (∃ c x cause, s.cfg[ci]? = some c ∧ s.st[si]? = some x ∧
      ((c.valid = false ∧ cause = .unconfigured) ∨ (c.valid = true ∧ phaseCause x.phase = some cause)) ∧
      finalizeRule ci si a s = s.raise cause) ∨
    (∃ c x, s.cfg[ci]? = some c ∧ s.st[si]? = some x ∧ c.valid = true ∧ phaseCause x.phase = none ∧
      finalizeRule ci si a s =
        (s.setSt si { value := correct s.W c (x.value ^^^ c.oxor), phase := .final }).finish .success) ∨
    ((s.cfg[ci]? = none ∨ s.st[si]? = none) ∧ finalizeRule ci si a s = s.finish .invalidParam) := by
  unfold finalizeRule
  cases hc : s.cfg[ci]? with
  | none => exact .inr (.inr ⟨.inl rfl, rfl⟩)
  | some c =>
    cases hx : s.st[si]? with
    | none => exact .inr (.inr ⟨.inr rfl, rfl⟩)
    | some x =>
      cases hv : c.valid
      · exact .inl ⟨c, x, .unconfigured, rfl, rfl, .inl ⟨hv, rfl⟩, by simp [hv]⟩
      · cases hp : phaseCause x.phase with
        | some cause => exact .inl ⟨c, x, cause, rfl, rfl, .inr ⟨hv, hp⟩, by simp [hv, hp]⟩
        | none => exact .inr (.inl ⟨c, x, rfl, rfl, hv, hp, by simp [hv, hp]⟩)

/-- Every way a command's rule ends: rejected, a contract fault, or the effect of its own operation (R220, R224). -/
theorem ruleOf_cases (i : Instr) (a : Args) (s : State) :
    ruleOf i a s = s.finish .invalidParam ∨
    (∃ cause, ruleOf i a s = s.raise cause) ∨
    (∃ ci c, i = .configure ci ∧ ruleOf i a s = (s.setCfg ci c).finish .success) ∨
    (∃ r, i = .sizeofTable ∧ ruleOf i a s = { s with result := r }.finish .success) ∨
    (∃ ci c, i = .buildTable ci ∧ s.cfg[ci]? = some c ∧ c.valid = true ∧ ruleOf i a s = buildInto ci c a.buildTable s) ∨
    (∃ ci si v, i = .reset ci si ∧ ruleOf i a s = (s.setSt si { value := v, phase := .fresh }).finish .success) ∨
    (∃ ci si x v, i = .process ci si ∧ s.st[si]? = some x ∧ phaseCause x.phase = none ∧
      ruleOf i a s = (s.setSt si { value := v, phase := .accum }).finish .success) ∨
    (∃ ci si x, i = .process ci si ∧ s.st[si]? = some x ∧ phaseCause x.phase = none ∧
      ruleOf i a s = busInProcess si x s) ∨
    (∃ ci si x v, i = .finalize ci si ∧ s.st[si]? = some x ∧ phaseCause x.phase = none ∧
      ruleOf i a s = (s.setSt si { value := v, phase := .final }).finish .success) := by
  cases i with
  | configure ci =>
    rcases configureRule_cases ci a s with ⟨io, oo, -, -, -, -, h⟩ | h
    · exact .inr (.inr (.inl ⟨ci, _, rfl, h⟩))
    · exact .inl h
  | buildTable ci =>
    rcases buildTableRule_cases ci a s with ⟨c, -, -, h⟩ | ⟨c, hc, hv, -, h⟩ | h
    · exact .inr (.inl ⟨_, h⟩)
    · exact .inr (.inr (.inr (.inr (.inl ⟨ci, c, rfl, hc, hv, h⟩))))
    · exact .inl h
  | sizeofTable => exact .inr (.inr (.inr (.inl ⟨_, rfl, rfl⟩)))
  | reset ci si =>
    rcases resetRule_cases ci si a s with ⟨c, x, -, -, -, h⟩ | ⟨c, x, -, -, -, h⟩ | ⟨-, h⟩
    · exact .inr (.inl ⟨_, h⟩)
    · exact .inr (.inr (.inr (.inr (.inr (.inl ⟨ci, si, _, rfl, h⟩)))))
    · exact .inl h
  | process ci si =>
    rcases processRule_cases ci si a s with ⟨c, x, cause, -, -, -, h⟩ | ⟨c, x, -, hx, -, hp, -, h⟩ | h
    · exact .inr (.inl ⟨_, h⟩)
    · rcases processInto_cases si c x a s with ⟨r, -, h'⟩ | ⟨-, h'⟩
      · exact .inr (.inr (.inr (.inr (.inr (.inr (.inl ⟨ci, si, x, r, rfl, hx, hp, h.trans h'⟩))))))
      · exact .inr (.inr (.inr (.inr (.inr (.inr (.inr (.inl ⟨ci, si, x, rfl, hx, hp, h.trans h'⟩)))))))
    · exact .inl h
  | finalize ci si =>
    rcases finalizeRule_cases ci si a s with ⟨c, x, cause, -, -, -, h⟩ | ⟨c, x, -, hx, -, hp, h⟩ | ⟨-, h⟩
    · exact .inr (.inl ⟨_, h⟩)
    · exact .inr (.inr (.inr (.inr (.inr (.inr (.inr (.inr ⟨ci, si, x, _, rfl, hx, hp, h⟩)))))))
    · exact .inl h

/-! ### The moves of the machine -/

/-- What the block's turn does: nothing, the completion of a decoded command, or of a Reserved word (R87, R190). -/
theorem blockTurn_cases {s t : State} (h : blockTurn s = .next t) :
    (s.pending = none ∧ t = s) ∨
    (∃ p i, s.pending = some p ∧ decode p.word = .ok i ∧ exec i s = .next t) ∨
    (∃ p e, s.pending = some p ∧ decode p.word = .error e ∧ t = (s.finish .notSupported).retire) := by
  unfold blockTurn at h
  cases hp : s.pending with
  | none =>
    rw [hp] at h
    exact .inl ⟨rfl, by simpa [eq_comm] using h⟩
  | some p =>
    rw [hp] at h
    simp only [completeWord] at h
    cases hd : decode p.word with
    | ok i => rw [hd] at h; exact .inr (.inl ⟨p, i, rfl, hd, h⟩)
    | error e =>
      rw [hd] at h
      refine .inr (.inr ⟨p, e, rfl, hd, ?_⟩)
      simp only [execReserved, State.completing_some hp] at h
      simpa [eq_comm] using h

/-- What a host line does (R68). -/
theorem hostLine_cases {l : HostLine} {s t : State} (h : hostLine l s = .next t) :
    (∃ addr size v off, l = .wr addr size v ∧ windowOffset s.params addr size = .ok off ∧ t = hostWrite off v s) ∨
    (∃ v, t = giveBack v s) ∨
    (∃ a bs, l = .memWr a bs ∧ a + bs.length ≤ 2 ^ 64 ∧ (∀ c ∈ cellsAt a bs, mayNotWrite s c.1 = false) ∧
      t = { s with mem := Memory.writeList s.mem (cellsAt a bs) }) ∨
    (l = .poll ∧ s.status.busy = true ∧ t = { s with lines := .poll :: s.lines }) ∨
    (l = .poll ∧ s.status.busy = false ∧ t = s) := by
  unfold hostLine at h
  cases l with
  | wr addr size v =>
    simp only at h
    cases hw : windowOffset s.params addr size with
    | error r => simp [hw] at h
    | ok off => exact .inl ⟨addr, size, v, off, rfl, hw, by simpa [hw, eq_comm] using h⟩
  | rd addr size =>
    simp only at h
    cases hw : windowOffset s.params addr size with
    | error r => simp [hw] at h
    | ok off => exact .inr (.inl ⟨_, by simpa [hw, eq_comm] using h⟩)
  | memWr a bs =>
    simp only at h
    split at h
    · cases h
    · split at h
      · cases h
      · rename_i h1 h2
        refine .inr (.inr (.inl ⟨a, bs, rfl, by omega, ?_, by simpa [eq_comm] using h⟩))
        simpa using h2
  | memRd a =>
    simp only at h
    split at h
    · cases h
    · split at h
      · cases h
      · exact .inr (.inl ⟨_, by simpa [eq_comm] using h⟩)
  | poll =>
    simp only at h
    split at h
    · exact .inr (.inr (.inr (.inl ⟨rfl, ‹_›, by simpa [eq_comm] using h⟩)))
    · exact .inr (.inr (.inr (.inr ⟨rfl, by simpa using ‹¬s.status.busy = true›, by simpa [eq_comm] using h⟩)))

/-- What a host's turn does: nothing when there is no line, else its next line. -/
theorem hostTurn_cases {s t : State} (h : hostTurn s = .next t) :
    (s.lines = [] ∧ t = s) ∨ (∃ l rest, s.lines = l :: rest ∧ hostLine l { s with lines := rest } = .next t) := by
  unfold hostTurn at h
  cases hl : s.lines with
  | nil => rw [hl] at h; exact .inl ⟨rfl, by simpa [eq_comm] using h⟩
  | cons l rest => rw [hl] at h; exact .inr ⟨l, rest, rfl, h⟩

/-- What a step does: the turn of a host, of the block or of the platform, with that turn taken off the list. -/
theorem step_cases {s t : State} (h : step s = .next t) :
    ∃ s0, (s0 = s ∨ ∃ u rest, s.turns = u :: rest ∧ s0 = { s with turns := rest }) ∧
      ((hostTurn s0 = .next t ∧ (∀ rest, s.turns ≠ .block :: rest) ∧ ∀ rest, s.turns ≠ .blockReset :: rest) ∨
       (blockTurn s0 = .next t ∧ (∀ rest, s.turns ≠ .host :: rest) ∧ ∀ rest, s.turns ≠ .blockReset :: rest) ∨
       (t = blockReset s0 ∧ ∃ rest, s.turns = .blockReset :: rest)) := by
  unfold step at h
  cases hturns : s.turns with
  | nil =>
    rw [hturns] at h
    refine ⟨s, .inl rfl, ?_⟩
    simp only at h
    split at h
    · exact .inr (.inl ⟨h, by simp, by simp⟩)
    · exact .inl ⟨h, by simp, by simp⟩
  | cons u rest =>
    rw [hturns] at h
    refine ⟨{ s with turns := rest }, .inr ⟨u, rest, rfl, rfl⟩, ?_⟩
    cases u with
    | host => exact .inl ⟨h, by simp, by simp⟩
    | block => exact .inr (.inl ⟨h, by simp, by simp⟩)
    | blockReset =>
      refine .inr (.inr ⟨?_, rest, rfl⟩)
      simpa [takeTurn, eq_comm] using h

end Sys2Proof.Machine
end

