-- ==== Sys2Proof/Laws/Memory.lean ====
section
/-! SUPPORT. The laws of MEM: a read after a write, the frame of a write, and that every operation keeps the canonical
form (`Memory.wf`) and the address bound (`Memory.inv`). -/

namespace Sys2Proof.Machine

@[simp] theorem Memory.read_nil (a : Nat) : Memory.read [] a = unlistedByte := rfl

theorem Memory.read_cons (k : Nat) (v : Byte) (m : Memory) (a : Nat) :
    Memory.read ((k, v) :: m) a = if a = k then v else Memory.read m a := rfl

/-- An address below every listed one reads as unlisted. -/
theorem Memory.read_of_lt {m : Memory} {a : Nat} (h : ∀ c ∈ m, a < c.1) : Memory.read m a = unlistedByte := by
  induction m with
  | nil => rfl
  | cons c m ih =>
    obtain ⟨k, v⟩ := c
    have hk : a < k := h (k, v) (by simp)
    rw [Memory.read_cons, if_neg (by omega)]
    exact ih fun c hc => h c (by simp [hc])

/-- A write leaves every other address alone. -/
theorem Memory.read_write_other (m : Memory) {a b : Nat} (v : Byte) (h : b ≠ a) :
    Memory.read (Memory.write m a v) b = Memory.read m b := by
  induction m with
  | nil => unfold Memory.write; split <;> simp [Memory.read_cons, h]
  | cons c m ih =>
    obtain ⟨k, w⟩ := c
    unfold Memory.write
    split
    · split <;> simp [Memory.read_cons, h]
    · split
      · subst_vars
        split <;> simp [Memory.read_cons, h]
      · simp only [Memory.read_cons, ih]

/-- A read after a write to the same address, in canonical memory. -/
theorem Memory.read_write_same {m : Memory} (hm : Memory.wf m) (a : Nat) (v : Byte) :
    Memory.read (Memory.write m a v) a = v := by
  induction m with
  | nil => unfold Memory.write; split <;> simp_all [Memory.read_cons]
  | cons c m ih =>
    obtain ⟨k, w⟩ := c
    obtain ⟨hs, hd⟩ := hm
    rw [List.pairwise_cons] at hs
    have hwf : Memory.wf m := ⟨hs.2, fun c hc => hd c (by simp [hc])⟩
    unfold Memory.write
    split
    · rename_i hak
      split
      · rename_i hv
        rw [Memory.read_of_lt, hv]
        intro c hc
        rcases List.mem_cons.mp hc with rfl | hc
        · exact hak
        · exact Nat.lt_trans hak (hs.1 c hc)
      · simp [Memory.read_cons]
    · split
      · rename_i hak
        subst hak
        split
        · rename_i hv
          rw [Memory.read_of_lt, hv]
          exact fun c hc => hs.1 c hc
        · simp [Memory.read_cons]
      · rename_i hne
        rw [Memory.read_cons, if_neg hne, ih hwf]

/-- What a written cell can be: the new one, or one that was there. -/
theorem Memory.mem_write {m : Memory} {a : Nat} {v : Byte} {c : Host.Cell} (h : c ∈ Memory.write m a v) :
    (c = (a, v) ∧ v ≠ unlistedByte) ∨ c ∈ m := by
  induction m with
  | nil =>
    unfold Memory.write at h
    split at h <;> simp_all
  | cons d m ih =>
    obtain ⟨k, w⟩ := d
    unfold Memory.write at h
    split at h
    · split at h
      · exact .inr h
      · rcases List.mem_cons.mp h with rfl | h
        · exact .inl ⟨rfl, ‹_›⟩
        · exact .inr h
    · split at h
      · split at h
        · exact .inr (List.mem_cons_of_mem _ h)
        · rcases List.mem_cons.mp h with rfl | h
          · exact .inl ⟨rfl, ‹_›⟩
          · exact .inr (List.mem_cons_of_mem _ h)
      · rcases List.mem_cons.mp h with rfl | h
        · exact .inr List.mem_cons_self
        · exact (ih h).imp_right (List.mem_cons_of_mem _)

/-- Every write keeps the canonical form. -/
theorem Memory.write_wf {m : Memory} (hm : Memory.wf m) (a : Nat) (v : Byte) : Memory.wf (Memory.write m a v) := by
  refine ⟨?_, fun c hc => ?_⟩
  · induction m with
    | nil => unfold Memory.write; split <;> simp
    | cons d m ih =>
      obtain ⟨k, w⟩ := d
      obtain ⟨hs, hd⟩ := hm
      have hwf : Memory.wf m := ⟨(List.pairwise_cons.mp hs).2, fun c hc => hd c (by simp [hc])⟩
      unfold Memory.write
      split
      · rename_i hak
        split
        · exact hs
        · refine List.pairwise_cons.mpr ⟨fun c hc => ?_, hs⟩
          rcases List.mem_cons.mp hc with rfl | hc
          · exact hak
          · exact Nat.lt_trans hak ((List.pairwise_cons.mp hs).1 c hc)
      · rename_i hak
        split
        · rename_i he
          subst he
          split
          · exact (List.pairwise_cons.mp hs).2
          · exact List.pairwise_cons.mpr ⟨(List.pairwise_cons.mp hs).1, (List.pairwise_cons.mp hs).2⟩
        · rename_i hne
          refine List.pairwise_cons.mpr ⟨fun c hc => ?_, ih hwf⟩
          rcases Memory.mem_write hc with ⟨rfl, -⟩ | hc
          · simp only; omega
          · exact (List.pairwise_cons.mp hs).1 c hc
  · rcases Memory.mem_write hc with ⟨rfl, hv⟩ | hc
    · exact hv
    · exact hm.2 c hc

/-- Every write below `2^64` keeps the invariant of MEM. -/
theorem Memory.write_inv {m : Memory} (hm : Memory.inv m) {a : Nat} (ha : a < 2 ^ 64) (v : Byte) :
    Memory.inv (Memory.write m a v) := by
  refine ⟨Memory.write_wf hm.1 a v, fun c hc => ?_⟩
  rcases Memory.mem_write hc with ⟨rfl, -⟩ | hc
  · exact ha
  · exact hm.2 c hc

/-- Writing a list of cells keeps the canonical form. -/
theorem Memory.writeList_wf {m : Memory} (hm : Memory.wf m) (ws : List Host.Cell) : Memory.wf (Memory.writeList m ws) := by
  induction ws generalizing m with
  | nil => exact hm
  | cons c ws ih => exact ih (Memory.write_wf hm c.1 c.2)

/-- Writing a list of cells below `2^64` keeps the invariant of MEM. -/
theorem Memory.writeList_inv {m : Memory} (hm : Memory.inv m) {ws : List Host.Cell} (h : ∀ c ∈ ws, c.1 < 2 ^ 64) :
    Memory.inv (Memory.writeList m ws) := by
  induction ws generalizing m with
  | nil => exact hm
  | cons c ws ih => exact ih (Memory.write_inv hm (h c (by simp)) c.2) fun d hd => h d (by simp [hd])

/-- Writing a list of cells leaves every address outside it alone. -/
theorem Memory.read_writeList_other (m : Memory) {ws : List Host.Cell} {b : Nat} (h : b ∉ ws.map Prod.fst) :
    Memory.read (Memory.writeList m ws) b = Memory.read m b := by
  induction ws generalizing m with
  | nil => rfl
  | cons c ws ih =>
    simp only [List.map_cons, List.mem_cons, not_or] at h
    exact (ih (Memory.write m c.1 c.2) h.2).trans (Memory.read_write_other m c.2 h.1)

/-- After writing cells at distinct addresses to canonical memory, each reads back. -/
theorem Memory.read_writeList_mem {m : Memory} (hm : Memory.wf m) {ws : List Host.Cell}
    (hd : (ws.map Prod.fst).Nodup) {c : Host.Cell} (hc : c ∈ ws) : Memory.read (Memory.writeList m ws) c.1 = c.2 := by
  induction ws generalizing m with
  | nil => simp at hc
  | cons d ws ih =>
    simp only [List.map_cons, List.nodup_cons] at hd
    rcases List.mem_cons.mp hc with rfl | hc
    · exact (Memory.read_writeList_other _ hd.1).trans (Memory.read_write_same hm c.1 c.2)
    · exact ih (Memory.write_wf hm d.1 d.2) hd.2 hc

/-! ### The block's writes -/

/-- The block's writes make exactly the writes before the first byte that is not admitted (R56). -/
theorem writeCells_fst (p : Config.Params) (m : Memory) (ws : List Host.Cell) :
    (writeCells p m ws).1 = Memory.writeList m (ws.takeWhile fun c => memAdmit p .write c.1) := by
  induction ws generalizing m with
  | nil => rfl
  | cons c ws ih =>
    obtain ⟨a, v⟩ := c
    unfold writeCells
    cases h : memAdmit p .write a
    · simp [h, Memory.writeList]
    · simp [h, ih, Memory.writeList]

/-- The block's writes all land exactly when every byte is admitted. -/
theorem writeCells_snd (p : Config.Params) (m : Memory) (ws : List Host.Cell) :
    (writeCells p m ws).2 = ws.all fun c => memAdmit p .write c.1 := by
  induction ws generalizing m with
  | nil => rfl
  | cons c ws ih =>
    obtain ⟨a, v⟩ := c
    unfold writeCells
    cases h : memAdmit p .write a <;> simp [h, ih]

/-- An admitted address is below `2^64` (R56). -/
theorem memAdmit_lt {p : Config.Params} {k : Config.AccessKind} {a : Nat} (h : memAdmit p k a = true) : a < 2 ^ 64 := by
  unfold memAdmit at h
  simp only [Bool.and_eq_true, decide_eq_true_eq] at h
  exact h.1

/-- The block's writes keep the invariant of MEM. -/
theorem writeCells_inv (p : Config.Params) {m : Memory} (hm : Memory.inv m) (ws : List Host.Cell) :
    Memory.inv (writeCells p m ws).1 := by
  rw [writeCells_fst]
  refine Memory.writeList_inv hm fun c hc => memAdmit_lt (k := .write) (p := p) ?_
  exact List.mem_takeWhile_imp (p := fun c : Host.Cell => memAdmit p .write c.1) hc

/-- Drawing bytes between old and new keeps the invariant of MEM (R261). -/
theorem drawCells_inv {m : Memory} (hm : Memory.inv m) {ws : List Host.Cell} (h : ∀ c ∈ ws, c.1 < 2 ^ 64) (n : Nat) :
    Memory.inv (drawCells n m ws) := by
  induction ws generalizing m n with
  | nil => exact hm
  | cons c ws ih =>
    obtain ⟨a, v⟩ := c
    refine ih ?_ (fun d hd => h d (by simp [hd])) (n + 1)
    split
    · exact Memory.write_inv hm (h (a, v) (by simp)) v
    · exact hm

/-- Drawing bytes leaves every address outside the list alone (R261). -/
theorem read_drawCells_other (m : Memory) {ws : List Host.Cell} {b : Nat} (h : b ∉ ws.map Prod.fst) (n : Nat) :
    Memory.read (drawCells n m ws) b = Memory.read m b := by
  induction ws generalizing m n with
  | nil => rfl
  | cons c ws ih =>
    obtain ⟨a, v⟩ := c
    simp only [List.map_cons, List.mem_cons, not_or] at h
    unfold drawCells
    rw [ih _ h.2]
    split
    · exact Memory.read_write_other m v h.1
    · rfl

/-! ### Reads of the block -/

/-- A byte read answers exactly the byte of an admitted address (R56). -/
theorem readByte_eq_some {p : Config.Params} {m : Memory} {a : Nat} {v : Byte} :
    readByte p m a = some v ↔ memAdmit p .read a = true ∧ Memory.read m a = v := by
  unfold readByte
  split <;> simp_all

/-- A little-endian read answers when every byte is admitted, and bit `8 j + i` of it is bit `i` of byte `j` (R53). -/
theorem readLE_eq_some {p : Config.Params} {m : Memory} {a n : Nat} (hn : n ≤ 8)
    (h : ∀ j < n, memAdmit p .read (a + j) = true) :
    ∃ v, readLE p m a n = some v ∧
      ∀ i < 64, v.getLsbD i = (decide (i < 8 * n) && (Memory.read m (a + i / 8)).getLsbD (i % 8)) := by
  induction n generalizing a with
  | zero => exact ⟨0, rfl, by simp⟩
  | succ n ih =>
    obtain ⟨r, hr, hbits⟩ := ih (a := a + 1) (by omega) fun j hj => by
      rw [show a + 1 + j = a + (j + 1) by omega]; exact h (j + 1) (by omega)
    have h0 : readByte p m a = some (Memory.read m a) := readByte_eq_some.mpr ⟨h 0 (by omega), rfl⟩
    refine ⟨(Memory.read m a).setWidth 64 ||| r <<< 8, by simp [readLE, h0, hr], fun i hi => ?_⟩
    simp only [BitVec.getLsbD_or, BitVec.getLsbD_setWidth, BitVec.getLsbD_shiftLeft, hi, decide_true, Bool.true_and]
    by_cases h8 : i < 8
    · have : i / 8 = 0 := by omega
      have : i % 8 = i := by omega
      simp [*]; omega
    · have h1 : (Memory.read m a).getLsbD i = false := BitVec.getLsbD_of_ge _ _ (by omega)
      rw [h1, hbits (i - 8) (by omega)]
      have : a + 1 + (i - 8) / 8 = a + i / 8 := by omega
      have : (i - 8) % 8 = i % 8 := by omega
      have : (i - 8 < 8 * n) = (i < 8 * (n + 1)) := by simp; omega
      simp [*]

end Sys2Proof.Machine
end

