-- ==== Sys2Proof/Laws/Kernels.lean ====
section
/-! SUPPORT. The bounds of a configured slot (R21, R22), of the LUT kernels and of PROCESS: the register stays within `W`
bits. -/

namespace Sys2Proof.Machine

/-- The degree of a configured slot is the operand's (R21, R102). -/
theorem configSlot_deg (w : Nat) (p ix ox t : Word) (io oo : BitOrder) :
    (configSlot w p ix ox t io oo).deg.toNat = bitlen p := by
  have := bitlen_le p
  simp only [configSlot, BitVec.toNat_ofNat]
  omega

/-- What the checks of R109 give. -/
theorem configChecks_spec {w : Width} {a : Args} (h : configChecks w a = true) :
    a.a0 ≠ 0 ∧ bitlen a.a0 ≤ w.bits ∧ tableAligned w a.a3 = true ∧ a.a1.toNat < 2 ^ bitlen a.a0 ∧
      a.a2.toNat < 2 ^ bitlen a.a0 := by
  simp only [configChecks, Bool.and_eq_true, decide_eq_true_eq, and_assoc] at h
  exact h

/-- The degree and the widths of a configured slot's fields (R21, R22). -/
theorem CfgSlot.configured_bounds {w : Width} {c : CfgSlot} (h : c.configured w) :
    1 ≤ c.deg.toNat ∧ c.deg.toNat ≤ w.bits ∧ c.poly.toNat < 2 ^ w.bits ∧ c.ixor.toNat < 2 ^ w.bits ∧
      c.oxor.toNat < 2 ^ w.bits := by
  obtain ⟨a, io, oo, hk, -, -, -, hc⟩ := h
  obtain ⟨h0, h1, -, h3, h4⟩ := configChecks_spec hk
  have hw := w.bits_le
  have hdeg : c.deg.toNat = bitlen a.a0 := by rw [hc]; exact configSlot_deg ..
  have hp : c.poly = canonPoly w.bits (bitlen a.a0) io a.a0 := by rw [hc]; rfl
  have hx : c.ixor = canonIxor w.bits (bitlen a.a0) io a.a1 := by rw [hc]; rfl
  have ho : c.oxor = canonOxor w.bits (bitlen a.a0) io oo a.a2 := by rw [hc]; rfl
  refine ⟨hdeg ▸ bitlen_pos h0, hdeg ▸ h1, ?_, ?_, ?_⟩
  · rw [hp]; unfold canonPoly
    split
    · exact shiftLeft_top_lt (trunc_lt _ _) h1
    · exact mirror_lt hw _
  · rw [hx]; unfold canonIxor
    split
    · exact shiftLeft_top_lt h3 h1
    · exact mirror_lt hw _
  · rw [ho]; unfold canonOxor
    split
    · exact shiftLeft_top_lt h4 h1
    · exact mirror_lt hw _
    · exact Nat.lt_of_lt_of_le h4 (Nat.pow_le_pow_right (by omega) h1)
    · exact mirror_lt hw _

/-- An entry of degree at most `W` fits the register (R130). -/
theorem entryBytes_fit (w : Width) {d : Nat} (h : d ≤ w.bits) : 8 * entryBytes d ≤ w.bits := by
  unfold entryBytes
  cases w <;> simp only [Width.bits] at * <;> split_ifs <;> omega

/-- A little-endian read that answers found every byte admitted (R56). -/
theorem readLE_admitted {p : Config.Params} {m : Memory} {a n : Nat} {v : Word} (h : readLE p m a n = some v) :
    ∀ j < n, memAdmit p .read (a + j) = true := by
  induction n generalizing a v with
  | zero => intro j hj; omega
  | succ n ih =>
    unfold readLE at h
    split at h
    · cases h
    · rename_i b hb
      split at h
      · cases h
      · rename_i r hr
        intro j hj
        rcases j with _ | j
        · exact (readByte_eq_some.mp hb).1
        · have := ih hr j (by omega)
          rwa [show a + 1 + j = a + (j + 1) by omega] at this

/-- A little-endian read of `n` bytes is below `2^(8n)` (R53). -/
theorem readLE_lt {p : Config.Params} {m : Memory} {a n : Nat} {v : Word} (hn : n ≤ 8) (h : readLE p m a n = some v) :
    v.toNat < 2 ^ (8 * n) := by
  obtain ⟨v', hv', hb⟩ := readLE_eq_some hn (readLE_admitted h)
  rw [h] at hv'
  cases hv'
  refine (lt_two_pow_iff _).mpr fun i hi => ?_
  by_cases h64 : i < 64
  · rw [hb i h64]; simp; omega
  · exact BitVec.getLsbD_of_ge _ _ (by omega)

/-- A table value is within `W` bits (R170). -/
theorem tableEntry_lt {ps : Config.Params} {m : Memory} {c : CfgSlot} {idx : Nat} {te : Word}
    (hc : c.deg.toNat ≤ ps.width.bits) (h : tableEntry ps m c idx = some te) : te.toNat < 2 ^ ps.width.bits := by
  have he := entryBytes_fit ps.width hc
  unfold tableEntry at h
  simp only at h
  split at h
  · cases h
  · rename_i raw hraw
    have hr := readLE_lt (entryBytes_le _) hraw
    split at h <;> cases h
    · exact shiftLeft_top_lt hr he
    · exact Nat.lt_of_lt_of_le hr (Nat.pow_le_pow_right (by omega) he)

/-- A LUT step keeps the register within `W` bits (R171, R172). -/
theorem lutStep_lt {ps : Config.Params} {m : Memory} {c : CfgSlot} {r r' : Word} {v : Byte}
    (hc : c.deg.toNat ≤ ps.width.bits) (hr : r.toNat < 2 ^ ps.width.bits) (h : lutStep ps m c r v = some r') :
    r'.toNat < 2 ^ ps.width.bits := by
  unfold lutStep at h
  split at h
  · cases h
  · rename_i te hte
    cases h
    refine xor_lt ?_ (tableEntry_lt hc hte)
    unfold lutShift
    split
    · exact trunc_lt _ _
    · exact ushiftRight_lt hr 8

/-- A LUT run keeps the register within `W` bits (R173). -/
theorem lutKernel_lt {ps : Config.Params} {m : Memory} {c : CfgSlot} {n b : Nat} {r r' : Word}
    (hc : c.deg.toNat ≤ ps.width.bits) (hr : r.toNat < 2 ^ ps.width.bits) (h : lutKernel ps m c n b r = some r') :
    r'.toNat < 2 ^ ps.width.bits := by
  induction n generalizing b r with
  | zero => cases h; exact hr
  | succ n ih =>
    unfold lutKernel at h
    split at h
    · cases h
    · split at h
      · cases h
      · rename_i h'
        exact ih (lutStep_lt hc hr h') h

/-- The bit-wise pass keeps the register within `W` bits (R195). -/
theorem procBytes_lt {ps : Config.Params} {m : Memory} {c : CfgSlot} {n p o rem : Nat} {r r' : Word}
    (hc : c.poly.toNat < 2 ^ ps.width.bits) (hr : r.toNat < 2 ^ ps.width.bits)
    (h : procBytes ps m c n p o rem r = some r') : r'.toNat < 2 ^ ps.width.bits := by
  induction n generalizing p o rem r with
  | zero => cases h; exact hr
  | succ n ih =>
    unfold procBytes at h
    split at h
    · cases h
    · exact ih (bitKernel_lt hc hr _) h

/-- PROCESS under a configured slot keeps the register within `W` bits (R23, R194). -/
theorem processRange_lt {ps : Config.Params} {m : Memory} {c : CfgSlot} {r r' : Word} {b o L : Nat}
    (hc : c.configured ps.width) (hr : r.toNat < 2 ^ ps.width.bits) (h : processRange ps m c r b o L = some r') :
    r'.toNat < 2 ^ ps.width.bits := by
  obtain ⟨-, hd, hp, -, -⟩ := CfgSlot.configured_bounds hc
  unfold processRange at h
  split at h
  · exact procBytes_lt hp hr h
  · unfold procLut at h
    split at h
    · cases h
    · rename_i r1 p rem hl
      have h1 : r1.toNat < 2 ^ ps.width.bits := by
        unfold leadPiece at hl
        split at hl
        · split at hl
          · cases hl
          · cases hl; exact bitKernel_lt hp hr _
        · cases hl; exact hr
      split at h
      · cases h
      · rename_i r2 h2
        have h3 := lutKernel_lt hd h1 h2
        unfold trailPiece at h
        split at h
        · split at h
          · cases h
          · cases h; exact bitKernel_lt hp h3 _
        · cases h; exact h3

/-! ### The cells of a table -/

/-- Byte `j` of a run of bytes stands at its address. -/
theorem mem_cellsAt {a j : Nat} {bs : List Byte} (h : j < bs.length) : (a + j, bs[j]) ∈ cellsAt a bs := by
  induction bs generalizing a j with
  | nil => simp at h
  | cons b bs ih =>
    rcases j with _ | j
    · exact List.mem_cons_self
    · have := ih (a := a + 1) (j := j) (by simpa using h)
      rw [show a + 1 + j = a + (j + 1) by omega] at this
      exact List.mem_cons_of_mem _ this

/-- Consecutive runs of `e` addresses join. -/
theorem flatMap_range' (t e n : Nat) : ((List.range n).flatMap fun i => List.range' (t + i * e) e) = List.range' t (n * e) := by
  induction n with
  | zero => simp
  | succ n ih =>
    rw [List.range_succ, List.flatMap_append, ih, List.flatMap_cons, List.flatMap_nil, List.append_nil, Nat.succ_mul,
      Nat.mul_comm n e, ← List.range'_append (s := t) (step := 1)]
    simp

/-- BUILD_TABLE writes the addresses `t` to `t + TBLSIZE - 1` in ascending order (R132, R135). -/
theorem tableCells_map_fst (w : Nat) (c : CfgSlot) (t : Nat) :
    (tableCells w c t).map Prod.fst = List.range' t (tableSize c.deg.toNat) := by
  unfold tableCells tableSize
  simp only [List.map_flatMap, cellsAt_map_fst, length_bytesLE]
  exact flatMap_range' t _ 256

/-- BUILD_TABLE writes no address twice. -/
theorem tableCells_nodup (w : Nat) (c : CfgSlot) (t : Nat) : ((tableCells w c t).map Prod.fst).Nodup := by
  rw [tableCells_map_fst]
  exact List.nodup_range'

/-- Byte `j` of entry `i` is among the writes, at `t + i*e + j` (R135). -/
theorem mem_tableCells (w : Nat) (c : CfgSlot) (t : Nat) {i j : Nat} (hi : i < 256) (hj : j < entryBytes c.deg.toNat) :
    (t + i * entryBytes c.deg.toNat + j, (entry w c i).extractLsb' (8 * j) 8) ∈ tableCells w c t := by
  unfold tableCells
  refine List.mem_flatMap.mpr ⟨i, List.mem_range.mpr hi, ?_⟩
  have h := mem_cellsAt (a := t + i * entryBytes c.deg.toNat) (j := j) (bs := bytesLE (entryBytes c.deg.toNat) (entry w c i))
    (by rwa [length_bytesLE])
  simpa [bytesLE] using h

/-- Writing a table's cells to canonical memory leaves the table there, where its bytes are admitted (R135, R267). -/
theorem holdsTable_writeList (ps : Config.Params) {m : Memory} (hm : Memory.wf m) (c : CfgSlot)
    (ha : rangeAdmitted ps .read c.table.toNat (tableSize c.deg.toNat)) :
    holdsTable ps (Memory.writeList m (tableCells ps.width.bits c c.table.toNat)) c := by
  intro i hi j hj
  refine ⟨?_, Memory.read_writeList_mem hm (tableCells_nodup _ _ _) (mem_tableCells _ _ _ hi hj)⟩
  rw [Nat.add_assoc]
  refine ha _ ?_
  unfold tableSize
  have : i * entryBytes c.deg.toNat ≤ 255 * entryBytes c.deg.toNat := Nat.mul_le_mul_right _ (by omega)
  omega

end Sys2Proof.Machine
end

