-- ==== Sys2Proof/Laws/PerInstr.lean ====
section
/-! SUPPORT. Per instruction: the encoded word of a well-formed command keeps the fixed fields of R81 and R83. -/

namespace Sys2Proof.Laws.EncodeMatchesTable

/-- The word of a well-formed command has its OP value in bits 7:0 and zeros in bits 63:24: the bits the mask of R83
keeps. -/
def Statement (i : Instr) : Prop :=
  i.wellFormed = true → (encode i).toNat % 2 ^ 8 = i.op ∧ (encode i).toNat < 2 ^ 24

/-- Indices that fit their fields stay out of the fixed fields. -/
theorem commandWord_fixed {op ci si : Nat} (ho : op < 256) (hc : ci < 256) (hs : si < 256) :
    (commandWord op ci si).toNat % 2 ^ 8 = op ∧ (commandWord op ci si).toNat < 2 ^ 24 := by
  unfold commandWord
  rw [BitVec.toNat_ofNat]
  omega

theorem configure (ci : Nat) : Statement (.configure ci) := fun h => by
  simp only [Instr.wellFormed, indexFits, decide_eq_true_eq] at h
  exact commandWord_fixed (by decide) h (by decide)

theorem buildTable (ci : Nat) : Statement (.buildTable ci) := fun h => by
  simp only [Instr.wellFormed, indexFits, decide_eq_true_eq] at h
  exact commandWord_fixed (by decide) h (by decide)

theorem sizeofTable : Statement .sizeofTable := fun _ => commandWord_fixed (by decide) (by decide) (by decide)

theorem reset (ci si : Nat) : Statement (.reset ci si) := fun h => by
  simp only [Instr.wellFormed, indexFits, Bool.and_eq_true, decide_eq_true_eq] at h
  exact commandWord_fixed (by decide) h.1 h.2

theorem process (ci si : Nat) : Statement (.process ci si) := fun h => by
  simp only [Instr.wellFormed, indexFits, Bool.and_eq_true, decide_eq_true_eq] at h
  exact commandWord_fixed (by decide) h.1 h.2

theorem finalize (ci si : Nat) : Statement (.finalize ci si) := fun h => by
  simp only [Instr.wellFormed, indexFits, Bool.and_eq_true, decide_eq_true_eq] at h
  exact commandWord_fixed (by decide) h.1 h.2

end Sys2Proof.Laws.EncodeMatchesTable
end

