-- ==== Sys2Proof/Tests/Slice0.lean ====
section
/-! SUPPORT. Tests of the model: well-formedness, decoding, the spec's worked examples and vectors, and, for every
statement with hypotheses, a witness that meets them. Expected values come from the rules and vectors named. -/

namespace Sys2Proof.Tests

open Sys2Proof Sys2Proof.Machine

set_option Elab.async false

/-! ### Well-formed commands -/

/-- Each check of `Instr.wellFormed` refuses an index that does not fit its field (R82), and accepts the largest one. -/
theorem test_wellFormed :
    (Instr.configure 256).wellFormed = false ∧ (Instr.buildTable 256).wellFormed = false ∧
    (Instr.reset 256 0).wellFormed = false ∧ (Instr.reset 0 256).wellFormed = false ∧
    (Instr.process 256 0).wellFormed = false ∧ (Instr.process 0 256).wellFormed = false ∧
    (Instr.finalize 256 0).wellFormed = false ∧ (Instr.finalize 0 256).wellFormed = false ∧
    (Instr.configure 255).wellFormed = true ∧ (Instr.buildTable 255).wellFormed = true ∧
    Instr.sizeofTable.wellFormed = true ∧ (Instr.reset 255 255).wellFormed = true ∧
    (Instr.process 255 255).wellFormed = true ∧ (Instr.finalize 255 255).wellFormed = true := by decide

/-! ### Decoding: words written out field by field from R81, most significant first:
reserved 63:24, SI, CI, reserved 7:4, OP -/

/-- CONFIGURE of slot 5, with an SI it ignores (R83, R86). -/
theorem test_decode_configure :
    decode ((0 : BitVec 40) ++ 0b10000001#8 ++ 0b00000101#8 ++ 0b0000#4 ++ 0b0001#4) = .ok (.configure 5) := by decide

/-- BUILD_TABLE of slot 255 (R83). -/
theorem test_decode_buildTable :
    decode ((0 : BitVec 40) ++ 0b00000000#8 ++ 0b11111111#8 ++ 0b0000#4 ++ 0b0010#4) = .ok (.buildTable 255) := by decide

/-- SIZEOF_TABLE, with a CI and an SI it ignores (R83, R86). -/
theorem test_decode_sizeofTable :
    decode ((0 : BitVec 40) ++ 0b00000001#8 ++ 0b00000010#8 ++ 0b0000#4 ++ 0b0011#4) = .ok .sizeofTable := by decide

/-- RESET of Configuration 1, State 2 (R83). -/
theorem test_decode_reset :
    decode ((0 : BitVec 40) ++ 0b00000010#8 ++ 0b00000001#8 ++ 0b0000#4 ++ 0b0100#4) = .ok (.reset 1 2) := by decide

/-- PROCESS of Configuration 128, State 7 (R83). -/
theorem test_decode_process :
    decode ((0 : BitVec 40) ++ 0b00000111#8 ++ 0b10000000#8 ++ 0b0000#4 ++ 0b0101#4) = .ok (.process 128 7) := by decide

/-- FINALIZE of Configuration 3, State 255 (R83). -/
theorem test_decode_finalize :
    decode ((0 : BitVec 40) ++ 0b11111111#8 ++ 0b00000011#8 ++ 0b0000#4 ++ 0b0110#4) = .ok (.finalize 3 255) := by decide

/-- Reserved words (R87): OP 0, 7 and 15, and a bit at each edge of the reserved fields. -/
theorem test_decode_reserved :
    decode 0x0 = .error .opcode ∧ decode 0x7 = .error .opcode ∧ decode 0xF = .error .opcode ∧
    decode 0x11 = .error .bits7to4 ∧ decode 0x81 = .error .bits7to4 ∧
    decode 0x1000001 = .error .bits63to24 ∧ decode 0x8000000000000001 = .error .bits63to24 := by decide

/-! ### Small states -/

/-- An instance of width `w` with two slots of each kind, MEM backed everywhere. -/
def params (w : Width) : Config.Params :=
  { width := w, regBase := 0x100000, regions := [{ base := 0, size := 2 ^ 64, read := true, write := true }] }

/-- The slot of the 5-bit CRC of V2, `0x12, 0x1F, 0x1F, MSB, MSB`, with the given table address. -/
def slot5 (t : Word) : CfgSlot := configSlot 8 0x12 0x1F 0x1F t .msb .msb

/-- The slot of CRC-16 of V1, `0xC002, 0, 0, LSB, LSB`, with no table, at width 16. -/
def slot16 : CfgSlot := configSlot 16 0xC002 0 0 0 .lsb .lsb

/-- The given slots, contents of MEM and pending command. -/
def busy (w : Width) (c : CfgSlot) (x : StSlot) (m : Memory) (i : Instr) (a : Args) : State :=
  { State.resetOf (params w) 0 0 m with
    cfg := [c, CfgSlot.reset], st := [x, StSlot.reset], args := a
    pending := some { word := encode i, args := a }, status := { Status.reset with busy := true } }

theorem busy_mem (w : Width) (c : CfgSlot) (x : StSlot) (m : Memory) (i : Instr) (a : Args) :
    (busy w c x m i a).mem = m := rfl

/-- Operands by position. -/
def ops (a0 a1 a2 : Word) (a3 : Word := 0) (a4 : Word := 0) (a5 : Word := 0) : Args :=
  { a0 := a0, a1 := a1, a2 := a2, a3 := a3, a4 := a4, a5 := a5 }

/-- The state an outcome holds. -/
def after : Host.Outcome State Fault Refusal → Option State
  | .next s => some s
  | .fault _ => none
  | .refused _ => none

/-- A State slot after RESET under `slot5` (V2). -/
def fresh5 : StSlot := { value := 0xF8, phase := .fresh }

/-! ### The units, by the spec's examples -/

/-- R100's and section 2.1's examples. -/
theorem test_mirror :
    mirror64 0x1 = 0x8000000000000000 ∧ mirror64 0x8005000000000000 = 0xA001 ∧ mirror 8 0x01 = 0x80 ∧
    mirror 8 0xE0 = 0x07 ∧ mirror 16 0x8005 = 0xA001 ∧ mirror 32 0x04C11DB7 = 0xEDB88320 := by decide +kernel

/-- R103's examples of `N(p)`. -/
theorem test_normalForm :
    normalForm 16 0xC002 = 0x8005 ∧ normalForm 5 0x12 = 0x05 ∧ normalForm 8 0x83 = 0x07 ∧
    normalForm 32 0x82608EDB = 0x04C11DB7 := by decide +kernel

/-- Section 2.2's OXOR rows for `W = 16`, `d = 5`, `ox = 0x01` (R107). -/
theorem test_oxor :
    canonOxor 16 5 .msb .msb 0x01 = 0x0800 ∧ canonOxor 16 5 .msb .lsb 0x01 = 0x8000 ∧
    canonOxor 16 5 .lsb .lsb 0x01 = 0x0001 ∧ canonOxor 16 5 .lsb .msb 0x01 = 0x0010 := by decide +kernel

/-- R161's forward example: byte 0xFF at offset 4, length 4, under `0x83` at `W = 8`. -/
theorem test_fwdKernel :
    bitKernel 8 (configSlot 8 0x83 0xFF 0xFF 0 .msb .msb) 0 (bitsOf .msb 0xFF 4 4) = 0x2D := by decide +kernel

/-- R161's reverse example: byte 0x01 under `0xC002` LSB at `W = 16`. -/
theorem test_revKernel : bitKernel 16 slot16 0 (bitsOf .lsb 0x01 0 8) = 0xC0C1 := by decide +kernel

/-- Entries of section 2.4: `0x12` MSB and LSB at `W = 8`, and `0x82608EDB` MSB at `W = 64`. -/
theorem test_entry :
    entry 8 (slot5 0) 0x80 = 0x70 ∧ entry 8 (configSlot 8 0x12 0 0 0 .lsb .lsb) 0x80 = 0x14 ∧
    entry 64 (configSlot 64 0x82608EDB 0 0 0 .msb .msb) 0xFF = 0xB1F740B4 := by decide +kernel

/-! ### The commands -/

/-- CONFIGURE of V2's operands at `W = 8` (section 2.2). -/
theorem test_configure :
    (after (exec (.configure 0) (busy .w8 CfgSlot.reset fresh5 [] (.configure 0) (ops 0x12 0x1F 0x1F)))).map
      (fun t => (t.cfg[0]?.map fun c => (c.deg, c.poly, c.ixor, c.oxor), t.status.code)) =
    some (some (5, 0x28, 0xF8, 0xF8), .success) := by decide +kernel

/-- CONFIGURE with `ix >= 2^5` is rejected and leaves the slot (section 2.2). -/
theorem test_configure_rejects :
    (after (exec (.configure 0) (busy .w16 CfgSlot.reset fresh5 [] (.configure 0) (ops 0x12 0x20 0)))).map
      (fun t => (t.cfg[0]?, t.status.code)) = some (some CfgSlot.reset, .invalidParam) := by decide +kernel

/-- BUILD_TABLE for `0x82608EDB` MSB at `W = 32` writes `B7 1D C1 04` at 0x1004 (R139): the cells of entry 1. -/
theorem test_buildTable_cells :
    ((tableCells 32 (configSlot 32 0x82608EDB 0 0 0 .msb .msb) 0x1000).drop 4).take 4 =
      [(0x1004, 0xB7), (0x1005, 0x1D), (0x1006, 0xC1), (0x1007, 0x04)] := by decide +kernel

/-- BUILD_TABLE with a size other than TBLSIZE(5) is rejected (R133). -/
theorem test_buildTable_rejects :
    (after (exec (.buildTable 0) (busy .w8 (slot5 0) fresh5 [] (.buildTable 0) (ops 0x10 512 0)))).map
      (fun t => (t.cfg[0]?, t.mem, t.status.code)) = some (some (slot5 0), [], .invalidParam) := by decide +kernel

/-- SIZEOF_TABLE 0x82608EDB gives 1024 at `W = 8` too (R131). -/
theorem test_sizeofTable :
    (after (exec .sizeofTable (busy .w8 CfgSlot.reset fresh5 [] .sizeofTable (ops 0x82608EDB 0 0)))).map
      (fun t => (t.result, t.status.code)) = some (1024, .success) := by decide +kernel

/-- SIZEOF_TABLE 0 gives 256 (R131). -/
theorem test_sizeofTable_zero :
    (after (exec .sizeofTable (busy .w8 CfgSlot.reset fresh5 [] .sizeofTable (ops 0 0 0)))).map (fun t => t.result) =
      some 256 := by decide +kernel

/-- RESET from FINAL gives V2's register 0xF8 and FRESH (R193). -/
theorem test_reset :
    (after (exec (.reset 0 0) (busy .w8 (slot5 0) { value := 0x07, phase := .final } [] (.reset 0 0) (ops 0 0 0)))).map
      (fun t => t.st[0]?) = some (some fresh5) := by decide +kernel

/-- RESET under a slot never configured raises UNCONFIGURED, code 1 (R225). -/
theorem test_reset_unconfigured :
    (after (exec (.reset 1 0) (busy .w8 (slot5 0) fresh5 [] (.reset 1 0) (ops 0 0 0)))).map
      (fun t => (t.st[0]?, t.status.word)) = some (some fresh5, 0x01010000) := by decide +kernel

/-- V2's message at address 0x20. -/
def message5 : Memory := [(0x20, 0xA9), (0x21, 0x0A), (0x22, 0x3F), (0x23, 0x10)]

/-- PROCESS of V2's 28 bits leaves 0xC0 (section 1). -/
theorem test_process :
    (after (exec (.process 0 0) (busy .w8 (slot5 0) fresh5 message5 (.process 0 0) (ops 0x20 0 28)))).map
      (fun t => t.st[0]?) = some (some { value := 0xC0, phase := .accum }) := by decide +kernel

/-- PROCESS of V1's 72 bits leaves 0xBB3D (R198). -/
theorem test_process_lsb :
    (after (exec (.process 0 0) (busy .w16 slot16 { value := 0, phase := .fresh }
      [(1, 0x31), (2, 0x32), (3, 0x33), (4, 0x34), (5, 0x35), (6, 0x36), (7, 0x37), (8, 0x38), (9, 0x39)]
      (.process 0 0) (ops 1 0 72)))).map
      (fun t => t.st[0]?) = some (some { value := 0xBB3D, phase := .accum }) := by decide +kernel

/-- FINALIZE of V2's register 0xC0 gives the checksum 0x07 (section 1). -/
theorem test_finalize :
    (after (exec (.finalize 0 0) (busy .w8 (slot5 0) { value := 0xC0, phase := .accum } [] (.finalize 0 0)
      (ops 0 0 0)))).map (fun t => t.st[0]?) = some (some { value := 0x07, phase := .final }) := by decide +kernel

/-- FINALIZE of a finalized slot raises STATE_FINAL, code 3 (R225). -/
theorem test_finalize_final :
    (after (exec (.finalize 0 0) (busy .w8 (slot5 0) { value := 0x07, phase := .final } [] (.finalize 0 0)
      (ops 0 0 0)))).map (fun t => (t.st[0]?, t.status.word)) =
      some (some { value := 0x07, phase := .final }, 0x03010000) := by decide +kernel

/-- A Reserved word completes with NOT_SUPPORTED (R87). -/
theorem test_reserved :
    (after (step { busy .w8 (slot5 0) fresh5 [] .sizeofTable (ops 0 0 0) with
      pending := some { word := 0x7, args := ops 0 0 0 } })).map
      (fun t => t.status.word) = some 0x3 := by decide +kernel

/-- CTRL of section 2.2: `0x12` MSB/MSB at `W = 8`, and `0xC002` LSB/LSB at `W = 16`. -/
theorem test_ctrl : ctrlWord (slot5 0) = 0x10501 ∧ ctrlWord slot16 = 0x21007 := by decide +kernel

/-- A host's turn executes the next line and takes it off (R68): the write of SIZEOF_TABLE's word to CMD issues it (R190),
and POLL stays while BUSY is 1 (R89). -/
theorem test_hostTurn :
    (after (step { State.resetOf (params .w8) 1 1 [] with lines := [lineWr (params .w8) .cmd 0x3, .poll] })).map
      (fun t => (t.lines, t.status.busy, t.pending.map fun p => p.word)) = some ([.poll], true, some 0x3) ∧
    (after (step { State.resetOf (params .w8) 1 1 [] with
      lines := [.poll], turns := [.host], status := { Status.reset with busy := true } })).map
      (fun t => (t.lines, t.turns)) = some ([.poll], []) := by decide +kernel

/-- A host reads ID of an instance at `W = 8` with one slot of each kind (R28): 8, 0, 0 and version 1. -/
theorem test_hostRead :
    (after (step { State.resetOf (params .w8) 1 1 [] with lines := [lineRd (params .w8) .id] })).map
      (fun t => t.reads) = some [0x01000008] := by decide +kernel

/-- `withFetchWord` runs the word as the next command. -/
theorem test_withFetchWord :
    (after (step (State.reset.withFetchWord 64 0x3))).map (fun t => (t.result, t.status.busy)) = some (256, false) := by
  decide +kernel

/-! ### Witnesses: for every statement with hypotheses, values that meet them together -/

/-- `slot5` at `W = 8`, idle. -/
def idle5 : State :=
  { State.resetOf (params .w8) 0 0 message5 with cfg := [slot5 0, CfgSlot.reset], st := [fresh5, StSlot.reset] }

/-- PROCESS of V2's message in flight under `slot5`. -/
def processing5 : State := busy .w8 (slot5 0) fresh5 message5 (.process 0 0) (ops 0x20 0 28)

/-- BUILD_TABLE for `slot5` at 0x100 in flight. -/
def building5 : State := busy .w8 (slot5 0) fresh5 message5 (.buildTable 0) (ops 0x100 256 0)

/-- V2's message and the table of `slot5` at 0x100. -/
def table5 : Memory := Memory.writeList message5 (tableCells 8 (slot5 0x100) 0x100)

/-- A state after a fault. -/
def faulted (c : Cause) : Status := { code := .success, busy := false, fault := true, cause := c }

/-- MEM backed for the `n` bytes from `a` alone. -/
def only (w : Width) (a n : Nat) : Config.Params :=
  { width := w, regBase := 0x100000, regions := [{ base := a, size := n, read := true, write := true }] }

theorem test_configured5 : (slot5 0).configured .w8 :=
  ⟨ops 0x12 0x1F 0x1F, .msb, .msb, by decide +kernel⟩

theorem test_configured5_table : (slot5 0x100).configured .w8 :=
  ⟨ops 0x12 0x1F 0x1F, .msb, .msb, by decide +kernel⟩

theorem test_configured16 : slot16.configured .w16 :=
  ⟨ops 0xC002 0 0 0 1 1, .lsb, .lsb, by decide +kernel⟩

theorem test_wf5 : Memory.wf message5 := by decide

theorem test_holdsTable5 : holdsTable (params .w8) table5 (slot5 0x100) :=
  holdsTable_writeList (params .w8) test_wf5 (slot5 0x100) (by decide +kernel)

/-- DecodeFollowsTheFieldTable: a word for each clause, at the edges of the fields. -/
theorem test_wit_decodeFollows :
    (0x10 : Word).extractLsb' 4 4 ≠ 0 ∧ (0x80 : Word).extractLsb' 4 4 ≠ 0 ∧
    (0x1000000 : Word).extractLsb' 24 40 ≠ 0 ∧ (0x8000000000000000 : Word).extractLsb' 24 40 ≠ 0 ∧
    (∀ k : Fin 7, (BitVec.ofNat 64 k + 0xFFFF00 : Word).extractLsb' 4 4 = 0 ∧
      (BitVec.ofNat 64 k + 0xFFFF00 : Word).extractLsb' 24 40 = 0 ∧
      (BitVec.ofNat 64 k + 0xFFFF00 : Word).extractLsb' 0 4 = BitVec.ofNat 4 k) ∧
    7 ≤ ((0x7 : Word).extractLsb' 0 4).toNat ∧ 7 ≤ ((0xF : Word).extractLsb' 0 4).toNat := by decide

/-- DecodeEncodeAgree: `test_wellFormed` has a witness for each command. -/
theorem test_wit_decodeEncode : (Instr.process 255 255).wellFormed = true := by decide

/-- UnusedIndexFieldsHaveNoEffect: each clause. -/
theorem test_wit_unusedIndex :
    ((0x501 : Word).extractLsb' 0 4 = 1 ∧ (0xFF0000 : Word) &&& 0xFFFFFFFFFF00FFFF = 0) ∧
    ((0x502 : Word).extractLsb' 0 4 = 2 ∧ (0x010000 : Word) &&& 0xFFFFFFFFFF00FFFF = 0) ∧
    ((0x3 : Word).extractLsb' 0 4 = 3 ∧ (0xFFFF00 : Word) &&& 0xFFFFFFFFFF0000FF = 0) := by decide

/-- StepRunsThePendingCommand: the clauses with a command in flight. -/
theorem test_wit_stepRuns :
    processing5.pending = some { word := 0x5, args := ops 0x20 0 28 } ∧ decode 0x5 = .ok (.process 0 0) ∧
    processing5.turns = [] ∧ { processing5 with turns := [.block] }.turns = [.block] ∧
    decodeTableWord 64 0xFFFF05 = some (.process 255 255) := by decide +kernel

/-- The same statement: the clauses of a host's turn, of a block's turn with nothing in flight, and of POLL. -/
theorem test_wit_stepHost :
    { idle5 with lines := [.poll] }.lines = .poll :: [] ∧ { idle5 with lines := [.poll] }.turns = [] ∧
    { idle5 with lines := [.poll] }.pending = none ∧
    { idle5 with lines := [.poll], turns := [.host] }.turns = .host :: [] ∧ idle5.lines = [] ∧ idle5.turns = [] ∧
    { idle5 with turns := [.host] }.turns = .host :: [] ∧ { idle5 with turns := [.block] }.turns = .block :: [] ∧
    processing5.status.busy = true ∧ idle5.status.busy = false := by decide +kernel

/-- ReservedWordsCompleteNotSupported: a Reserved word of each kind in flight. -/
theorem test_wit_reserved (w : Word) :
    { processing5 with pending := some { word := w, args := Args.reset } }.pending =
      some { word := w, args := Args.reset } ∧
    { processing5 with pending := some { word := w, args := Args.reset } }.turns = [] ∧
    ((0x0 : Word).extractLsb' 0 4 = 0 ∧ 7 ≤ ((0x7 : Word).extractLsb' 0 4).toNat ∧
      (0x81 : Word).extractLsb' 4 4 ≠ 0 ∧ (0x1000001 : Word).extractLsb' 24 40 ≠ 0) :=
  ⟨rfl, rfl, by decide⟩

/-- CmdWriteIssues, ArgWriteSetsOneRegister, ReadOnlyWindowWritesAreIgnored: an idle state, a command's word, the first
and the last operand register, and offsets at the edges of the ignored ranges. -/
theorem test_wit_idleWrites :
    idle5.status.busy = false ∧ idle5.status.fault = false ∧ (0xFFFF05 : Word) = encode (.process 255 255) ∧ 0 < 6 ∧ 5 < 6 ∧
    (∀ off ∈ [0x0, 0x8, 0x18, 0x50, 0x1000, 0x8000, 0x8FF8],
      off < 0x9000 ∧ off % 8 = 0 ∧ off ≠ 0x10 ∧ ¬ (0x20 ≤ off ∧ off < 0x50)) := by decide

/-- BusyWriteRaisesHostBusy: a busy state, the first and the last offset. -/
theorem test_wit_busyWrite :
    processing5.status.busy = true ∧ 0x0 < 0x9000 ∧ 0x0 % 8 = 0 ∧ 0x8FF8 < 0x9000 ∧ 0x8FF8 % 8 = 0 := by decide

/-- MisformedWindowAccessIsRefused: a narrow access, and a misaligned one at the top. -/
theorem test_wit_misformed : (0x20 < 0x9000 ∧ 4 ≠ 8) ∧ (0x8FFF < 0x9000 ∧ 0x8FFF % 8 ≠ 0) := by decide

/-- WindowReadsChangeNothing: an offset for each clause that reads 0, for two slots of each kind. -/
theorem test_wit_windowReads :
    idle5.ncfg = 2 ∧ idle5.nst = 2 ∧ 0x10 < 0x9000 ∧ 0x10 % 8 = 0 ∧ 0x50 < 0x1000 ∧ 0x50 % 8 = 0 ∧
    0x1000 + 0x40 * 2 ≤ 0x1080 ∧ 0x1080 < 0x8000 ∧ 0x8000 + 0x10 * 2 ≤ 0x8020 ∧ 0x8020 < 0x9000 ∧ 0x8020 % 8 = 0 ∧
    0x1028 < 0x1000 + 0x40 * 2 ∧ 0x28 ≤ (0x1028 - 0x1000) % 0x40 := by decide

/-- HostRegisterWritesLeaveTheSlots: a host write that is a move. -/
theorem test_wit_hostWrite : ∃ t, hostLine (.wr 0x100020 8 7) idle5 = .next t := ⟨_, rfl⟩

/-- HostMemoryDuty: a byte the pending PROCESS reads, one the pending BUILD_TABLE writes, and ones they do not. -/
theorem test_wit_hostMemory :
    processing5.status.busy = true ∧ 0x20 ∈ pendingReads processing5 ∧ 0x23 ∈ pendingReads processing5 ∧
    0x24 ∉ pendingReads processing5 ∧ 0x24 ∉ pendingWrites processing5 ∧
    building5.status.busy = true ∧ 0x100 ∈ pendingWrites building5 ∧ 0x1FF ∈ pendingWrites building5 ∧
    0x200 ∉ pendingWrites building5 ∧ idle5.status.busy = false := by decide +kernel

/-- The same statement: MEMWR of two bytes that ends inside the footprint, that starts just above it, and that ends at the
top of MEM. -/
theorem test_wit_hostMemory_two :
    (∃ i < [0x01#8, 0x02].length, 0x1F + i ∈ pendingReads processing5 ∨ 0x1F + i ∈ pendingWrites processing5) ∧
    (∀ i < [0x01#8, 0x02].length, 0x24 + i ∉ pendingReads processing5 ∧ 0x24 + i ∉ pendingWrites processing5) ∧
    2 ^ 64 - 2 + [0x01#8, 0x02].length ≤ 2 ^ 64 ∧ Memory.wf processing5.mem := by decide +kernel

/-- IdReadsTheParameters, WindowReadsTheRegisters: the most slots. -/
theorem test_wit_slots :
    1 ≤ State.reset.ncfg ∧ State.reset.ncfg ≤ 256 ∧ 1 ≤ State.reset.nst ∧ State.reset.nst ≤ 256 := by decide +kernel

/-- CtrlReadsItsFields, WindowReadsTheRegisters, ResetLeavesTheTabledValues: slots that exist. -/
theorem test_wit_slotReads :
    idle5.cfg[0]? = some (slot5 0) ∧ idle5.cfg[1]? = some CfgSlot.reset ∧ idle5.st[0]? = some fresh5 ∧
    State.reset.cfg[255]? = some CfgSlot.reset ∧ State.reset.st[255]? = some StSlot.reset := by decide +kernel

/-- ResetLeavesTheTabledValues: both kinds of state. -/
theorem test_wit_resetOf :
    (∃ s, s = State.resetOf (params .w8) 1 1 message5) ∧ (∃ s : State, s = State.reset ∧ 256 = 256) :=
  ⟨⟨_, rfl⟩, ⟨_, rfl, rfl⟩⟩

/-- BlockResetRestoresTheResetState: block reset with a BUILD_TABLE in flight, and the first and last byte it writes. -/
theorem test_wit_blockReset :
    { building5 with turns := [.blockReset] }.turns = .blockReset :: [] ∧ Memory.wf building5.mem ∧
    (0x100, 0x00) ∈ pendingCells building5 ∧ (0x1FF, 0xA0) ∈ pendingCells building5 ∧
    0x20 ∉ pendingWrites building5 := by decide +kernel

/-- StepKeepsTheInvariant: a state that meets the invariant, with a command in flight. -/
theorem test_wit_inv : processing5.Inv ∧ ∃ t, step processing5 = .next t := by
  refine ⟨⟨⟨test_wf5, by decide⟩, rfl, by unfold Status.inv; decide, fun c hc => ?_, fun x hx => ?_⟩, _, rfl⟩
  · rcases List.mem_cons.mp hc with rfl | hc
    · exact .inl ⟨rfl, test_configured5⟩
    · exact .inr (by simpa using hc)
  · have h : ∀ y ∈ [fresh5, StSlot.reset], y.value.toNat < 2 ^ 8 ∧ (y.phase = .uninit → y.value = 0) := by decide
    exact h x hx

/-- ResetMeetsTheInvariant: contents of MEM in canonical form, up to the last address. -/
theorem test_wit_memInv : Memory.inv [(0x1, 0x01), (0xFFFFFFFFFFFFFFFF, 0xFF)] :=
  ⟨by decide, by decide⟩

/-- InstanceNeverChanges, PhaseChangesOnlyAsTabled, ConfigurationsChangeOnlyAsAllowed, MemoryChangesOnlyAsAllowed: a step
of PROCESS, with slots to look at. -/
theorem test_wit_step :
    ∃ t, step processing5 = .next t ∧ processing5.st[0]? = some fresh5 ∧ (∃ y, t.st[0]? = some y) ∧
      processing5.cfg[0]? = some (slot5 0) ∧ (∃ d, t.cfg[0]? = some d) :=
  ⟨_, rfl, rfl, ⟨_, rfl⟩, rfl, ⟨_, rfl⟩⟩

/-- EveryCommandCompletes, the frames: a command in flight, and its next state. -/
theorem test_wit_exec :
    (∃ p, processing5.pending = some p) ∧ (∃ t, exec (.process 0 0) processing5 = .next t) ∧
    (∃ t, exec (.buildTable 0) building5 = .next t) ∧ building5.cfg[0]? = some (slot5 0) :=
  ⟨⟨_, rfl⟩, ⟨_, rfl⟩, ⟨_, rfl⟩, rfl⟩

/-- FaultIsSticky, FaultedBlockRunsNoCommand: an idle state after a fault, and its step. -/
theorem test_wit_faulted :
    { idle5 with status := faulted .bus }.status.fault = true ∧ { idle5 with status := faulted .bus }.pending = none ∧
    { idle5 with status := faulted .bus }.status.busy = false ∧
    (∀ rest, { idle5 with status := faulted .bus }.turns ≠ .blockReset :: rest) ∧
    ∃ t, step { idle5 with status := faulted .bus } = .next t :=
  ⟨rfl, rfl, rfl, by simp [idle5, State.resetOf], _, rfl⟩

/-- InvalidParamChangesNothing, InvalidParamExactly: the conditions of R222 at the boundary values, at `W = 8` with two
slots of each kind. First, CONFIGURE. -/
theorem test_wit_invalid_configure :
    ∀ a ∈ [ops 0x0 0 0, ops 0x100 0 0, ops 0x12 0x20 0, ops 0x12 0 0x20, ops 0x12 0 0 0 2 0, ops 0x12 0 0 0 0 2],
      invalidCase (.configure 0) a idle5 := by
  unfold invalidCase
  decide +kernel

/-- The same for BUILD_TABLE and PROCESS. -/
theorem test_wit_invalid_build :
    invalidCase (.buildTable 0) (ops 0x0 256 0) idle5 ∧ invalidCase (.buildTable 0) (ops 0x100 255 0) idle5 ∧
    invalidCase (.process 0 0) (ops 0x0 0 8) idle5 ∧ invalidCase (.process 0 0) (ops 0x20 8 8) idle5 ∧
    invalidCase (.process 0 0) (ops 0xFFFFFFFFFFFFFFFF 1 8) idle5 := by
  have h : ((ops 0x0 256 0).a0 = 0 ∧ (ops 0x100 255 0).a1.toNat ≠ tableSize (slot5 0).deg.toNat) ∧
      8 ≤ (ops 0x20 8 8).a1.toNat ∧ 2 ^ 64 < (ops 0xFFFFFFFFFFFFFFFF 1 8).a0.toNat + bytesTouched 1 8 := by decide +kernel
  exact ⟨.inr ⟨_, rfl, rfl, .inl h.1.1⟩, .inr ⟨_, rfl, rfl, .inr (.inl h.1.2)⟩,
    .inr (.inr ⟨_, _, rfl, rfl, rfl, .inl rfl, .inl rfl⟩), .inr (.inr ⟨_, _, rfl, rfl, rfl, .inl rfl, .inr (.inl h.2.1)⟩),
    .inr (.inr ⟨_, _, rfl, rfl, rfl, .inl rfl, .inr (.inr h.2.2)⟩)⟩

/-- The same for the slot indices of each command. -/
theorem test_wit_invalid_index :
    invalidCase (.configure 2) (ops 0x12 0 0) idle5 ∧ invalidCase (.buildTable 2) (ops 0x100 256 0) idle5 ∧
    invalidCase (.reset 2 0) Args.reset idle5 ∧ invalidCase (.reset 0 2) Args.reset idle5 ∧
    invalidCase (.process 2 0) (ops 0x20 0 8) idle5 ∧ invalidCase (.process 0 2) (ops 0x20 0 8) idle5 ∧
    invalidCase (.finalize 2 0) Args.reset idle5 ∧ invalidCase (.finalize 0 2) Args.reset idle5 := by
  have h : 2 ≤ 2 := Nat.le_refl 2
  exact ⟨.inl h, .inl h, .inl h, .inr h, .inl h, .inr (.inl h), .inl h, .inr h⟩

/-- The same for table addresses that are not aligned, at `W = 16`. -/
theorem test_wit_invalid_aligned :
    invalidCase (.configure 0) (ops 0xC002 0 0 0x1001)
      (busy .w16 slot16 fresh5 [] (.configure 0) (ops 0xC002 0 0 0x1001)) ∧
    invalidCase (.buildTable 0) (ops 0x1001 512 0)
      (busy .w16 slot16 fresh5 [] (.buildTable 0) (ops 0x1001 512 0)) := by
  have h : (0x1001 : Word) ≠ 0 ∧ (0x1001 : Word).toNat % (16 / 8) ≠ 0 := by decide
  exact ⟨.inr (.inr (.inr (.inl h))), .inr ⟨_, rfl, rfl, .inr (.inr h.2)⟩⟩

/-- InvalidParamExactly: a command in flight, no INVALID_PARAM and no fault before, a next state after. -/
theorem test_wit_invalidExactly :
    processing5.status.code ≠ .invalidParam ∧ processing5.status.fault = false ∧ ∃ t, exec (.process 0 0) processing5 = .next t := ⟨by decide, rfl, _, rfl⟩

/-- The state with the given State slot and an empty Configuration slot 1. -/
def withPhase (x : StSlot) : State := busy .w8 (slot5 0) x [] (.process 0 0) (ops 0x20 0 8)

/-- ContractFaultsAreTaken: each cause. -/
theorem test_wit_contract :
    contractCause (.buildTable 1) building5 .unconfigured ∧ contractCause (.reset 1 0) idle5 .unconfigured ∧
    contractCause (.process 1 0) idle5 .unconfigured ∧ contractCause (.process 0 1) idle5 .stateUninit ∧
    contractCause (.process 0 0) (withPhase { value := 7, phase := .final }) .stateFinal ∧
    contractCause (.finalize 1 0) idle5 .unconfigured ∧ contractCause (.finalize 0 1) idle5 .stateUninit ∧
    contractCause (.finalize 0 0) (withPhase { value := 7, phase := .final }) .stateFinal :=
  ⟨⟨_, rfl, rfl, rfl⟩, ⟨_, _, rfl, rfl, rfl, rfl⟩, ⟨_, _, rfl, rfl, .inl ⟨rfl, rfl⟩⟩,
    ⟨_, _, rfl, rfl, .inr (.inl ⟨rfl, rfl, rfl⟩)⟩, ⟨_, _, rfl, rfl, .inr (.inr ⟨rfl, rfl, rfl⟩)⟩,
    ⟨_, _, rfl, rfl, .inl ⟨rfl, rfl⟩⟩, ⟨_, _, rfl, rfl, .inr (.inl ⟨rfl, rfl, rfl⟩)⟩,
    ⟨_, _, rfl, rfl, .inr (.inr ⟨rfl, rfl, rfl⟩)⟩⟩

/-- ConfigureWritesTheSlot: operands at their bounds, `d = W`, both orders LSB. -/
theorem test_wit_configure :
    ¬ invalidCase (.configure 1) (ops 0xFF 0xFF 0xFF 0x103 1 1) idle5 ∧ (∃ p, processing5.pending = some p) := by
  refine ⟨?_, _, rfl⟩
  unfold invalidCase
  decide +kernel

/-- CanonicalFormsSitInTheirBits, DegreeIsRecoverable, KernelKeepsThePadding, EntryWidthsFollowTheDegree: configured slots
of both input orders, and registers that meet the padding. -/
theorem test_wit_configured :
    (slot5 0).configured .w8 ∧ (slot5 0).inOrder = .msb ∧ slot16.configured .w16 ∧ slot16.inOrder = .lsb ∧
    (0xF8 : Word).toNat < 2 ^ 8 ∧ (0xF8 : Word).toNat % 2 ^ (8 - 5) = 0 ∧ (0xFFFF : Word).toNat < 2 ^ 16 :=
  ⟨test_configured5, rfl, test_configured16, rfl, by decide⟩

/-- OutputMaskAppliesInOutputOrientation, KernelIsTheTextbookRegister: operands that pass the checks, and registers. -/
theorem test_wit_checks :
    configChecks .w8 (ops 0x12 0x1F 0x1F) = true ∧ bitlen 0x12 = 5 ∧ (0xF8 : Word).toNat % 2 ^ (8 - 5) = 0 ∧
    (0x1F : Word).toNat < 2 ^ 5 := by decide +kernel

/-- MirrorReversesBits: the largest index and value. -/
theorem test_wit_mirror : 63 < 64 ∧ 7 < Width.w8.bits ∧ (0xFF : Word).toNat < 2 ^ Width.w8.bits := by decide

/-- SizeofTableGivesTheTableSize: a command in flight. -/
theorem test_wit_sizeof : ∃ p, (busy .w8 (slot5 0) fresh5 [] .sizeofTable (ops 0x100 0 0)).pending = some p := ⟨_, rfl⟩

/-- BuildTableFillsAndAttaches. -/
theorem test_wit_build :
    building5.pending = some { word := 0x2, args := ops 0x100 256 0 } ∧ building5.cfg[0]? = some (slot5 0) ∧
    (slot5 0).valid = true ∧ Memory.wf building5.mem ∧
    rangeAdmitted building5.params .write 0x100 (tableSize (slot5 0).deg.toNat) := by decide +kernel

/-- The operands of the same command pass its checks, for every platform. -/
theorem test_wit_build_valid (r : List Config.Region) :
    ¬ invalidCase (.buildTable 0) (ops 0x100 256 0)
      { building5 with params := { width := .w8, regBase := 0x100000, regions := r } } := by
  have h : ¬ ((ops 0x100 256 0).a0 = 0 ∨ (ops 0x100 256 0).a1.toNat ≠ tableSize (slot5 0).deg.toNat ∨
      (ops 0x100 256 0).a0.toNat % (8 / 8) ≠ 0) := by decide +kernel
  rintro (h0 | ⟨c, hc, -, h1⟩)
  · exact absurd h0 (Nat.not_succ_le_zero 1)
  · obtain rfl : slot5 0 = c := by simpa [building5, busy] using hc
    exact h h1

/-- BuildTableBusFaultKeepsTheBytesBefore: the first byte that is not admitted at either end of the table; the other
hypotheses are those of the two witnesses above. -/
theorem test_wit_buildBus :
    ∀ n ∈ [0, 255], n < tableSize (slot5 0).deg.toNat ∧ rangeAdmitted (only .w8 0x100 n) .write 0x100 n ∧
      memAdmit (only .w8 0x100 n) .write (0x100 + n) = false := by decide +kernel

/-- HostMemoryDuty, BlockResetRestoresTheResetState: BUILD_TABLE in flight with its whole table admitted, and with the
first byte not admitted at either end. -/
theorem test_wit_buildsUpTo :
    buildsUpTo building5 { word := 0x2, args := ops 0x100 256 0 } 0 (slot5 0) 256 ∧
    ∀ n ∈ [0, 255], buildsUpTo { building5 with params := only .w8 0x100 n, turns := [.blockReset] }
      { word := 0x2, args := ops 0x100 256 0 } 0 (slot5 0) n := by
  have hd : decode 0x2 = .ok (.buildTable 0) := by decide
  have hs : tableSize (slot5 0).deg.toNat = 256 := by decide +kernel
  refine ⟨⟨rfl, hd, rfl, rfl, test_wit_build_valid _, hs.ge, by decide +kernel, fun h => absurd h (by omega)⟩,
    fun n hn => ?_⟩
  obtain ⟨h1, h2, h3⟩ := test_wit_buildBus n hn
  exact ⟨rfl, hd, rfl, rfl, test_wit_build_valid _, h1.le, h2, fun _ => h3⟩

/-- BlockResetRestoresTheResetState: block reset with a command other than BUILD_TABLE in flight. -/
theorem test_wit_blockReset_process :
    { processing5 with turns := [.blockReset] }.turns = .blockReset :: [] ∧
    ∀ p ci, processing5.pending = some p → decode p.word ≠ .ok (.buildTable ci) := by
  refine ⟨rfl, fun p ci h => ?_⟩
  have hd : decode 0x5 = .ok (.process 0 0) := by decide
  cases h
  exact hd ▸ nofun

/-- LutKernelIsTheBitKernel, TableAssistedEqualsBitwise: a configured slot, its table, the largest register and offset, and
an admitted range. -/
theorem test_wit_lut :
    (slot5 0x100).configured (params .w8).width ∧ holdsTable (params .w8) table5 (slot5 0x100) ∧
    (0xFF : Word).toNat < 2 ^ (params .w8).width.bits ∧ rangeAdmitted (params .w8) .read 0x20 4 ∧ 7 < 8 :=
  ⟨test_configured5_table, test_holdsTable5, by decide +kernel⟩

/-- ResetStartsAChecksum, FinalizeWritesTheChecksum: each clause at the last slots. -/
theorem test_wit_reset :
    idle5.ncfg ≤ 2 ∧ idle5.nst ≤ 2 ∧ idle5.cfg[1]? = some CfgSlot.reset ∧ idle5.st[1]? = some StSlot.reset ∧
    CfgSlot.reset.valid = false ∧ idle5.cfg[0]? = some (slot5 0) ∧ idle5.st[0]? = some fresh5 ∧
    (slot5 0).valid = true ∧ fresh5.phase = .fresh ∧ (∃ p, processing5.pending = some p) :=
  ⟨by decide, by decide, rfl, rfl, rfl, rfl, rfl, rfl, rfl, _, rfl⟩

/-- PROCESS of V2's message in flight passes its checks. -/
theorem test_not_invalid {s : State} (hn : s.ncfg = 2)
    (hm : s.nst = 2) : ¬ invalidCase (.process 0 0) (ops 0x20 0 28) s := by
  have h0 : ¬ ((ops 0x20 0 28).a0 = 0 ∨ 8 ≤ (ops 0x20 0 28).a1.toNat ∨
      2 ^ 64 < (ops 0x20 0 28).a0.toNat + bytesTouched (ops 0x20 0 28).a1.toNat (ops 0x20 0 28).a2.toNat) := by
    decide +kernel
  rintro (h | h | ⟨c, x, -, -, -, -, h⟩)
  · exact absurd h (by omega)
  · exact absurd h (by omega)
  · exact h0 h

/-- ProcessRunsTheBitwiseKernel; its operands pass by `test_not_invalid`. -/
theorem test_wit_process :
    processing5.pending = some { word := 0x5, args := ops 0x20 0 28 } ∧ processing5.cfg[0]? = some (slot5 0) ∧
    processing5.st[0]? = some fresh5 ∧ (slot5 0).valid = true ∧ fresh5.phase = .fresh ∧ (slot5 0).table = 0 ∧
    rangeAdmitted processing5.params .read 0x20 (bytesTouched 0 28) ∧ processing5.ncfg = 2 ∧ processing5.nst = 2 := by
  decide +kernel

/-- The same with the table attached. -/
def processing5t : State := busy .w8 (slot5 0x100) fresh5 table5 (.process 0 0) (ops 0x20 0 28)

/-- ProcessRunsTheTableKernel; its operands pass by `test_not_invalid`. -/
theorem test_wit_processTable :
    processing5t.pending = some { word := 0x5, args := ops 0x20 0 28 } ∧ processing5t.cfg[0]? = some (slot5 0x100) ∧
    processing5t.st[0]? = some fresh5 ∧ (slot5 0x100).valid = true ∧ fresh5.phase = .fresh ∧ (slot5 0x100).table ≠ 0 ∧
    fresh5.value.toNat < 2 ^ processing5t.W ∧ processing5t.ncfg = 2 ∧ processing5t.nst = 2 := by decide +kernel

/-- The premises about the table in the same state. -/
theorem test_wit_processTable_table :
    (slot5 0x100).configured processing5t.params.width ∧
    holdsTable processing5t.params processing5t.mem (slot5 0x100) ∧
    rangeAdmitted processing5t.params .read 0x20 (bytesTouched 0 28) := by
  have hr : rangeAdmitted (params .w8) .read 0x20 (bytesTouched 0 28) := by decide +kernel
  have hp : processing5t.params = params .w8 := rfl
  have hm : processing5t.mem = table5 := busy_mem _ _ _ table5 _ _
  rw [hp, hm]
  exact ⟨test_configured5_table, test_holdsTable5, hr⟩

/-- A table whose entry 15 is 0x3C and whose other entries are 0, as no slot's own table is. -/
def foreign (i : Nat) : Option Word := some (if i = 15 then 0x3C else 0)

/-- PROCESS of 23 bits at offset 4 under register 0x0F, over message bytes of 0 and the foreign table at 0x100. -/
def processingForeign : State :=
  busy .w8 (slot5 0x100) { value := 0x0F, phase := .accum } [(0x10F, 0x3C)] (.process 0 0) (ops 0x20 4 23)

/-- ProcessTakesTheTableAsItIs: a leading piece of 4 bits, two table bytes and a trailing piece of 3 bits. The leading
zeros take 0x0F to 0xF0, whose entry is 0, and the rest stays 0. -/
theorem test_wit_asItIs :
    processingForeign.pending = some { word := 0x5, args := ops 0x20 4 23 } ∧
    processingForeign.cfg[0]? = some (slot5 0x100) ∧ (slot5 0x100).valid = true ∧
    processingForeign.st[0]? = some { value := 0x0F, phase := .accum } ∧ (slot5 0x100).table ≠ 0 ∧
    rangeAdmitted processingForeign.params .read 0x20 (bytesTouched 4 23) ∧
    tableReads processingForeign.params processingForeign.mem (slot5 0x100) foreign ∧
    tableRange processingForeign.W (slot5 0x100) processingForeign.mem foreign 0x0F 0x20 4 23 = some 0 := by
  have h : ∀ i < 256, entryBytes (slot5 0x100).deg.toNat = 1 ∧ ((if i = 15 then 0x3C else 0 : Word)).toNat < 2 ^ (8 * 1) ∧
      ∀ j < 1, memAdmit (params .w8) .read (0x100 + i * 1 + j) = true ∧
        ((if i = 15 then 0x3C else 0 : Word)).extractLsb' (8 * j) 8 = Memory.read [(0x10F, 0x3C)] (0x100 + i * 1 + j) := by
    decide +kernel
  refine ⟨rfl, rfl, rfl, rfl, by decide, by decide +kernel, fun i hi => ⟨fun hn => by simp [foreign] at hn, ?_⟩,
    by decide +kernel⟩
  rintro v hv
  obtain rfl : (if i = 15 then 0x3C else 0 : Word) = v := by simpa [foreign] using hv
  obtain ⟨he, hlt, hb⟩ := h i hi
  rw [he]
  exact ⟨hlt, hb⟩

/-- The operands of the same command pass its checks. -/
theorem test_wit_asItIs_valid : ¬ invalidCase (.process 0 0) (ops 0x20 4 23) processingForeign := by
  have h0 : ¬ ((ops 0x20 4 23).a0 = 0 ∨ 8 ≤ (ops 0x20 4 23).a1.toNat ∨
      2 ^ 64 < (ops 0x20 4 23).a0.toNat + bytesTouched (ops 0x20 4 23).a1.toNat (ops 0x20 4 23).a2.toNat) := by
    decide +kernel
  rintro (h | h | ⟨c, x, -, -, -, -, h⟩)
  · exact absurd h (Nat.not_succ_le_zero 1)
  · exact absurd h (Nat.not_succ_le_zero 1)
  · exact h0 h

/-- PROCESS of V2's message in flight with the given table attached, the last message byte and all after it not
admitted. -/
def processingCut (t : Word) : State :=
  { busy .w8 (slot5 t) fresh5 message5 (.process 0 0) (ops 0x20 0 28) with params := only .w8 0x20 3 }

/-- ProcessBusFaultLeavesAnOpenValue: the last byte of the range is not admitted, whatever table is attached; the operands
pass by `test_not_invalid`. -/
theorem test_wit_processBus (t : Word) :
    (processingCut t).cfg[0]? = some (slot5 t) ∧ (processingCut t).st[0]? = some fresh5 ∧ (slot5 t).valid = true ∧
    fresh5.phase = .fresh ∧ 3 < bytesTouched 0 28 ∧ memAdmit (processingCut t).params .read (0x20 + 3) = false ∧
    (processingCut t).ncfg = 2 ∧ (processingCut t).nst = 2 := by
  have h : memAdmit (only .w8 0x20 3) .read (0x20 + 3) = false := by decide +kernel
  exact ⟨rfl, rfl, rfl, rfl, by decide, h, rfl, rfl⟩

/-- The table alternative of the same statement: the message is admitted, no byte of the table is. -/
theorem test_wit_processBusTable :
    (slot5 0x100).table ≠ 0 ∧ tableReads (only .w8 0x20 4) message5 (slot5 0x100) (fun _ => none) ∧
    tableRange 8 (slot5 0x100) message5 (fun _ => none) 0xF8 0x20 0 28 = none := by
  have h : ∀ i < 256, 0 < entryBytes (slot5 0x100).deg.toNat ∧
      memAdmit (only .w8 0x20 4) .read ((slot5 0x100).table.toNat + i * entryBytes (slot5 0x100).deg.toNat + 0) = false := by
    decide +kernel
  exact ⟨by decide, fun i hi => ⟨fun _ => ⟨0, h i hi⟩, fun v hv => by simp at hv⟩, by decide +kernel⟩

/-- ProcessReadsOnlyItsFootprint: other contents outside the message bytes. -/
theorem test_wit_footprint :
    processing5.pending = some { word := 0x5, args := ops 0x20 0 28 } ∧ decode 0x5 = .ok (.process 0 0) ∧
    (∀ a ∈ pendingReads processing5, Memory.read (Memory.write message5 0x24 0xFF) a = Memory.read processing5.mem a) ∧
    (after (exec (.process 0 0) processing5)).isSome = true := by decide +kernel

/-- DistinctStateSlotsDoNotInteract: the other slot. -/
theorem test_wit_distinct : 1 ≠ 0 ∧ ∃ t, exec (.process 0 0) processing5 = .next t := ⟨by decide, _, rfl⟩

/-- V2's message in two chunks that meet inside a byte. -/
def chunks5 : List Args := [ops 0x20 0 12, ops 0x21 4 16]

/-- The chunks meet the hypotheses of StreamingJoinsTheBitLists and ChecksumHasTheClosedForm. -/
theorem test_wit_chunks :
    ∀ a ∈ chunks5, a.a0 ≠ 0 ∧ a.a1.toNat < 8 ∧ a.a0.toNat + bytesTouched a.a1.toNat a.a2.toNat ≤ 2 ^ 64 ∧
      rangeAdmitted (params .w8) .read a.a0.toNat (bytesTouched a.a1.toNat a.a2.toNat) := by decide +kernel

/-- StreamingJoinsTheBitLists, ChecksumHasTheClosedForm, EmptyMessageChecksum: the other hypotheses, with no table. -/
theorem test_wit_stream :
    idle5.turns = [] ∧ idle5.cfg[0]? = some (slot5 0) ∧ idle5.st[0]? = some fresh5 ∧ (slot5 0).valid = true ∧
    fresh5.phase = .fresh ∧ (slot5 0).table = 0 ∧ configChecks idle5.params.width (ops 0x12 0x1F 0x1F) = true ∧
    slot5 0 = configSlot idle5.W 0x12 0x1F 0x1F 0 .msb .msb := by decide +kernel

/-- The same with a table: its address is aligned and MEM holds it. -/
theorem test_wit_streamTable :
    holdsTable (params .w8) table5 (configSlot 8 0x12 0x1F 0x1F 0x100 .msb .msb) ∧
    tableAligned (params .w8).width 0x100 = true ∧ fresh5.value.toNat < 2 ^ (params .w8).width.bits :=
  ⟨test_holdsTable5, by decide +kernel⟩

end Sys2Proof.Tests
end

section
/-! SUPPORT. No step changes the parameters of the instance (R7): each agent's move keeps them. -/

namespace Sys2Proof.Machine

/-- `t` belongs to the instance of `s`: the same `W`, REG_BASE and MemAdmit, and as many slots of each kind (R7). -/
def State.SameInstance (s t : State) : Prop := t.params = s.params ∧ t.ncfg = s.ncfg ∧ t.nst = s.nst

theorem State.SameInstance.refl (s : State) : s.SameInstance s := ⟨rfl, rfl, rfl⟩

theorem State.SameInstance.trans {s t u : State} (hst : s.SameInstance t) (htu : t.SameInstance u) :
    s.SameInstance u := by
  obtain ⟨hp, hc, hs⟩ := hst
  obtain ⟨hp', hc', hs'⟩ := htu
  exact ⟨hp'.trans hp, hc'.trans hc, hs'.trans hs⟩

/-! ### The operations a move is made of -/

theorem State.sameInstance_setCfg (s : State) (k : Nat) (c : CfgSlot) : s.SameInstance (s.setCfg k c) :=
  ⟨rfl, List.length_set, rfl⟩

theorem State.sameInstance_setSt (s : State) (j : Nat) (x : StSlot) : s.SameInstance (s.setSt j x) :=
  ⟨rfl, rfl, List.length_set⟩

theorem State.sameInstance_finish (s : State) (c : StatusCode) : s.SameInstance (s.finish c) := ⟨rfl, rfl, rfl⟩

theorem State.sameInstance_raise (s : State) (c : Cause) : s.SameInstance (s.raise c) :=
  ⟨s.raise_params c, congrArg List.length (s.raise_cfg c), congrArg List.length (s.raise_st c)⟩

theorem State.sameInstance_retire (s : State) : s.SameInstance s.retire := ⟨rfl, rfl, rfl⟩

theorem State.sameInstance_clearBlock (s : State) : s.SameInstance s.clearBlock :=
  ⟨rfl, List.length_replicate, List.length_replicate⟩

theorem State.sameInstance_giveBack (s : State) (v : Word) : s.SameInstance (giveBack v s) := ⟨rfl, rfl, rfl⟩

theorem State.sameInstance_issue (s : State) (w : Word) : s.SameInstance (issue w s) := by
  unfold issue
  split
  · exact .refl s
  · exact ⟨rfl, rfl, rfl⟩

/-! ### The block's moves -/

theorem State.sameInstance_buildInto (s : State) (ci : Nat) (c : CfgSlot) (t : Word) :
    s.SameInstance (buildInto ci c t s) := by
  rcases buildInto_cases ci c t s with ⟨-, h⟩ | ⟨-, h⟩ <;> rw [h]
  · exact (State.sameInstance_setCfg { s with mem := _ } ci _).trans (State.sameInstance_finish _ _)
  · exact State.sameInstance_raise { s with mem := _ } .bus

theorem State.sameInstance_busInProcess (s : State) (si : Nat) (x : StSlot) :
    s.SameInstance (busInProcess si x s) :=
  (State.sameInstance_setSt s.drawWord.2 si _).trans (State.sameInstance_raise _ _)

/-- Every command keeps the instance, whichever way its rule ends. -/
theorem State.sameInstance_ruleOf (s : State) (i : Instr) (a : Args) : s.SameInstance (ruleOf i a s) := by
  have setSt_finish (j : Nat) (x : StSlot) : s.SameInstance ((s.setSt j x).finish .success) :=
    (s.sameInstance_setSt j x).trans (State.sameInstance_finish _ _)
  rcases ruleOf_cases i a s with h | ⟨cause, h⟩ | ⟨ci, c, -, h⟩ | ⟨r, -, h⟩ | ⟨ci, c, -, -, -, h⟩ | ⟨ci, si, v, -, h⟩ |
    ⟨ci, si, x, v, -, -, -, h⟩ | ⟨ci, si, x, -, -, -, h⟩ | ⟨ci, si, x, v, -, -, -, h⟩ <;> rw [h]
  · exact s.sameInstance_finish _
  · exact s.sameInstance_raise cause
  · exact (s.sameInstance_setCfg ci c).trans (State.sameInstance_finish _ _)
  · exact ⟨rfl, rfl, rfl⟩
  · exact s.sameInstance_buildInto ci c _
  · exact setSt_finish si _
  · exact setSt_finish si _
  · exact s.sameInstance_busInProcess si x
  · exact setSt_finish si _

theorem State.sameInstance_of_exec {i : Instr} {s t : State} (h : exec i s = .next t) : s.SameInstance t := by
  obtain ⟨p, -, rfl⟩ := exec_eq_next.mp h
  exact (s.sameInstance_ruleOf i p.args).trans (State.sameInstance_retire _)

theorem State.sameInstance_of_blockTurn {s t : State} (h : blockTurn s = .next t) : s.SameInstance t := by
  rcases blockTurn_cases h with ⟨-, rfl⟩ | ⟨p, i, -, -, hexec⟩ | ⟨p, e, -, -, rfl⟩
  · exact .refl t
  · exact State.sameInstance_of_exec hexec
  · exact (s.sameInstance_finish _).trans (State.sameInstance_retire _)

theorem State.sameInstance_blockReset (s : State) : s.SameInstance (blockReset s) :=
  State.sameInstance_clearBlock { s with mem := _, draws := _ }

/-! ### The hosts' moves -/

theorem State.sameInstance_writeReg (s : State) (r : Reg) (v : Word) : s.SameInstance (writeReg r v s) := by
  cases r with
  | cmd => exact s.sameInstance_issue v
  | arg i => exact ⟨rfl, rfl, rfl⟩
  | id | status | result | cfg | st | unmapped => exact .refl s

theorem State.sameInstance_hostWrite (s : State) (off : Nat) (v : Word) : s.SameInstance (hostWrite off v s) := by
  unfold hostWrite
  split
  · exact s.sameInstance_raise .hostBusy
  · exact s.sameInstance_writeReg _ v

theorem State.sameInstance_of_hostLine {l : HostLine} {s t : State} (h : hostLine l s = .next t) :
    s.SameInstance t := by
  rcases hostLine_cases h with ⟨addr, size, v, off, -, -, rfl⟩ | ⟨v, rfl⟩ | ⟨a, bs, -, -, -, rfl⟩ | ⟨-, -, rfl⟩ |
    ⟨-, -, rfl⟩
  · exact s.sameInstance_hostWrite off v
  · exact s.sameInstance_giveBack v
  · exact ⟨rfl, rfl, rfl⟩
  · exact ⟨rfl, rfl, rfl⟩
  · exact .refl t

theorem State.sameInstance_of_hostTurn {s t : State} (h : hostTurn s = .next t) : s.SameInstance t := by
  rcases hostTurn_cases h with ⟨-, rfl⟩ | ⟨l, rest, -, hline⟩
  · exact .refl t
  · exact State.sameInstance_of_hostLine (s := { s with lines := rest }) hline

/-! ### The step -/

theorem State.sameInstance_of_step {s t : State} (h : step s = .next t) : s.SameInstance t := by
  obtain ⟨s₀, hs₀, hmove⟩ := step_cases h
  have hturn : s.SameInstance s₀ := by
    rcases hs₀ with rfl | ⟨u, rest, -, rfl⟩
    · exact .refl s₀
    · exact ⟨rfl, rfl, rfl⟩
  refine hturn.trans ?_
  rcases hmove with ⟨hhost, -, -⟩ | ⟨hblock, -, -⟩ | ⟨rfl, -⟩
  · exact State.sameInstance_of_hostTurn hhost
  · exact State.sameInstance_of_blockTurn hblock
  · exact s₀.sameInstance_blockReset

/-- Settles O23: the turn taken and the move made, by a host, the block or the platform, each keep the instance. -/
theorem instanceNeverChanges : Obligations.InstanceNeverChanges := fun _ _ => State.sameInstance_of_step

end Sys2Proof.Machine
end

section
/-! SUPPORT. The invariant of the machine: each operation a move is made of keeps it, so every move does. -/

namespace Sys2Proof.Machine

/-! ### The invariant of one slot -/

theorem CfgSlot.inv_reset (w : Width) : CfgSlot.reset.inv w := .inr rfl

theorem StSlot.inv_reset (w : Width) : StSlot.reset.inv w := ⟨Nat.two_pow_pos _, fun _ => rfl⟩

theorem CfgSlot.inv_of_mem_replicate {n : Nat} {w : Width} {c : CfgSlot} (h : c ∈ List.replicate n CfgSlot.reset) :
    c.inv w := List.eq_of_mem_replicate h ▸ CfgSlot.inv_reset w

theorem StSlot.inv_of_mem_replicate {n : Nat} {w : Width} {x : StSlot} (h : x ∈ List.replicate n StSlot.reset) :
    x.inv w := List.eq_of_mem_replicate h ▸ StSlot.inv_reset w

theorem Status.inv_reset : Status.reset.inv := ⟨⟨fun _ => rfl, fun _ => rfl⟩, nofun⟩

/-- A valid slot of a reachable state was written by a CONFIGURE (R22). -/
theorem CfgSlot.inv.configured {w : Width} {c : CfgSlot} (h : c.inv w) (hv : c.valid = true) : c.configured w := by
  rcases h with ⟨-, hc⟩ | rfl
  · exact hc
  · cases hv

/-- A slot that is no longer UNINIT meets its invariant by its bound alone (R23). -/
theorem StSlot.inv_of_phase_ne {w : Width} {v : Word} {p : Phase} (hv : v.toNat < 2 ^ w.bits) (hp : p ≠ .uninit) :
    StSlot.inv w { value := v, phase := p } := ⟨hv, fun h => absurd h hp⟩

/-- What a CONFIGURE that passes its checks writes is a configured slot (R108). -/
theorem CfgSlot.inv_configSlot {w : Width} {a : Args} {io oo : BitOrder} (hk : configChecks w a = true)
    (hi : orderOfOperand a.inputOrder = some io) (ho : orderOfOperand a.outputOrder = some oo) :
    (configSlot w.bits a.polynomial a.inputXor a.outputXor a.cfgTable io oo).inv w := by
  obtain ⟨-, -, hal, -, -⟩ := configChecks_spec hk
  exact .inl ⟨rfl, a, io, oo, hk, hi, ho, hal, rfl⟩

/-- Attaching an aligned table keeps a slot configured (R136). -/
theorem CfgSlot.inv_attach {w : Width} {c : CfgSlot} {t : Word} (h : c.inv w) (hv : c.valid = true)
    (ht : tableAligned w t = true) : CfgSlot.inv w { c with table := t } := by
  obtain ⟨a, io, oo, hk, hi, ho, -, hc⟩ := h.configured hv
  refine .inl ⟨hv, a, io, oo, hk, hi, ho, ht, ?_⟩
  rw [hc]

theorem buildChecks_aligned {w : Width} {c : CfgSlot} {a : Args} (h : buildChecks w c a = true) :
    tableAligned w a.buildTable = true := by
  unfold buildChecks at h
  exact (Bool.and_eq_true_iff.mp h).2

/-- The correction of FINALIZE keeps the register within `W` bits (R201). -/
theorem correct_lt {w : Nat} (hw : w ≤ 64) (c : CfgSlot) {v : Word} (hv : v.toNat < 2 ^ w) :
    (correct w c v).toNat < 2 ^ w := by
  unfold correct
  extract_lets v'
  have hv' : v'.toNat < 2 ^ w := by
    dsimp only [v']
    split
    · exact mirror_lt hw v
    · exact hv
  cases c.outOrder
  · exact ushiftRight_lt hv' _
  · exact hv'

/-- PROCESS and FINALIZE go on exactly from FRESH and ACCUM (R24). -/
theorem phaseCause_eq_none {p : Phase} : phaseCause p = none ↔ p = .fresh ∨ p = .accum := by
  cases p <;> simp [phaseCause]

theorem phaseCause_ne_none {p : Phase} {cause : Cause} (h : phaseCause p = some cause) : cause ≠ .none := by
  rintro rfl
  cases p <;> cases h

/-! ### The bytes a move writes -/

/-- A run of bytes ends where its length says. -/
theorem cellsAt_lt {a : Nat} {bs : List Byte} {c : Host.Cell} (h : c ∈ cellsAt a bs) : c.1 < a + bs.length := by
  have hmem : c.1 ∈ (cellsAt a bs).map Prod.fst := List.mem_map_of_mem h
  rw [cellsAt_map_fst, List.mem_range'_1] at hmem
  exact hmem.2

/-- The bytes an abandoned BUILD_TABLE may have written are admitted, so they are addresses of MEM (R56). -/
theorem pendingCells_lt {s : State} {c : Host.Cell} (h : c ∈ pendingCells s) : c.1 < 2 ^ 64 := by
  unfold pendingCells at h
  split at h
  · cases h
  · split at h
    · unfold buildCells at h
      split at h
      · cases h
      · split at h
        · exact memAdmit_lt (List.mem_takeWhile_imp (p := fun c : Host.Cell => memAdmit s.params .write c.1) h)
        · cases h
    · cases h

namespace State.Inv

variable {s : State}

/-! ### The operations a move is made of -/

theorem finish (h : s.Inv) {c : StatusCode} (hc : c ≠ .failed) : (s.finish c).Inv :=
  ⟨h.mem, h.busy, ⟨h.status.1, hc⟩, h.cfg, h.st⟩

theorem raise (h : s.Inv) {c : Cause} (hc : c ≠ .none) : (s.raise c).Inv := by
  unfold State.raise
  split
  · exact h
  · exact ⟨h.mem, h.busy, ⟨⟨nofun, fun h0 => absurd h0 hc⟩, h.status.2⟩, h.cfg, h.st⟩

theorem setCfg (h : s.Inv) (k : Nat) {c : CfgSlot} (hc : c.inv s.params.width) : (s.setCfg k c).Inv := by
  refine ⟨h.mem, h.busy, h.status, fun d hd => ?_, h.st⟩
  rcases List.mem_or_eq_of_mem_set hd with hd | rfl
  · exact h.cfg d hd
  · exact hc

theorem setSt (h : s.Inv) (j : Nat) {x : StSlot} (hx : x.inv s.params.width) : (s.setSt j x).Inv := by
  refine ⟨h.mem, h.busy, h.status, h.cfg, fun y hy => ?_⟩
  rcases List.mem_or_eq_of_mem_set hy with hy | rfl
  · exact h.st y hy
  · exact hx

/-- A successful RESET, PROCESS or FINALIZE: the slot is written and leaves UNINIT. -/
theorem finishSt (h : s.Inv) (j : Nat) {v : Word} {p : Phase} (hv : v.toNat < 2 ^ s.W) (hp : p ≠ .uninit) :
    ((s.setSt j { value := v, phase := p }).finish .success).Inv :=
  (h.setSt j (StSlot.inv_of_phase_ne hv hp)).finish nofun

theorem withMem (h : s.Inv) {m : Memory} (hm : Memory.inv m) : State.Inv { s with mem := m } :=
  ⟨hm, h.busy, h.status, h.cfg, h.st⟩

theorem withResult (h : s.Inv) (r : Word) : State.Inv { s with result := r } :=
  ⟨h.mem, h.busy, h.status, h.cfg, h.st⟩

theorem retire (h : s.Inv) : s.retire.Inv := ⟨h.mem, rfl, h.status, h.cfg, h.st⟩

theorem drawWord (h : s.Inv) : s.drawWord.2.Inv := ⟨h.mem, h.busy, h.status, h.cfg, h.st⟩

theorem clearBlock (hm : Memory.inv s.mem) : s.clearBlock.Inv :=
  ⟨hm, rfl, Status.inv_reset, fun _ => CfgSlot.inv_of_mem_replicate, fun _ => StSlot.inv_of_mem_replicate⟩

/-! ### The commands -/

theorem configureRule (h : s.Inv) (ci : Nat) (a : Args) : (configureRule ci a s).Inv := by
  rcases configureRule_cases ci a s with ⟨io, oo, -, hk, hi, ho, heq⟩ | heq <;> rw [heq]
  · exact (h.setCfg ci (CfgSlot.inv_configSlot hk hi ho)).finish nofun
  · exact h.finish nofun

theorem buildInto (h : s.Inv) (ci : Nat) {c : CfgSlot} {t : Word}
    (hc : CfgSlot.inv s.params.width { c with table := t }) : (buildInto ci c t s).Inv := by
  have hm := h.withMem (writeCells_inv s.params h.mem (tableCells s.W c t.toNat))
  rcases buildInto_cases ci c t s with ⟨-, heq⟩ | ⟨-, heq⟩ <;> rw [heq]
  · exact (hm.setCfg ci hc).finish nofun
  · exact hm.raise nofun

theorem buildTableRule (h : s.Inv) (ci : Nat) (a : Args) : (buildTableRule ci a s).Inv := by
  rcases buildTableRule_cases ci a s with ⟨c, -, -, heq⟩ | ⟨c, hc, hv, hk, heq⟩ | heq <;> rw [heq]
  · exact h.raise nofun
  · exact h.buildInto ci (CfgSlot.inv_attach (h.cfg c (List.mem_of_getElem? hc)) hv (buildChecks_aligned hk))
  · exact h.finish nofun

theorem sizeofTableRule (h : s.Inv) (a : Args) : (sizeofTableRule a s).Inv :=
  finish (h.withResult _) (c := .success) nofun

/-- IXOR of a valid slot is within `W` bits, so the register RESET starts from is (R193). -/
theorem resetRule (h : s.Inv) (ci si : Nat) (a : Args) : (resetRule ci si a s).Inv := by
  rcases resetRule_cases ci si a s with ⟨c, x, -, -, -, heq⟩ | ⟨c, x, hc, -, hv, heq⟩ | ⟨-, heq⟩ <;> rw [heq]
  · exact h.raise nofun
  · obtain ⟨-, -, -, hix, -⟩ := CfgSlot.configured_bounds ((h.cfg c (List.mem_of_getElem? hc)).configured hv)
    exact h.finishSt si hix (by decide)
  · exact h.finish nofun

theorem busInProcess (h : s.Inv) (si : Nat) {x : StSlot} (hp : x.phase ≠ .uninit) : (busInProcess si x s).Inv :=
  raise (h.drawWord.setSt si (StSlot.inv_of_phase_ne (trunc_lt _ _) hp)) (c := .bus) nofun

/-- A contract fault has one of the causes of R225, never 0. -/
theorem raise_contract (h : s.Inv) {c : CfgSlot} {p : Phase} {cause : Cause}
    (hcause : (c.valid = false ∧ cause = .unconfigured) ∨ (c.valid = true ∧ phaseCause p = some cause)) :
    (s.raise cause).Inv := by
  rcases hcause with ⟨-, rfl⟩ | ⟨-, hp⟩
  · exact h.raise (c := .unconfigured) nofun
  · exact h.raise (phaseCause_ne_none hp)

theorem processInto (h : s.Inv) (si : Nat) {c : CfgSlot} {x : StSlot} (hc : c.configured s.params.width)
    (hx : x.inv s.params.width) (hp : phaseCause x.phase = none) (a : Args) : (processInto si c x a s).Inv := by
  rcases processInto_cases si c x a s with ⟨r, hr, heq⟩ | ⟨-, heq⟩ <;> rw [heq]
  · exact h.finishSt si (processRange_lt hc hx.1 hr) (by decide)
  · refine h.busInProcess si fun hu => ?_
    rw [hu] at hp
    cases hp

theorem processRule (h : s.Inv) (ci si : Nat) (a : Args) : (processRule ci si a s).Inv := by
  rcases processRule_cases ci si a s with ⟨c, x, cause, -, -, hcause, heq⟩ | ⟨c, x, hc, hx, hv, hp, -, heq⟩ | heq <;>
    rw [heq]
  · exact h.raise_contract hcause
  · exact h.processInto si ((h.cfg c (List.mem_of_getElem? hc)).configured hv) (h.st x (List.mem_of_getElem? hx)) hp a
  · exact h.finish nofun

theorem finalizeRule (h : s.Inv) (ci si : Nat) (a : Args) : (finalizeRule ci si a s).Inv := by
  rcases finalizeRule_cases ci si a s with ⟨c, x, cause, -, -, hcause, heq⟩ | ⟨c, x, hc, hx, hv, -, heq⟩ | ⟨-, heq⟩ <;>
    rw [heq]
  · exact h.raise_contract hcause
  · obtain ⟨-, -, -, -, hox⟩ := CfgSlot.configured_bounds ((h.cfg c (List.mem_of_getElem? hc)).configured hv)
    have hval := (h.st x (List.mem_of_getElem? hx)).1
    exact h.finishSt si (correct_lt s.params.width.bits_le c (xor_lt hval hox)) (by decide)
  · exact h.finish nofun

theorem ruleOf (h : s.Inv) (i : Instr) (a : Args) : (ruleOf i a s).Inv := by
  cases i with
  | configure ci => exact h.configureRule ci a
  | buildTable ci => exact h.buildTableRule ci a
  | sizeofTable => exact h.sizeofTableRule a
  | reset ci si => exact h.resetRule ci si a
  | process ci si => exact h.processRule ci si a
  | finalize ci si => exact h.finalizeRule ci si a

/-! ### The moves -/

theorem of_blockTurn {t : State} (h : s.Inv) (hturn : blockTurn s = .next t) : t.Inv := by
  rcases blockTurn_cases hturn with ⟨-, rfl⟩ | ⟨p, i, -, -, hexec⟩ | ⟨p, e, -, -, rfl⟩
  · exact h
  · obtain ⟨q, -, rfl⟩ := exec_eq_next.mp hexec
    exact (h.ruleOf i q.args).retire
  · exact (h.finish (c := .notSupported) nofun).retire

/-- The write to CMD sets BUSY and PENDING together (R29). -/
theorem issue (h : s.Inv) (w : Word) : (issue w s).Inv := by
  unfold Machine.issue
  split
  · exact h
  · exact ⟨h.mem, rfl, h.status, h.cfg, h.st⟩

theorem writeReg (h : s.Inv) (r : Reg) (v : Word) : (writeReg r v s).Inv := by
  cases r with
  | cmd => exact h.issue v
  | arg i => exact ⟨h.mem, h.busy, h.status, h.cfg, h.st⟩
  | id | status | result | cfg | st | unmapped => exact h

theorem hostWrite (h : s.Inv) (off : Nat) (v : Word) : (hostWrite off v s).Inv := by
  unfold Machine.hostWrite
  split
  · exact h.raise nofun
  · exact h.writeReg _ v

theorem of_hostLine {l : HostLine} {t : State} (h : s.Inv) (hline : hostLine l s = .next t) : t.Inv := by
  rcases hostLine_cases hline with ⟨addr, size, v, off, -, -, rfl⟩ | ⟨v, rfl⟩ | ⟨a, bs, -, hlen, -, rfl⟩ | ⟨-, -, rfl⟩ |
    ⟨-, -, rfl⟩
  · exact h.hostWrite off v
  · exact ⟨h.mem, h.busy, h.status, h.cfg, h.st⟩
  · exact h.withMem (Memory.writeList_inv h.mem fun c hc => Nat.lt_of_lt_of_le (cellsAt_lt hc) hlen)
  · exact ⟨h.mem, h.busy, h.status, h.cfg, h.st⟩
  · exact h

theorem of_hostTurn {t : State} (h : s.Inv) (hturn : hostTurn s = .next t) : t.Inv := by
  rcases hostTurn_cases hturn with ⟨-, rfl⟩ | ⟨l, rest, -, hline⟩
  · exact h
  · exact of_hostLine (s := { s with lines := rest }) ⟨h.mem, h.busy, h.status, h.cfg, h.st⟩ hline

theorem blockReset (h : s.Inv) : (blockReset s).Inv :=
  clearBlock (s := { s with mem := _, draws := _ }) (drawCells_inv h.mem (fun _ hc => pendingCells_lt hc) s.draws)

end State.Inv

/-- Settles O21: every operation a move is made of keeps the invariant; the commands that write a State slot keep it
within `W` bits by the bounds of a configured slot. -/
theorem stepKeepsTheInvariant : Obligations.StepKeepsTheInvariant := by
  intro s t h hstep
  obtain ⟨s₀, hs₀, hmove⟩ := step_cases hstep
  have h₀ : s₀.Inv := by
    rcases hs₀ with rfl | ⟨u, rest, -, rfl⟩
    · exact h
    · exact ⟨h.mem, h.busy, h.status, h.cfg, h.st⟩
  rcases hmove with ⟨hhost, -, -⟩ | ⟨hblock, -, -⟩ | ⟨rfl, -⟩
  · exact h₀.of_hostTurn hhost
  · exact h₀.of_blockTurn hblock
  · exact h₀.blockReset

/-- The reset state meets the invariant for all parameters and all canonical contents of MEM. -/
theorem State.resetOf_inv (ps : Config.Params) (ncfg nst : Nat) {m : Memory} (hm : Memory.inv m) :
    (State.resetOf ps ncfg nst m).Inv :=
  ⟨hm, rfl, Status.inv_reset, fun _ => CfgSlot.inv_of_mem_replicate, fun _ => StSlot.inv_of_mem_replicate⟩

/-- Settles O22: block reset's slots and STATUS meet the invariant, and empty MEM is canonical. -/
theorem resetMeetsTheInvariant : Obligations.ResetMeetsTheInvariant :=
  ⟨State.resetOf_inv _ _ _ ⟨⟨.nil, nofun⟩, nofun⟩, fun ps ncfg nst _ hm => State.resetOf_inv ps ncfg nst hm⟩

end Sys2Proof.Machine
end

section
/-! SUPPORT. What each move does to the slots, and what a command leaves unchanged: the State slots and the Configuration
slots a rule can write, the registers and hosts' fields it cannot, and the hosts' moves, which write no slot. -/

namespace Sys2Proof.Machine

/-! ### What building and a bus fault leave unchanged -/

@[simp] theorem buildInto_frame (ci : Nat) (c : CfgSlot) (t : Word) (s : State) :
    (buildInto ci c t s).st = s.st ∧ (buildInto ci c t s).args = s.args ∧ (buildInto ci c t s).result = s.result ∧
      (buildInto ci c t s).lines = s.lines ∧ (buildInto ci c t s).turns = s.turns ∧
      (buildInto ci c t s).reads = s.reads := by
  rcases buildInto_cases ci c t s with ⟨-, h⟩ | ⟨-, h⟩ <;> simp [h]

/-- Building writes no Configuration slot, or attaches the table to its own (R136, R227). -/
theorem buildInto_cfg_cases (ci : Nat) (c : CfgSlot) (t : Word) (s : State) :
    (buildInto ci c t s).cfg = s.cfg ∨ (buildInto ci c t s).cfg = s.cfg.set ci { c with table := t } := by
  rcases buildInto_cases ci c t s with ⟨-, h⟩ | ⟨-, h⟩
  · exact .inr (by simp [h])
  · exact .inl (by simp [h])

@[simp] theorem busInProcess_st (si : Nat) (x : StSlot) (s : State) :
    (busInProcess si x s).st = s.st.set si { x with value := s.drawWord.1 } := by
  simp [busInProcess]

@[simp] theorem busInProcess_frame (si : Nat) (x : StSlot) (s : State) :
    (busInProcess si x s).cfg = s.cfg ∧ (busInProcess si x s).args = s.args ∧
      (busInProcess si x s).result = s.result ∧ (busInProcess si x s).lines = s.lines ∧
      (busInProcess si x s).turns = s.turns ∧ (busInProcess si x s).reads = s.reads := by
  simp [busInProcess]

/-! ### What a rule can write -/

/-- The State slots a rule can write: none, or the slot it names, by a success of RESET, PROCESS or FINALIZE (R24), or
with a free VALUE and the PHASE it had by `Fault(BUS)` (R227). -/
theorem ruleOf_st_cases (i : Instr) (a : Args) (s : State) :
    (ruleOf i a s).st = s.st ∨
    (∃ ci si v, i = .reset ci si ∧ (ruleOf i a s).status.code = .success ∧
      (ruleOf i a s).st = s.st.set si { value := v, phase := .fresh }) ∨
    (∃ ci si x v, i = .process ci si ∧ s.st[si]? = some x ∧ phaseCause x.phase = none ∧
      (ruleOf i a s).status.code = .success ∧ (ruleOf i a s).st = s.st.set si { value := v, phase := .accum }) ∨
    (∃ ci si x v, i = .process ci si ∧ s.st[si]? = some x ∧ (ruleOf i a s).st = s.st.set si { x with value := v }) ∨
    (∃ ci si x v, i = .finalize ci si ∧ s.st[si]? = some x ∧ phaseCause x.phase = none ∧
      (ruleOf i a s).status.code = .success ∧ (ruleOf i a s).st = s.st.set si { value := v, phase := .final }) := by
  rcases ruleOf_cases i a s with h | ⟨cause, h⟩ | ⟨ci, c, -, h⟩ | ⟨r, -, h⟩ | ⟨ci, c, -, -, -, h⟩ | ⟨ci, si, v, hi, h⟩ |
    ⟨ci, si, x, v, hi, hx, hp, h⟩ | ⟨ci, si, x, hi, hx, -, h⟩ | ⟨ci, si, x, v, hi, hx, hp, h⟩
  · exact .inl (by simp [h])
  · exact .inl (by simp [h])
  · exact .inl (by simp [h])
  · exact .inl (by simp [h])
  · exact .inl (by simp [h])
  · exact .inr (.inl ⟨ci, si, v, hi, by simp [h], by simp [h]⟩)
  · exact .inr (.inr (.inl ⟨ci, si, x, v, hi, hx, hp, by simp [h], by simp [h]⟩))
  · exact .inr (.inr (.inr (.inl ⟨ci, si, x, _, hi, hx, by rw [h, busInProcess_st]⟩)))
  · exact .inr (.inr (.inr (.inr ⟨ci, si, x, v, hi, hx, hp, by simp [h], by simp [h]⟩)))

/-- The Configuration slots a rule can write: none, the slot a CONFIGURE names, or TABLE of the slot a BUILD_TABLE names
(R108, R136). -/
theorem ruleOf_cfg_cases (i : Instr) (a : Args) (s : State) :
    (ruleOf i a s).cfg = s.cfg ∨
    (∃ ci c, i = .configure ci ∧ (ruleOf i a s).cfg = s.cfg.set ci c) ∨
    (∃ ci c, i = .buildTable ci ∧ s.cfg[ci]? = some c ∧
      (ruleOf i a s).cfg = s.cfg.set ci { c with table := a.buildTable }) := by
  rcases ruleOf_cases i a s with h | ⟨cause, h⟩ | ⟨ci, c, hi, h⟩ | ⟨r, -, h⟩ | ⟨ci, c, hi, hc, -, h⟩ | ⟨ci, si, v, -, h⟩ |
    ⟨ci, si, x, v, -, -, -, h⟩ | ⟨ci, si, x, -, -, -, h⟩ | ⟨ci, si, x, v, -, -, -, h⟩
  · exact .inl (by simp [h])
  · exact .inl (by simp [h])
  · exact .inr (.inl ⟨ci, c, hi, by simp [h]⟩)
  · exact .inl (by simp [h])
  · rcases buildInto_cfg_cases ci c a.buildTable s with hcfg | hcfg
    · exact .inl (by rw [h, hcfg])
    · exact .inr (.inr ⟨ci, c, hi, hc, by rw [h, hcfg]⟩)
  · exact .inl (by simp [h])
  · exact .inl (by simp [h])
  · exact .inl (by simp [h])
  · exact .inl (by simp [h])

/-- No rule writes ARG or a field of the hosts (R25, R31). -/
theorem ruleOf_frame (i : Instr) (a : Args) (s : State) :
    (ruleOf i a s).args = s.args ∧ (ruleOf i a s).lines = s.lines ∧ (ruleOf i a s).turns = s.turns ∧
      (ruleOf i a s).reads = s.reads := by
  rcases ruleOf_cases i a s with h | ⟨cause, h⟩ | ⟨ci, c, -, h⟩ | ⟨r, -, h⟩ | ⟨ci, c, -, -, -, h⟩ | ⟨ci, si, v, -, h⟩ |
    ⟨ci, si, x, v, -, -, -, h⟩ | ⟨ci, si, x, -, -, -, h⟩ | ⟨ci, si, x, v, -, -, -, h⟩ <;> simp [h]

/-- Only SIZEOF_TABLE writes RESULT (R26). -/
theorem ruleOf_result {i : Instr} (hi : i ≠ .sizeofTable) (a : Args) (s : State) :
    (ruleOf i a s).result = s.result := by
  rcases ruleOf_cases i a s with h | ⟨cause, h⟩ | ⟨ci, c, -, h⟩ | ⟨r, hi', -⟩ | ⟨ci, c, -, -, -, h⟩ | ⟨ci, si, v, -, h⟩ |
    ⟨ci, si, x, v, -, -, -, h⟩ | ⟨ci, si, x, -, -, -, h⟩ | ⟨ci, si, x, v, -, -, -, h⟩
  case inr.inr.inr.inl => exact absurd hi' hi
  all_goals simp [h]

/-- A rule leaves every State slot it does not name (R204). -/
theorem ruleOf_st_frame {i : Instr} {j : Nat} (hj : ∀ ci, i ≠ .reset ci j ∧ i ≠ .process ci j ∧ i ≠ .finalize ci j)
    (a : Args) (s : State) : (ruleOf i a s).st[j]? = s.st[j]? := by
  rcases ruleOf_st_cases i a s with h | ⟨ci, si, v, rfl, -, h⟩ | ⟨ci, si, x, v, rfl, -, -, -, h⟩ |
    ⟨ci, si, x, v, rfl, -, h⟩ | ⟨ci, si, x, v, rfl, -, -, -, h⟩ <;> rw [h]
  all_goals
    refine List.getElem?_set_ne ?_
    rintro rfl
    simpa using hj ci

/-- A rule leaves every Configuration slot it does not configure or build for (R113, R136). -/
theorem ruleOf_cfg_frame {i : Instr} {k : Nat} (hconf : i ≠ .configure k) (hbuild : i ≠ .buildTable k) (a : Args)
    (s : State) : (ruleOf i a s).cfg[k]? = s.cfg[k]? := by
  rcases ruleOf_cfg_cases i a s with h | ⟨ci, c, rfl, h⟩ | ⟨ci, c, rfl, -, h⟩ <;> rw [h]
  · exact List.getElem?_set_ne (by simpa using hconf)
  · exact List.getElem?_set_ne (by simpa using hbuild)

/-- BUILD_TABLE leaves its slot or sets TABLE to its operand, and no other field (R136). -/
theorem ruleOf_buildTable_cfg {k : Nat} {c : CfgSlot} {s : State} (hc : s.cfg[k]? = some c) (a : Args) :
    (ruleOf (.buildTable k) a s).cfg[k]? = some c ∨
    (ruleOf (.buildTable k) a s).cfg[k]? = some { c with table := a.buildTable } := by
  rcases ruleOf_cfg_cases (.buildTable k) a s with h | ⟨ci, c', hi, -⟩ | ⟨ci, c', hi, hc', h⟩
  · exact .inl (by rw [h, hc])
  · cases hi
  · obtain rfl : k = ci := by simpa using hi
    obtain rfl : c = c' := by simpa [hc] using hc'
    exact .inr (by rw [h, List.getElem?_set_self (List.getElem?_eq_some_iff.mp hc).1])

/-- Settles O31: the frame of each rule, which retiring the command keeps. -/
theorem commandsFrameRegisters : Obligations.CommandsFrameRegisters := by
  intro i s t hexec
  obtain ⟨hparams, -, -⟩ := State.sameInstance_of_exec hexec
  obtain ⟨p, -, rfl⟩ := exec_eq_next.mp hexec
  obtain ⟨hargs, hlines, hturns, hreads⟩ := ruleOf_frame i p.args s
  refine ⟨hparams, hargs, hlines, hturns, hreads, fun hi => ruleOf_result hi p.args s,
    fun k hconf hbuild => ruleOf_cfg_frame hconf hbuild p.args s, fun j hj => ruleOf_st_frame hj p.args s, ?_⟩
  rintro k c rfl hc
  rcases ruleOf_buildTable_cfg hc p.args with h | h
  · exact ⟨c, h, rfl⟩
  · exact ⟨_, h, rfl⟩

/-! ### The hosts' moves -/

/-- An issue, made or ignored, leaves the slots, RESULT, CODE and MEM (R190, R226). -/
theorem issue_frame (w : Word) (s : State) :
    (issue w s).cfg = s.cfg ∧ (issue w s).st = s.st ∧ (issue w s).result = s.result ∧
      (issue w s).status.code = s.status.code ∧ (issue w s).mem = s.mem := by
  unfold issue
  split <;> simp

/-- A host register write leaves the slots, RESULT, CODE and MEM (R36). -/
theorem hostWrite_frame (off : Nat) (v : Word) (s : State) :
    (hostWrite off v s).cfg = s.cfg ∧ (hostWrite off v s).st = s.st ∧ (hostWrite off v s).result = s.result ∧
      (hostWrite off v s).status.code = s.status.code ∧ (hostWrite off v s).mem = s.mem := by
  unfold hostWrite
  split
  · simp
  · cases regAt s.ncfg s.nst off with
    | cmd => exact issue_frame v s
    | arg i | id | status | result | cfg | st | unmapped => simp [writeReg]

/-- Settles O13: a line of the hosts that is a register write and a move is `hostWrite`. -/
theorem hostRegisterWritesLeaveTheSlots : Obligations.HostRegisterWritesLeaveTheSlots := by
  intro s t addr size v h
  rcases hostLine_cases h with ⟨_, _, w, off, -, -, rfl⟩ | ⟨w, rfl⟩ | ⟨_, _, hl, -⟩ | ⟨hl, -⟩ | ⟨hl, -⟩
  · exact hostWrite_frame off w s
  · simp
  all_goals cases hl

/-- No host line writes a slot (R22, R24). -/
theorem hostLine_slots {l : HostLine} {s t : State} (h : hostLine l s = .next t) : t.cfg = s.cfg ∧ t.st = s.st := by
  rcases hostLine_cases h with ⟨_, _, v, off, -, -, rfl⟩ | ⟨v, rfl⟩ | ⟨a, bs, -, -, -, rfl⟩ | ⟨-, -, rfl⟩ | ⟨-, -, rfl⟩
  · obtain ⟨hcfg, hst, -⟩ := hostWrite_frame off v s
    exact ⟨hcfg, hst⟩
  all_goals exact ⟨rfl, rfl⟩

theorem hostTurn_slots {s t : State} (h : hostTurn s = .next t) : t.cfg = s.cfg ∧ t.st = s.st := by
  rcases hostTurn_cases h with ⟨-, rfl⟩ | ⟨l, rest, -, hline⟩
  · exact ⟨rfl, rfl⟩
  · exact hostLine_slots (s := { s with lines := rest }) hline

/-! ### The step -/

/-- A step writes a slot only by block reset, or by the rule of a decoded command in flight. -/
theorem step_slots {s t : State} (h : step s = .next t) :
    (t.cfg = s.cfg ∧ t.st = s.st) ∨
    ((∃ rest, s.turns = .blockReset :: rest) ∧ t.cfg = List.replicate s.ncfg CfgSlot.reset ∧
      t.st = List.replicate s.nst StSlot.reset) ∨
    (∃ p i s₀, s.pending = some p ∧ decode p.word = .ok i ∧ s₀.cfg = s.cfg ∧ s₀.st = s.st ∧
      t = (ruleOf i p.args s₀).retire) := by
  obtain ⟨s₀, hs₀, hmove⟩ := step_cases h
  obtain ⟨hcfg, hst, hpend⟩ : s₀.cfg = s.cfg ∧ s₀.st = s.st ∧ s₀.pending = s.pending := by
    rcases hs₀ with rfl | ⟨u, rest, -, rfl⟩
    · exact ⟨rfl, rfl, rfl⟩
    · exact ⟨rfl, rfl, rfl⟩
  rcases hmove with ⟨hhost, -, -⟩ | ⟨hblock, -, -⟩ | ⟨rfl, hturns⟩
  · obtain ⟨hcfg', hst'⟩ := hostTurn_slots hhost
    exact .inl ⟨hcfg'.trans hcfg, hst'.trans hst⟩
  · rcases blockTurn_cases hblock with ⟨-, rfl⟩ | ⟨p, i, hp, hd, hexec⟩ | ⟨p, e, -, -, rfl⟩
    · exact .inl ⟨hcfg, hst⟩
    · rw [exec_some hp] at hexec
      exact .inr (.inr ⟨p, i, s₀, hpend ▸ hp, hd, hcfg, hst, by simpa [eq_comm] using hexec⟩)
    · exact .inl ⟨hcfg, hst⟩
  · exact .inr (.inl ⟨hturns, by simp [blockReset, hcfg], by simp [blockReset, hst]⟩)

/-- An entry after a write of entry `i` is the one written, or the one that was there. -/
theorem getElem?_set_cases {α : Type} {l : List α} {i j : Nat} {a x y : α} (hx : l[j]? = some x)
    (hy : (l.set i a)[j]? = some y) : (i = j ∧ y = a) ∨ y = x := by
  by_cases hij : i = j
  · subst hij
    rw [List.getElem?_set_self (List.getElem?_eq_some_iff.mp hx).1] at hy
    exact .inl ⟨rfl, by simpa [eq_comm] using hy⟩
  · rw [List.getElem?_set_ne hij, hx] at hy
    exact .inr (by simpa [eq_comm] using hy)

/-- An entry of a list of reset slots is reset. -/
theorem eq_of_getElem?_replicate {α : Type} {n j : Nat} {a y : α} (h : (List.replicate n a)[j]? = some y) : y = a :=
  List.eq_of_mem_replicate (List.mem_of_getElem? h)

/-- Settles O27: block reset and the rule of a command in flight are the only moves that write a State slot; the rule's
writes are the events of R24, or keep PHASE. -/
theorem phaseChangesOnlyAsTabled : Obligations.PhaseChangesOnlyAsTabled := by
  intro s t h j x y hx hy
  rcases step_slots h with ⟨-, hst⟩ | ⟨hturns, -, hst⟩ | ⟨p, i, s₀, hp, hd, -, hst₀, rfl⟩
  · rw [hst, hx] at hy
    cases hy
    exact .inl rfl
  · rw [hst] at hy
    exact .inr (.inl ⟨hturns, eq_of_getElem?_replicate hy ▸ rfl⟩)
  rw [← hst₀] at hx
  rw [State.retire_st] at hy
  rcases ruleOf_st_cases i p.args s₀ with hst | ⟨ci, si, v, rfl, hcode, hst⟩ |
    ⟨ci, si, x', v, rfl, hx', hphase, hcode, hst⟩ | ⟨ci, si, x', v, rfl, hx', hst⟩ | ⟨ci, si, x', v, rfl, hx', hphase, hcode, hst⟩ <;> rw [hst] at hy
  · rw [hx] at hy
    cases hy
    exact .inl rfl
  all_goals
    rcases getElem?_set_cases hx hy with ⟨rfl, rfl⟩ | rfl
    case inr => exact .inl rfl
  · exact .inr (.inr (.inl ⟨p, ci, hp, hd, hcode, rfl⟩))
  all_goals
    obtain rfl : x = x' := by simpa [hx] using hx'
  · exact .inr (.inr (.inr (.inl ⟨p, ci, hp, hd, hcode, phaseCause_eq_none.mp hphase, rfl⟩)))
  · exact .inl rfl
  · exact .inr (.inr (.inr (.inr ⟨p, ci, hp, hd, hcode, phaseCause_eq_none.mp hphase, rfl⟩)))

/-- Settles O28: block reset and the rule of a command in flight are the only moves that write a Configuration slot. -/
theorem configurationsChangeOnlyAsAllowed : Obligations.ConfigurationsChangeOnlyAsAllowed := by
  intro s t h k c d hc hd
  rcases step_slots h with ⟨hcfg, -⟩ | ⟨hturns, hcfg, -⟩ | ⟨p, i, s₀, hp, hdec, hcfg₀, -, rfl⟩
  · rw [hcfg, hc] at hd
    cases hd
    exact .inl rfl
  · rw [hcfg] at hd
    exact .inr (.inl ⟨hturns, eq_of_getElem?_replicate hd⟩)
  rw [← hcfg₀] at hc
  rw [State.retire_cfg] at hd
  rcases ruleOf_cfg_cases i p.args s₀ with hcfg | ⟨ci, c', rfl, hcfg⟩ | ⟨ci, c', rfl, hc', hcfg⟩ <;> rw [hcfg] at hd
  · rw [hc] at hd
    cases hd
    exact .inl rfl
  · rcases getElem?_set_cases hc hd with ⟨rfl, -⟩ | rfl
    · exact .inr (.inr (.inl ⟨p, hp, hdec⟩))
    · exact .inl rfl
  · rcases getElem?_set_cases hc hd with ⟨rfl, rfl⟩ | rfl
    · obtain rfl : c = c' := by simpa [hc] using hc'
      exact .inr (.inr (.inr ⟨p, hp, hdec, rfl⟩))
    · exact .inl rfl

end Sys2Proof.Machine
end

section
/-! SUPPORT. The register window (R35, R36): the register at each offset, what a host access to it does, and the words of
ID, STATUS and CTRL as sums of their fields (R27, R28, R37). -/

namespace Sys2Proof.Machine

/-! ### The operand registers -/

/-- A write of one ARG register (R25). -/
theorem Args.get_set {i : Nat} (hi : i < 6) (a : Args) (v : Word) (j : Nat) :
    (a.set i v).get j = if j = i then v else a.get j := by
  interval_cases i
  all_goals
    simp only [Args.set, Args.get]
    split <;> simp_all

/-! ### The register map -/

theorem regAt_id (ncfg nst : Nat) : regAt ncfg nst 0x000 = .id := rfl

theorem regAt_status (ncfg nst : Nat) : regAt ncfg nst 0x008 = .status := rfl

theorem regAt_cmd (ncfg nst : Nat) : regAt ncfg nst 0x010 = .cmd := rfl

theorem regAt_result (ncfg nst : Nat) : regAt ncfg nst 0x018 = .result := rfl

theorem regAt_arg (ncfg nst : Nat) {i : Nat} (hi : i < 6) : regAt ncfg nst (0x020 + 8 * i) = .arg i := by
  unfold regAt
  rw [if_neg (by omega), if_neg (by omega), if_neg (by omega), if_neg (by omega), if_pos (by omega)]
  congr 1
  omega

/-- Every offset of the `0x40` bytes of a Configuration slot. -/
theorem regAt_cfg {ncfg k : Nat} (nst : Nat) (hk : k < ncfg) {off : Nat} (hoff : off < 0x40) :
    regAt ncfg nst (0x1000 + 0x40 * k + off) = cfgRegAt k off := by
  unfold regAt
  rw [if_neg (by omega), if_neg (by omega), if_neg (by omega), if_neg (by omega), if_neg (by omega), if_pos (by omega),
    show (0x1000 + 0x40 * k + off - 0x1000) / 0x40 = k by omega,
    show (0x1000 + 0x40 * k + off - 0x1000) % 0x40 = off by omega]

/-- Every offset of the `0x10` bytes of a Checksum State slot: the Configuration slots end below them. -/
theorem regAt_st {ncfg nst j : Nat} (hncfg : ncfg ≤ 256) (hj : j < nst) {off : Nat} (hoff : off < 0x10) :
    regAt ncfg nst (0x8000 + 0x10 * j + off) = stRegAt j off := by
  unfold regAt
  rw [if_neg (by omega), if_neg (by omega), if_neg (by omega), if_neg (by omega), if_neg (by omega), if_neg (by omega),
    if_pos (by omega), show (0x8000 + 0x10 * j + off - 0x8000) / 0x10 = j by omega,
    show (0x8000 + 0x10 * j + off - 0x8000) % 0x10 = off by omega]

theorem regAt_unmapped {ncfg nst off : Nat} (harg : 0x50 ≤ off) (hcfg : off < 0x1000 ∨ 0x1000 + 0x40 * ncfg ≤ off)
    (hst : off < 0x8000 ∨ 0x8000 + 0x10 * nst ≤ off) : regAt ncfg nst off = .unmapped := by
  unfold regAt
  rw [if_neg (by omega), if_neg (by omega), if_neg (by omega), if_neg (by omega), if_neg (by omega), if_neg (by omega),
    if_neg (by omega)]

/-- A Configuration slot has no register above CTRL (R35). -/
theorem cfgRegAt_unmapped (k : Nat) {off : Nat} (h : 0x28 ≤ off) : cfgRegAt k off = .unmapped := by
  unfold cfgRegAt
  split
  case h_6 => rfl
  all_goals omega

/-- A register of a Configuration slot is its own. -/
theorem cfgRegAt_cases (k off : Nat) : (∃ f, cfgRegAt k off = .cfg k f) ∨ cfgRegAt k off = .unmapped := by
  unfold cfgRegAt
  split <;> simp

theorem stRegAt_cases (j off : Nat) : (∃ f, stRegAt j off = .st j f) ∨ stRegAt j off = .unmapped := by
  unfold stRegAt
  split <;> simp

/-- The only registers a host write changes stand at the offsets of CMD and ARG (R36). -/
theorem writeReg_regAt_readOnly {off : Nat} (hcmd : off ≠ 0x10) (harg : ¬ (0x20 ≤ off ∧ off < 0x50)) (ncfg nst : Nat)
    (v : Word) (s : State) : writeReg (regAt ncfg nst off) v s = s := by
  unfold regAt
  rw [if_neg hcmd, if_neg harg]
  split_ifs
  · rfl
  · rfl
  · rfl
  · rcases cfgRegAt_cases ((off - 0x1000) / 0x40) ((off - 0x1000) % 0x40) with ⟨f, h⟩ | h <;> rw [h] <;> rfl
  · rcases stRegAt_cases ((off - 0x8000) / 0x10) ((off - 0x8000) % 0x10) with ⟨f, h⟩ | h <;> rw [h] <;> rfl
  · rfl

/-! ### Host accesses to the window -/

theorem windowOffset_ok (p : Config.Params) {off : Nat} (hoff : off < 0x9000) (hal : off % 8 = 0) :
    windowOffset p (p.regBase + off) 8 = .ok off := by
  have hin : ¬ (p.regBase + off < p.regBase ∨ p.regBase + windowSize ≤ p.regBase + off) := by
    unfold windowSize; omega
  unfold windowOffset
  rw [if_neg hin, Nat.add_sub_cancel_left, if_neg (by omega)]

/-- Inside the window, an access of another size or alignment is refused (S8). -/
theorem windowOffset_error (p : Config.Params) {off size : Nat} (hoff : off < 0x9000)
    (hform : size ≠ 8 ∨ off % 8 ≠ 0) : windowOffset p (p.regBase + off) size = .error .windowAccessForm := by
  have hin : ¬ (p.regBase + off < p.regBase ∨ p.regBase + windowSize ≤ p.regBase + off) := by
    unfold windowSize; omega
  unfold windowOffset
  rw [if_neg hin, Nat.add_sub_cancel_left, if_pos hform]

/-- A well-formed host write to the window (R36). -/
theorem hostLine_wr (s : State) {off : Nat} (v : Word) (hoff : off < 0x9000) (hal : off % 8 = 0) :
    hostLine (.wr (s.params.regBase + off) 8 v) s = .next (hostWrite off v s) := by
  simp only [hostLine, windowOffset_ok s.params hoff hal]

/-- A well-formed host read of the window (R36). -/
theorem hostLine_rd (s : State) {off : Nat} (hoff : off < 0x9000) (hal : off % 8 = 0) :
    hostLine (.rd (s.params.regBase + off) 8) s = .next (giveBack (readReg s (regAt s.ncfg s.nst off)) s) := by
  simp only [hostLine, windowOffset_ok s.params hoff hal]

theorem hostWrite_busy {s : State} (h : s.status.busy = true) (off : Nat) (v : Word) :
    hostWrite off v s = s.raise .hostBusy := if_pos h

theorem hostWrite_idle {s : State} (h : s.status.busy = false) (off : Nat) (v : Word) :
    hostWrite off v s = writeReg (regAt s.ncfg s.nst off) v s := if_neg (by simp [h])

/-- Settles O8: the offset of ARG[i] is that register's in the map. -/
theorem argWriteSetsOneRegister : Obligations.ArgWriteSetsOneRegister := by
  intro s i v hi hb
  refine ⟨{ s with args := s.args.set i v }, ?_, ?_, fun j _ hj => ?_, rfl⟩
  · calc hostLine (lineWr s.params (.arg i) v) s
      _ = .next (hostWrite (0x020 + 8 * i) v s) := hostLine_wr s (off := 0x020 + 8 * i) v (by omega) (by omega)
      _ = .next (writeReg (.arg i) v s) := by rw [hostWrite_idle hb, regAt_arg _ _ hi]
  · simp [Args.get_set hi]
  · simp [Args.get_set hi, hj]

/-- Settles O9: the write is discarded and `raise` keeps a first cause. -/
theorem busyWriteRaisesHostBusy : Obligations.BusyWriteRaisesHostBusy := by
  intro s off v hb hoff hal
  rw [hostLine_wr s v hoff hal, hostWrite_busy hb]
  rfl

/-- Settles O10: `windowOffset` refuses the access before it reaches a register. -/
theorem misformedWindowAccessIsRefused : Obligations.MisformedWindowAccessIsRefused := by
  intro s off size v hoff hform
  simp only [hostLine, windowOffset_error s.params hoff hform, and_self]

/-- Settles O11: a read appends its value, and the offsets named hold CMD or no register. -/
theorem windowReadsChangeNothing : Obligations.WindowReadsChangeNothing := by
  intro s off hoff hal
  refine ⟨hostLine_rd s hoff hal, ?_⟩
  rintro (rfl | ⟨hlo, hhi⟩ | ⟨hlo, hhi⟩ | ⟨hlo, hhi⟩ | ⟨hlo, hhi, hfield⟩)
  · rw [regAt_cmd]; rfl
  · rw [regAt_unmapped hlo (.inl hhi) (.inl (by omega))]; rfl
  · rw [regAt_unmapped (by omega) (.inr hlo) (.inl hhi)]; rfl
  · rw [regAt_unmapped (by omega) (.inr hlo) (.inr hhi)]; rfl
  · have hsplit : off = 0x1000 + 0x40 * ((off - 0x1000) / 0x40) + (off - 0x1000) % 0x40 := by omega
    rw [hsplit, regAt_cfg _ (by omega) (by omega), cfgRegAt_unmapped _ hfield]; rfl

/-- Settles O12: no register but CMD and ARG takes a write. -/
theorem readOnlyWindowWritesAreIgnored : Obligations.ReadOnlyWindowWritesAreIgnored := by
  intro s off v hb hoff hal hcmd harg
  rw [hostLine_wr s v hoff hal, hostWrite_idle hb, writeReg_regAt_readOnly hcmd harg]

/-! ### The registers at their offsets -/

/-- A register of a Configuration slot reads at its offset in the slot. -/
theorem readReg_cfg {s : State} {k : Nat} {c : CfgSlot} (hc : s.cfg[k]? = some c) {off : Nat} (hoff : off < 0x40)
    {f : CfgReg} (hf : cfgRegAt k off = .cfg k f) :
    readReg s (regAt s.ncfg s.nst (0x1000 + 0x40 * k + off)) = readCfgReg c f := by
  rw [regAt_cfg s.nst (List.getElem?_eq_some_iff.mp hc).1 hoff, hf]
  simp [readReg, hc]

/-- A register of a Checksum State slot reads at its offset in the slot. -/
theorem readReg_st {s : State} (hncfg : s.ncfg ≤ 256) {j : Nat} {x : StSlot} (hx : s.st[j]? = some x) {off : Nat}
    (hoff : off < 0x10) {f : StReg} (hf : stRegAt j off = .st j f) :
    readReg s (regAt s.ncfg s.nst (0x8000 + 0x10 * j + off)) = readStReg x f := by
  rw [regAt_st hncfg (List.getElem?_eq_some_iff.mp hx).1 hoff, hf]
  simp [readReg, hx]

/-- Settles O18: each offset names its register in the map, and reading it gives the field. -/
theorem windowReadsTheRegisters : Obligations.WindowReadsTheRegisters := by
  intro s hncfg _
  refine ⟨rfl, rfl, rfl, fun i hi => ?_, fun k c hc => ⟨?_, ?_, ?_, ?_⟩, fun j x hx => ⟨?_, ?_⟩⟩
  · rw [regAt_arg _ _ hi]; rfl
  · exact readReg_cfg hc (off := 0x00) (f := .poly) (by decide) rfl
  · exact readReg_cfg hc (f := .ixor) (by decide) rfl
  · exact readReg_cfg hc (f := .oxor) (by decide) rfl
  · exact readReg_cfg hc (f := .table) (by decide) rfl
  · exact readReg_st hncfg hx (off := 0x0) (f := .value) (by decide) rfl
  · rw [readReg_st hncfg hx (f := .phase) (by decide) rfl]
    cases x with | mk v p => cases p <;> rfl

/-! ### Words made of fields -/

/-- Joining a field above the bits of a word adds it there. -/
theorem or_shiftLeft_toNat {a b : Word} {k : Nat} (ha : a.toNat < 2 ^ k) (hb : b.toNat * 2 ^ k < 2 ^ 64) :
    (a ||| b <<< k).toNat = b.toNat * 2 ^ k + a.toNat := by
  rw [BitVec.toNat_or, BitVec.toNat_shiftLeft, Nat.shiftLeft_eq, Nat.mod_eq_of_lt hb, Nat.or_comm,
    Nat.mul_comm, Nat.two_pow_add_eq_or_of_lt ha]

/-- A run of bits of a word, as a remainder of a quotient. -/
theorem extractLsb'_eq_iff {v : Word} {lo n : Nat} {x : BitVec n} :
    v.extractLsb' lo n = x ↔ v.toNat / 2 ^ lo % 2 ^ n = x.toNat := by
  rw [← BitVec.toNat_inj, BitVec.extractLsb'_toNat, Nat.shiftRight_eq_div_pow]

/-- One bit of a word. -/
theorem getLsbD_eq_iff {v : Word} {i : Nat} {b : Bool} : v.getLsbD i = b ↔ v.toNat / 2 ^ i % 2 = b.toNat := by
  rw [BitVec.getLsbD, Nat.testBit_eq_decide_div_mod_eq]
  cases b <;> simp

theorem bitNum_toNat (b : Bool) : (bitNum b).toNat = b.toNat := by cases b <;> rfl

theorem orderNum_toNat (o : BitOrder) : (orderNum o).toNat = (decide (o = .lsb)).toNat := by cases o <;> rfl

theorem StatusCode.num_lt (c : StatusCode) : c.num.toNat < 4 := by cases c <;> decide

theorem Cause.num_lt (c : Cause) : c.num.toNat < 16 := by cases c <;> decide

/-- STATUS as the sum of its fields (R27). -/
theorem Status.word_toNat (x : Status) :
    x.word.toNat =
      x.cause.num.toNat * 2 ^ 24 + (x.fault.toNat * 2 ^ 16 + (x.busy.toNat * 2 ^ 8 + x.code.num.toNat)) := by
  have hcode := x.code.num_lt
  have hcause := x.cause.num_lt
  have hbusy := bitNum_toNat x.busy
  have hfault := bitNum_toNat x.fault
  have hb := x.busy.toNat_lt
  have hf := x.fault.toNat_lt
  have h8 : (x.code.num ||| bitNum x.busy <<< 8).toNat = x.busy.toNat * 2 ^ 8 + x.code.num.toNat := by
    rw [or_shiftLeft_toNat (by omega) (by omega), hbusy]
  have h16 : (x.code.num ||| bitNum x.busy <<< 8 ||| bitNum x.fault <<< 16).toNat =
      x.fault.toNat * 2 ^ 16 + (x.busy.toNat * 2 ^ 8 + x.code.num.toNat) := by
    rw [or_shiftLeft_toNat (by omega) (by omega), h8, hfault]
  unfold Status.word
  rw [or_shiftLeft_toNat (by omega) (by omega), h16]

/-- The entry width that CTRL shows is at most 8 bytes, and 0 for a slot that is not valid (R37). -/
theorem CfgSlot.entryField_le (c : CfgSlot) : (if c.valid then entryBytes c.deg.toNat else 0) ≤ 8 := by
  split
  · exact entryBytes_le _
  · omega

/-- A field of 4 or more bits holds every entry width. -/
theorem CfgSlot.entryField_toNat {n : Nat} (hn : 4 ≤ n) (c : CfgSlot) :
    (if c.valid then BitVec.ofNat n (entryBytes c.deg.toNat) else 0#n).toNat =
      if c.valid then entryBytes c.deg.toNat else 0 := by
  have he := entryBytes_le c.deg.toNat
  have hpow : 2 ^ 4 ≤ 2 ^ n := Nat.pow_le_pow_right (by decide) hn
  split
  · rw [BitVec.toNat_ofNat, Nat.mod_eq_of_lt (by omega)]
  · rw [BitVec.toNat_ofNat, Nat.zero_mod]

/-- CTRL as the sum of its fields (R37). -/
theorem ctrlWord_toNat (c : CfgSlot) :
    (ctrlWord c).toNat =
      (if c.valid then entryBytes c.deg.toNat else 0) * 2 ^ 16 + (c.deg.toNat * 2 ^ 8 +
        ((decide (c.outOrder = .lsb)).toNat * 2 ^ 2 + ((decide (c.inOrder = .lsb)).toNat * 2 ^ 1 + c.valid.toNat))) := by
  have hvalid := bitNum_toNat c.valid
  have hin := orderNum_toNat c.inOrder
  have hout := orderNum_toNat c.outOrder
  have hv := c.valid.toNat_lt
  have hi := (decide (c.inOrder = .lsb)).toNat_lt
  have ho := (decide (c.outOrder = .lsb)).toNat_lt
  have hd := c.deg.isLt
  have hdeg : (c.deg.setWidth 64).toNat = c.deg.toNat := by rw [BitVec.toNat_setWidth]; omega
  have hentry : (if c.valid then BitVec.ofNat 64 (entryBytes c.deg.toNat) else 0 : Word).toNat =
      if c.valid then entryBytes c.deg.toNat else 0 := c.entryField_toNat (by decide)
  have he := c.entryField_le
  have h1 : (bitNum c.valid ||| orderNum c.inOrder <<< 1).toNat =
      (decide (c.inOrder = .lsb)).toNat * 2 ^ 1 + c.valid.toNat := by
    rw [or_shiftLeft_toNat (by omega) (by omega), hvalid, hin]
  have h2 : (bitNum c.valid ||| orderNum c.inOrder <<< 1 ||| orderNum c.outOrder <<< 2).toNat =
      (decide (c.outOrder = .lsb)).toNat * 2 ^ 2 + ((decide (c.inOrder = .lsb)).toNat * 2 ^ 1 + c.valid.toNat) := by
    rw [or_shiftLeft_toNat (by omega) (by omega), h1, hout]
  have h8 : (bitNum c.valid ||| orderNum c.inOrder <<< 1 ||| orderNum c.outOrder <<< 2 |||
      c.deg.setWidth 64 <<< 8).toNat = c.deg.toNat * 2 ^ 8 +
        ((decide (c.outOrder = .lsb)).toNat * 2 ^ 2 + ((decide (c.inOrder = .lsb)).toNat * 2 ^ 1 + c.valid.toNat)) := by
    rw [or_shiftLeft_toNat (by omega) (by omega), h2, hdeg]
  unfold ctrlWord
  rw [or_shiftLeft_toNat (by omega) (by omega), h8, hentry]

/-- ID as the sum of its fields, which 256 slots of each kind fit (R28). -/
theorem idWord_toNat {s : State} (hncfg : s.ncfg ≤ 256) (hnst : s.nst ≤ 256) :
    (idWord s).toNat = s.W + (s.ncfg - 1) * 2 ^ 8 + (s.nst - 1) * 2 ^ 16 + 0x01 * 2 ^ 24 := by
  have hw : s.W ≤ 64 := s.params.width.bits_le
  unfold idWord
  rw [BitVec.toNat_ofNat]
  omega

/-- Settles O15: each field of ID is below its next field. -/
theorem idReadsTheParameters : Obligations.IdReadsTheParameters := by
  intro s _ hncfg _ hnst
  have hw : s.W ≤ 64 := s.params.width.bits_le
  have hid := idWord_toNat hncfg hnst
  rw [regAt_id]
  simp only [readReg, extractLsb'_eq_iff, hid, BitVec.ofNat_eq_ofNat, BitVec.toNat_ofNat]
  refine ⟨?_, ?_, ?_, ?_, ?_⟩ <;> omega

/-- Settles O16: each field of STATUS is below its next field. -/
theorem statusReadsItsFields : Obligations.StatusReadsItsFields := by
  intro s
  have hcode := s.status.code.num_lt
  have hcause := s.status.cause.num_lt
  have hb := s.status.busy.toNat_lt
  have hf := s.status.fault.toNat_lt
  rw [regAt_status]
  simp only [readReg, extractLsb'_eq_iff, getLsbD_eq_iff, Status.word_toNat, BitVec.ofNat_eq_ofNat, BitVec.toNat_ofNat]
  refine ⟨?_, by omega, by omega, by omega, by omega, by omega, ?_, by omega⟩
  · calc _ = s.status.code.num.toNat := by omega
      _ = _ := by cases s.status.code <;> rfl
  · calc _ = s.status.cause.num.toNat := by omega
      _ = _ := by cases s.status.cause <;> rfl

/-- Settles O17: each field of CTRL is below its next field. -/
theorem ctrlReadsItsFields : Obligations.CtrlReadsItsFields := by
  intro s k c hc
  refine ⟨ctrlWord c, readReg_cfg hc (f := .ctrl) (by decide) rfl, ?_⟩
  have hv := c.valid.toNat_lt
  have hi := (decide (c.inOrder = .lsb)).toNat_lt
  have ho := (decide (c.outOrder = .lsb)).toNat_lt
  have hd := c.deg.isLt
  have he := c.entryField_le
  simp only [extractLsb'_eq_iff, getLsbD_eq_iff, ctrlWord_toNat, BitVec.ofNat_eq_ofNat,
    c.entryField_toNat (n := 4) (by decide), BitVec.toNat_ofNat, Bool.toNat_false]
  refine ⟨?_, ?_, ?_, ?_, ?_, ?_, ?_, ?_⟩ <;> omega

end Sys2Proof.Machine
end

section
/-! SUPPORT. The state right after reset (R39), field by field. -/

namespace Sys2Proof.Machine

theorem Args.get_reset (i : Nat) : Args.reset.get i = 0 := by
  unfold Args.get
  split <;> rfl

/-- Settles O19: every slot is the reset slot, and every other element is written out in `State.resetOf`. -/
theorem resetLeavesTheTabledValues : Obligations.ResetLeavesTheTabledValues := by
  intro ps ncfg nst m s hs
  obtain ⟨ps', m', rfl⟩ : ∃ ps' m', s = State.resetOf ps' ncfg nst m' := by
    rcases hs with rfl | ⟨rfl, rfl, rfl⟩
    · exact ⟨ps, m, rfl⟩
    · exact ⟨Config.Params.widest, [], rfl⟩
  refine ⟨List.length_replicate, List.length_replicate, fun k c hc => ?_, fun j x hx => ?_, Args.get_reset, rfl, rfl, rfl,
    rfl, rfl, rfl⟩
  · obtain rfl := eq_of_getElem?_replicate hc
    exact ⟨rfl, rfl, rfl, rfl, rfl, rfl, rfl, rfl⟩
  · obtain rfl := eq_of_getElem?_replicate hx
    exact ⟨rfl, rfl⟩

end Sys2Proof.Machine
end

section
/-! SUPPORT. The bytes BUILD_TABLE writes: those of its table before the first one that is not admitted (R56, R135). -/

namespace Sys2Proof.Machine

theorem buildChecks_iff (w : Width) (c : CfgSlot) (a : Args) :
    buildChecks w c a = true ↔
      a.a0 ≠ 0 ∧ a.a1.toNat = tableSize c.deg.toNat ∧ a.a0.toNat % (w.bits / 8) = 0 := by
  simp only [buildChecks, tableAligned, Width.bytes_eq, Bool.and_eq_true, decide_eq_true_eq, and_assoc]
  rfl

/-- Outside the conditions of R222 the checks of BUILD_TABLE on a valid slot pass (R133). -/
theorem buildChecks_of_not_invalidCase {ci : Nat} {c : CfgSlot} {a : Args} {s : State} (hc : s.cfg[ci]? = some c)
    (hv : c.valid = true) (hk : ¬ invalidCase (.buildTable ci) a s) : buildChecks s.params.width c a = true := by
  rw [buildChecks_iff]
  by_contra hfail
  refine hk (Or.inr ⟨c, hc, hv, ?_⟩)
  tauto

theorem buildCells_of_checks {ci : Nat} {c : CfgSlot} {a : Args} {s : State} (hc : s.cfg[ci]? = some c)
    (hv : c.valid = true) (hk : buildChecks s.params.width c a = true) :
    buildCells ci a s =
      (tableCells s.W c a.a0.toNat).takeWhile fun cell => memAdmit s.params .write cell.1 := by
  simp [buildCells, hc, hv, hk, Args.buildTable]

theorem buildTableRule_of_checks {ci : Nat} {c : CfgSlot} {a : Args} {s : State} (hc : s.cfg[ci]? = some c)
    (hv : c.valid = true) (hk : buildChecks s.params.width c a = true) :
    buildTableRule ci a s = buildInto ci c a.a0 s := by
  simp [buildTableRule, hc, hv, hk, Args.buildTable]

/-- A BUILD_TABLE that writes at all passes its checks, and writes admitted bytes of its table (R51, R132). -/
theorem of_mem_buildCells {ci : Nat} {a : Args} {s : State} {cell : Host.Cell} (h : cell ∈ buildCells ci a s) :
    ∃ c, s.cfg[ci]? = some c ∧ buildChecks s.params.width c a = true ∧
      a.a0.toNat ≤ cell.1 ∧ cell.1 < a.a0.toNat + tableSize c.deg.toNat := by
  unfold buildCells at h
  split at h
  · cases h
  · rename_i c hc
    split at h
    · rename_i hk
      have hmem : cell.1 ∈ (tableCells s.W c a.a0.toNat).map Prod.fst :=
        List.mem_map_of_mem (List.takeWhile_subset _ h)
      rw [tableCells_map_fst, List.mem_range'_1] at hmem
      exact ⟨c, hc, (Bool.and_eq_true_iff.mp hk).2, hmem⟩
    · cases h

/-- The addresses of a run before the first one that does not meet `q`. -/
theorem takeWhile_range' {q : Nat → Bool} {t n N : Nat} (hn : n ≤ N) (hq : ∀ i < n, q (t + i) = true)
    (hstop : n < N → q (t + n) = false) : (List.range' t N).takeWhile q = List.range' t n := by
  obtain ⟨k, rfl⟩ := Nat.exists_eq_add_of_le hn
  have hpre : ∀ x ∈ List.range' t n, q x = true := by
    intro x hx
    rw [List.mem_range'_1] at hx
    have := hq (x - t) (by omega)
    rwa [Nat.add_sub_cancel' hx.1] at this
  have hsuf : (List.range' (t + n) k).takeWhile q = [] := by
    cases k with
    | zero => rfl
    | succ k => simp [List.range'_succ, hstop (by omega)]
  rw [← List.range'_append_1, List.takeWhile_append_of_pos hpre, hsuf, List.append_nil]

section

variable {s : State} {ci n : Nat} {c : CfgSlot} {a : Args} (hc : s.cfg[ci]? = some c) (hv : c.valid = true)
  (hk : buildChecks s.params.width c a = true) (hn : n ≤ tableSize c.deg.toNat)
  (hadm : rangeAdmitted s.params .write a.a0.toNat n)
  (hstop : n < tableSize c.deg.toNat → memAdmit s.params .write (a.a0.toNat + n) = false)

include hc hv hk hn hadm hstop

/-- The bytes written are the `n` before the first one that is not admitted. -/
theorem buildCells_map_fst : (buildCells ci a s).map Prod.fst = List.range' a.a0.toNat n := by
  rw [buildCells_of_checks hc hv hk, ← takeWhile_range' hn hadm hstop, ← tableCells_map_fst s.W, List.takeWhile_map]
  rfl

/-- Byte `j` of entry `i` is among the writes when it lies before the first byte that is not admitted (R135). -/
theorem mem_buildCells {i j : Nat} (hi : i < 256) (hj : j < entryBytes c.deg.toNat)
    (hlt : i * entryBytes c.deg.toNat + j < n) :
    (a.a0.toNat + i * entryBytes c.deg.toNat + j, (entry s.W c i).extractLsb' (8 * j) 8) ∈ buildCells ci a s := by
  have haddr : a.a0.toNat + i * entryBytes c.deg.toNat + j ∈ (buildCells ci a s).map Prod.fst := by
    rw [buildCells_map_fst hc hv hk hn hadm hstop, List.mem_range'_1]
    omega
  obtain ⟨cell, hcell, hfst⟩ := List.mem_map.mp haddr
  have hsub : cell ∈ tableCells s.W c a.a0.toNat := by
    rw [buildCells_of_checks hc hv hk] at hcell
    exact List.takeWhile_subset _ hcell
  have := List.inj_on_of_nodup_map (tableCells_nodup s.W c a.a0.toNat) hsub (mem_tableCells s.W c _ hi hj) hfst
  exact this ▸ hcell

/-- After the writes each byte before the first one that is not admitted holds its entry's (R132, R135). -/
theorem read_buildCells (hwf : Memory.wf s.mem) {i j : Nat} (hi : i < 256) (hj : j < entryBytes c.deg.toNat)
    (hlt : i * entryBytes c.deg.toNat + j < n) :
    Memory.read (Memory.writeList s.mem (buildCells ci a s)) (a.a0.toNat + i * entryBytes c.deg.toNat + j) =
      (entry s.W c i).extractLsb' (8 * j) 8 := by
  refine Memory.read_writeList_mem hwf ?_ (mem_buildCells hc hv hk hn hadm hstop hi hj hlt)
  rw [buildCells_map_fst hc hv hk hn hadm hstop]
  exact List.nodup_range'

/-- The writes leave every byte outside the `n` before the first one that is not admitted (R56). -/
theorem read_buildCells_other {x : Nat} (hx : x < a.a0.toNat ∨ a.a0.toNat + n ≤ x) :
    Memory.read (Memory.writeList s.mem (buildCells ci a s)) x = Memory.read s.mem x := by
  refine Memory.read_writeList_other _ ?_
  rw [buildCells_map_fst hc hv hk hn hadm hstop, List.mem_range'_1]
  omega

end

/-- With a table byte that is not admitted, BUILD_TABLE raises BUS after the writes before it, and attaches nothing (R56,
R227). -/
theorem buildTableRule_bus {s : State} {ci n : Nat} {c : CfgSlot} {a : Args} (hc : s.cfg[ci]? = some c)
    (hv : c.valid = true) (hk : buildChecks s.params.width c a = true) (hn : n < tableSize c.deg.toNat)
    (hstop : memAdmit s.params .write (a.a0.toNat + n) = false) :
    buildTableRule ci a s = { s with mem := Memory.writeList s.mem (buildCells ci a s) }.raise .bus := by
  have hmem : a.a0.toNat + n ∈ (tableCells s.W c a.a0.toNat).map Prod.fst := by
    rw [tableCells_map_fst, List.mem_range'_1]
    omega
  obtain ⟨cell, hcell, hfst⟩ := List.mem_map.mp hmem
  rw [buildTableRule_of_checks hc hv hk, buildCells_of_checks hc hv hk, ← writeCells_fst]
  rcases buildInto_cases ci c a.a0 s with ⟨hall, -⟩ | ⟨-, h⟩
  · rw [writeCells_snd, List.all_eq_true] at hall
    have := hall cell hcell
    rw [hfst, hstop] at this
    cases this
  · exact h

/-- Settles O45: the writes are those before byte `n`, the first one that is not admitted, where BUS is raised. -/
theorem buildTableBusFaultKeepsTheBytesBefore : Obligations.BuildTableBusFaultKeepsTheBytesBefore := by
  intro s p ci c n hp hc hv hvalid hwf hn hadm hstop
  have hk := buildChecks_of_not_invalidCase hc hv hvalid
  refine ⟨Memory.writeList s.mem (buildCells ci p.args s), ?_,
    fun i hi j hj hlt => read_buildCells hc hv hk hn.le hadm (fun _ => hstop) hwf hi hj hlt,
    fun x hx => read_buildCells_other hc hv hk hn.le hadm (fun _ => hstop) hx⟩
  rw [exec_some hp, ruleOf, buildTableRule_bus hc hv hk hn hstop, State.raise_retire]
  rfl

end Sys2Proof.Machine
end

section
/-! SUPPORT. What each move does to MEM: a command's writes are those of BUILD_TABLE to its table (R51), a host's those of
MEMWR (R68), and block reset's those of a BUILD_TABLE it abandons (R261). -/

namespace Sys2Proof.Machine

/-! ### The block's moves -/

@[simp] theorem busInProcess_mem (si : Nat) (x : StSlot) (s : State) : (busInProcess si x s).mem = s.mem := by
  simp [busInProcess]

theorem buildInto_mem (ci : Nat) (c : CfgSlot) (t : Word) (s : State) :
    (buildInto ci c t s).mem = (writeCells s.params s.mem (tableCells s.W c t.toNat)).1 := by
  rcases buildInto_cases ci c t s with ⟨-, h⟩ | ⟨-, h⟩ <;> simp [h]

/-- Building writes only its table's bytes (R51, R132). -/
theorem read_buildInto_other {ci : Nat} {c : CfgSlot} {t : Word} {s : State} {x : Nat}
    (hx : x < t.toNat ∨ t.toNat + tableSize c.deg.toNat ≤ x) :
    Memory.read (buildInto ci c t s).mem x = Memory.read s.mem x := by
  rw [buildInto_mem, writeCells_fst]
  refine Memory.read_writeList_other _ fun hmem => ?_
  have := List.map_subset Prod.fst (List.takeWhile_subset _) hmem
  rw [tableCells_map_fst, List.mem_range'_1] at this
  omega

/-- The MEM bytes a rule can write: those of the table range of a BUILD_TABLE (R51). -/
theorem ruleOf_mem_cases (i : Instr) (a : Args) (s : State) (x : Nat) :
    Memory.read (ruleOf i a s).mem x = Memory.read s.mem x ∨
    ∃ ci c, i = .buildTable ci ∧ s.cfg[ci]? = some c ∧ a.a0.toNat ≤ x ∧ x < a.a0.toNat + tableSize c.deg.toNat := by
  rcases ruleOf_cases i a s with h | ⟨cause, h⟩ | ⟨ci, c, -, h⟩ | ⟨r, -, h⟩ | ⟨ci, c, hi, hc, -, h⟩ | ⟨ci, si, v, -, h⟩ |
    ⟨ci, si, y, v, -, -, -, h⟩ | ⟨ci, si, y, -, -, -, h⟩ | ⟨ci, si, y, v, -, -, -, h⟩ <;> rw [h]
  case inr.inr.inr.inr.inl =>
    by_cases hx : a.a0.toNat ≤ x ∧ x < a.a0.toNat + tableSize c.deg.toNat
    · exact .inr ⟨ci, c, hi, hc, hx⟩
    · exact .inl (read_buildInto_other (t := a.a0) (by omega))
  all_goals exact .inl (by simp)

/-- Settles O32: outside a BUILD_TABLE's table no rule writes MEM, nor does retiring the command. -/
theorem commandsFrameMemory : Obligations.CommandsFrameMemory := by
  intro i s t p hp hexec x hout
  rw [exec_some hp] at hexec
  cases hexec
  rcases ruleOf_mem_cases i p.args s x with h | ⟨ci, c, hi, hc, hlo, hhi⟩
  · exact h
  · have := hout ci c hi hc
    omega

theorem pendingCells_buildTable {s : State} {p : Pending} {ci : Nat} (hp : s.pending = some p)
    (hd : decode p.word = .ok (.buildTable ci)) : pendingCells s = buildCells ci p.args s := by
  simp [pendingCells, hp, hd]

/-- Only a BUILD_TABLE in flight that passes its checks writes MEM, and only its table's bytes (R51, R132). -/
theorem of_mem_pendingWrites {s : State} {x : Nat} (h : x ∈ pendingWrites s) :
    ∃ p ci c, s.pending = some p ∧ decode p.word = .ok (.buildTable ci) ∧ s.cfg[ci]? = some c ∧
      buildChecks s.params.width c p.args = true ∧ p.args.a0.toNat ≤ x ∧
      x < p.args.a0.toNat + tableSize c.deg.toNat := by
  obtain ⟨cell, hcell, rfl⟩ := List.mem_map.mp h
  unfold pendingCells at hcell
  split at hcell
  · cases hcell
  · rename_i p hp
    split at hcell
    · rename_i ci hd
      obtain ⟨c, hc, hrest⟩ := of_mem_buildCells hcell
      exact ⟨p, ci, c, hp, hd, hc, hrest⟩
    · cases hcell

/-- Block reset writes only bytes of a BUILD_TABLE it abandons (R261). -/
theorem read_blockReset_other {s : State} {x : Nat} (hx : x ∉ pendingWrites s) :
    Memory.read (blockReset s).mem x = Memory.read s.mem x := read_drawCells_other s.mem hx s.draws

/-! ### The hosts' moves -/

theorem mem_cellsAt_map_fst {a x : Nat} {bs : List Byte} :
    x ∈ (cellsAt a bs).map Prod.fst ↔ a ≤ x ∧ x < a + bs.length := by
  rw [cellsAt_map_fst, List.mem_range'_1]

/-- A host line leaves every MEM byte but those a MEMWR covers (R68). -/
theorem hostLine_mem_cases {l : HostLine} {s t : State} (h : hostLine l s = .next t) (x : Nat) :
    Memory.read t.mem x = Memory.read s.mem x ∨ ∃ b bs, l = .memWr b bs ∧ b ≤ x ∧ x < b + bs.length := by
  rcases hostLine_cases h with ⟨_, _, v, off, -, -, rfl⟩ | ⟨v, rfl⟩ | ⟨b, bs, hl, -, -, rfl⟩ | ⟨-, -, rfl⟩ | ⟨-, -, rfl⟩
  · obtain ⟨-, -, -, -, hmem⟩ := hostWrite_frame off v s
    exact .inl (by rw [hmem])
  · exact .inl rfl
  · by_cases hx : x ∈ (cellsAt b bs).map Prod.fst
    · exact .inr ⟨b, bs, hl, mem_cellsAt_map_fst.mp hx⟩
    · exact .inl (Memory.read_writeList_other s.mem hx)
  · exact .inl rfl
  · exact .inl rfl

/-- Settles O29: a host's turn writes by its next line, the block's by the rule in flight, and block reset within the
table of the BUILD_TABLE in flight. -/
theorem memoryChangesOnlyAsAllowed : Obligations.MemoryChangesOnlyAsAllowed := by
  intro s t h x
  obtain ⟨s₀, hs₀, hmove⟩ := step_cases h
  obtain ⟨hcfg, hmem, hpend, hlines⟩ :
      s₀.cfg = s.cfg ∧ s₀.mem = s.mem ∧ s₀.pending = s.pending ∧ s₀.lines = s.lines := by
    rcases hs₀ with rfl | ⟨u, rest, -, rfl⟩
    · exact ⟨rfl, rfl, rfl, rfl⟩
    · exact ⟨rfl, rfl, rfl, rfl⟩
  rw [← hcfg, ← hmem, ← hpend, ← hlines]
  rcases hmove with ⟨hhost, -, -⟩ | ⟨hblock, -, -⟩ | ⟨rfl, -⟩
  · rcases hostTurn_cases hhost with ⟨-, rfl⟩ | ⟨l, rest, hl, hline⟩
    · exact .inl rfl
    · rcases hostLine_mem_cases hline x with hsame | ⟨b, bs, rfl, hcover⟩
      · exact .inl hsame
      · exact .inr (.inl ⟨b, bs, rest, hl, hcover⟩)
  · rcases blockTurn_cases hblock with ⟨-, rfl⟩ | ⟨p, i, hp, hd, hexec⟩ | ⟨p, e, -, -, rfl⟩
    · exact .inl rfl
    · rw [exec_some hp] at hexec
      cases hexec
      rcases ruleOf_mem_cases i p.args s₀ x with hsame | ⟨ci, c, rfl, hc, hcover⟩
      · exact .inl hsame
      · exact .inr (.inr ⟨p, ci, c, hp, hd, hc, hcover⟩)
    · exact .inl rfl
  · by_cases hx : x ∈ pendingWrites s₀
    · obtain ⟨p, ci, c, hp, hd, hc, -, hcover⟩ := of_mem_pendingWrites hx
      exact .inr (.inr ⟨p, ci, c, hp, hd, hc, hcover⟩)
    · exact .inl (read_blockReset_other hx)

/-! ### The hosts' duty -/

theorem mayNotWrite_iff {s : State} {x : Nat} :
    mayNotWrite s x = true ↔ s.status.busy = true ∧ (x ∈ pendingReads s ∨ x ∈ pendingWrites s) := by
  simp [mayNotWrite]

theorem mayNotRead_iff {s : State} {x : Nat} :
    mayNotRead s x = true ↔ s.status.busy = true ∧ x ∈ pendingWrites s := by
  simp [mayNotRead]

theorem any_cellsAt {q : Nat → Bool} {a : Nat} {bs : List Byte} :
    ((cellsAt a bs).any fun cell => q cell.1) = true ↔ ∃ x, (a ≤ x ∧ x < a + bs.length) ∧ q x = true := by
  have hmap : ((cellsAt a bs).any fun cell => q cell.1) = ((cellsAt a bs).map Prod.fst).any q := List.any_map.symm
  simp only [hmap, List.any_eq_true, mem_cellsAt_map_fst]

/-- A MEMWR that covers a byte of the command in flight is refused (R66). -/
theorem hostLine_memWr_refused {s : State} {a i : Nat} {bs : List Byte} (hlen : a + bs.length ≤ 2 ^ 64)
    (hbusy : s.status.busy = true) (hi : i < bs.length) (hbyte : a + i ∈ pendingReads s ∨ a + i ∈ pendingWrites s) :
    hostLine (.memWr a bs) s = .refused .hostDuty := by
  have hany : ((cellsAt a bs).any fun cell => mayNotWrite s cell.1) = true :=
    any_cellsAt.mpr ⟨a + i, by omega, mayNotWrite_iff.mpr ⟨hbusy, hbyte⟩⟩
  simp only [hostLine, if_neg (Nat.not_lt.mpr hlen), if_pos hany]

/-- Any other MEMWR of addresses of MEM is made (R68). -/
theorem hostLine_memWr_made {s : State} {a : Nat} {bs : List Byte} (hlen : a + bs.length ≤ 2 ^ 64)
    (hfree : s.status.busy = false ∨ ∀ i < bs.length, a + i ∉ pendingReads s ∧ a + i ∉ pendingWrites s) :
    hostLine (.memWr a bs) s = .next { s with mem := Memory.writeList s.mem (cellsAt a bs) } := by
  have hany : ¬ ((cellsAt a bs).any fun cell => mayNotWrite s cell.1) = true := by
    rw [any_cellsAt]
    rintro ⟨x, ⟨hlo, hhi⟩, hx⟩
    obtain ⟨hbusy, hbyte⟩ := mayNotWrite_iff.mp hx
    rcases hfree with hidle | hfree
    · simp [hbusy] at hidle
    · obtain ⟨hread, hwrite⟩ := hfree (x - a) (by omega)
      rw [Nat.add_sub_cancel' hlo] at hread hwrite
      exact hbyte.elim hread hwrite
  simp only [hostLine, if_neg (Nat.not_lt.mpr hlen), if_neg hany]

/-- A MEMWR leaves its bytes in MEM, in order (R68). -/
theorem read_writeList_cellsAt {m : Memory} (hm : Memory.wf m) {a i : Nat} {bs : List Byte} (hi : i < bs.length) :
    Memory.read (Memory.writeList m (cellsAt a bs)) (a + i) = bs[i] := by
  refine Memory.read_writeList_mem hm ?_ (mem_cellsAt hi)
  rw [cellsAt_map_fst]
  exact List.nodup_range'

/-- A host's read of a MEM byte is refused when a BUILD_TABLE in flight writes the byte, and made otherwise (R66). -/
theorem hostLine_memRd {s : State} {a : Nat} (ha : a < 2 ^ 64) :
    hostLine (.memRd a) s =
      if s.status.busy = true ∧ a ∈ pendingWrites s then .refused .hostDuty
      else .next (giveBack ((Memory.read s.mem a).setWidth 64) s) := by
  simp only [hostLine, if_neg (Nat.not_le.mpr ha), mayNotRead_iff]

/-- Settles O14: a MEMWR and a host's read test each byte against the footprint of the command in flight, and the
footprint of a BUILD_TABLE is `buildCells`. -/
theorem hostMemoryDuty : Obligations.HostMemoryDuty := by
  intro s a v ha
  have hone : a + [v].length ≤ 2 ^ 64 := ha
  refine ⟨fun hbusy hbyte => hostLine_memWr_refused (i := 0) hone hbusy Nat.one_pos hbyte, fun hbusy hbyte => ?_,
    fun hfree => ?_, fun hfree => ?_,
    fun bs hlen => ⟨fun hbusy ⟨i, hi, hbyte⟩ => hostLine_memWr_refused hlen hbusy hi hbyte, fun hwf hfree =>
      ⟨_, hostLine_memWr_made hlen hfree, fun i hi => read_writeList_cellsAt hwf hi, fun x hx => ?_⟩⟩,
    fun p ci c n ⟨hp, hd, hc, hv, hvalid, hn, hadm, hstop⟩ => ?_⟩
  · rw [hostLine_memRd ha, if_pos ⟨hbusy, hbyte⟩]
  · refine hostLine_memWr_made hone (hfree.imp_right fun hfree i hi => ?_)
    obtain rfl : i = 0 := by simpa using hi
    exact hfree
  · rw [hostLine_memRd ha, if_neg]
    · rfl
    · rintro ⟨hbusy, hbyte⟩
      simp [hbusy, hbyte] at hfree
  · refine Memory.read_writeList_other s.mem ?_
    rw [mem_cellsAt_map_fst]
    omega
  · have hk := buildChecks_of_not_invalidCase hc hv hvalid
    rw [pendingWrites, pendingCells_buildTable hp hd]
    exact ⟨buildCells_map_fst hc hv hk hn hadm hstop,
      fun i hi j hj hlt => mem_buildCells hc hv hk hn hadm hstop hi hj hlt⟩

end Sys2Proof.Machine
end

section
/-! SUPPORT. The bytes PROCESS reads (R51, R62): each is admitted and lies in its message or its table, and its outcome
depends on no other byte. -/

namespace Sys2Proof.Machine

variable {ps : Config.Params} {m m' : Memory} {c : CfgSlot}

/-! ### Single reads -/

theorem readByte_of_admitted {a : Nat} (h : memAdmit ps .read a = true) : readByte ps m a = some (Memory.read m a) :=
  readByte_eq_some.mpr ⟨h, rfl⟩

/-- A byte read depends on that byte alone, and on none when it is not admitted. -/
theorem readByte_congr {a : Nat} (h : memAdmit ps .read a = true → Memory.read m' a = Memory.read m a) :
    readByte ps m' a = readByte ps m a := by
  unfold readByte
  split
  · rw [h ‹_›]
  · rfl

/-- A read of a run of bytes depends on those before the first one that is not admitted. -/
theorem readLE_congr {a n : Nat}
    (h : ∀ x ∈ (List.range' a n).takeWhile (memAdmit ps .read), Memory.read m' x = Memory.read m x) :
    readLE ps m' a n = readLE ps m a n := by
  induction n generalizing a with
  | zero => rfl
  | succ n ih =>
    rw [List.range'_succ] at h
    unfold readLE
    cases hadm : memAdmit ps .read a with
    | false => simp [readByte, hadm]
    | true =>
      rw [List.takeWhile_cons_of_pos hadm] at h
      rw [readByte_congr fun _ => h a List.mem_cons_self, ih fun x hx => h x (List.mem_cons_of_mem a hx)]

theorem of_mem_takeWhile_range' {a n x : Nat} (h : x ∈ (List.range' a n).takeWhile (memAdmit ps .read)) :
    memAdmit ps .read x = true ∧ a ≤ x ∧ x < a + n :=
  ⟨List.mem_takeWhile_imp h, List.mem_range'_1.mp (List.takeWhile_subset _ h)⟩

/-! ### The bit-wise pass -/

/-- The bit-wise pass depends on the bytes before the first one that is not admitted (R195). -/
theorem procBytes_congr {n p o rem : Nat} {r : Word}
    (h : ∀ x ∈ (List.range' p n).takeWhile (memAdmit ps .read), Memory.read m' x = Memory.read m x) :
    procBytes ps m' c n p o rem r = procBytes ps m c n p o rem r := by
  induction n generalizing p o rem r with
  | zero => rfl
  | succ n ih =>
    rw [List.range'_succ] at h
    unfold procBytes
    cases hadm : memAdmit ps .read p with
    | false => simp [readByte, hadm]
    | true =>
      rw [List.takeWhile_cons_of_pos hadm] at h
      have htail (o rem : Nat) (r : Word) := ih (o := o) (rem := rem) (r := r) fun x hx => h x (List.mem_cons_of_mem p hx)
      simp only [readByte_congr fun _ => h p List.mem_cons_self, htail]

/-! ### The table-wise run -/

theorem lutIndex_lt (w : Nat) (c : CfgSlot) (r : Word) (v : Byte) : lutIndex w c r v < 256 := by
  unfold lutIndex
  split <;> exact Nat.mod_lt _ (by decide)

/-- An entry's bytes lie in the table (R58). -/
theorem entry_in_table {i x : Nat} (hi : i < 256) (hlo : c.table.toNat + i * entryBytes c.deg.toNat ≤ x)
    (hhi : x < c.table.toNat + i * entryBytes c.deg.toNat + entryBytes c.deg.toNat) :
    c.table.toNat ≤ x ∧ x < c.table.toNat + tableSize c.deg.toNat := by
  have : i * entryBytes c.deg.toNat ≤ 255 * entryBytes c.deg.toNat := Nat.mul_le_mul_right _ (by omega)
  unfold tableSize
  omega

/-- A LUT run reads admitted bytes of its message and of the table (R62, R173). -/
theorem of_mem_lutReads {n b x : Nat} {r : Word} (h : x ∈ lutReads ps m c n b r) :
    memAdmit ps .read x = true ∧
      ((b ≤ x ∧ x < b + n) ∨ (c.table.toNat ≤ x ∧ x < c.table.toNat + tableSize c.deg.toNat)) := by
  induction n generalizing b r with
  | zero => cases h
  | succ n ih =>
    unfold lutReads at h
    split at h
    · cases h
    · rename_i v hv
      rw [List.mem_cons, List.mem_append] at h
      rcases h with rfl | hentry | hrest
      · exact ⟨(readByte_eq_some.mp hv).1, .inl (by omega)⟩
      · obtain ⟨hadm, hlo, hhi⟩ := of_mem_takeWhile_range' hentry
        exact ⟨hadm, .inr (entry_in_table (lutIndex_lt _ c r v) hlo hhi)⟩
      · split at hrest
        · cases hrest
        · obtain ⟨hadm, hwhere⟩ := ih hrest
          exact ⟨hadm, hwhere.imp_left fun _ => by omega⟩

/-- A LUT step depends on the bytes of its entry (R170). -/
theorem lutStep_congr {r : Word} {v : Byte}
    (h : ∀ x ∈ (List.range' (c.table.toNat + lutIndex ps.width.bits c r v * entryBytes c.deg.toNat)
      (entryBytes c.deg.toNat)).takeWhile (memAdmit ps .read), Memory.read m' x = Memory.read m x) :
    lutStep ps m' c r v = lutStep ps m c r v := by
  unfold lutStep tableEntry
  simp only [readLE_congr h]

/-- A LUT run depends on the bytes it reads. -/
theorem lutKernel_congr {n b : Nat} {r : Word}
    (h : ∀ x ∈ lutReads ps m c n b r, Memory.read m' x = Memory.read m x) :
    lutKernel ps m' c n b r = lutKernel ps m c n b r := by
  induction n generalizing b r with
  | zero => rfl
  | succ n ih =>
    cases hadm : memAdmit ps .read b with
    | false => simp [lutKernel, readByte, hadm]
    | true =>
      have hv := readByte_of_admitted (m := m) hadm
      have hv' : readByte ps m' b = some (Memory.read m b) := by
        rw [← hv]
        exact readByte_congr fun _ => h b (by simp [lutReads, hv])
      have hstep : lutStep ps m' c r (Memory.read m b) = lutStep ps m c r (Memory.read m b) :=
        lutStep_congr fun x hx => h x (by simp [lutReads, hv, hx])
      cases hr : lutStep ps m c r (Memory.read m b) with
      | none => simp [lutKernel, hv, hv', hstep, hr]
      | some r' =>
        have hrest := ih (b := b + 1) (r := r') fun x hx => h x (by simp [lutReads, hv, hr, hx])
        simp [lutKernel, hv, hv', hstep, hr, hrest]

/-! ### The three pieces of `ProcLut` -/

theorem leadPiece_congr {r : Word} {b o L : Nat}
    (h : o ≠ 0 ∧ 0 < L → memAdmit ps .read b = true → Memory.read m' b = Memory.read m b) :
    leadPiece ps m' c r b o L = leadPiece ps m c r b o L := by
  unfold leadPiece
  split
  · rw [readByte_congr (h ‹_›)]
  · rfl

theorem trailPiece_congr {r : Word} {p rem : Nat}
    (h : 0 < rem → memAdmit ps .read p = true → Memory.read m' p = Memory.read m p) :
    trailPiece ps m' c r p rem = trailPiece ps m c r p rem := by
  unfold trailPiece
  split
  · rw [readByte_congr (h ‹_›)]
  · rfl

/-- A leading piece needs the byte it consumes (R56). -/
theorem leadPiece_admitted {r : Word} {b o L : Nat} {q : Word × Nat × Nat} (h : leadPiece ps m c r b o L = some q)
    (hpos : o ≠ 0 ∧ 0 < L) : memAdmit ps .read b = true := by
  unfold leadPiece at h
  rw [if_pos hpos] at h
  split at h
  · cases h
  · exact (readByte_eq_some.mp ‹_›).1

/-- What the leading piece leaves: whole and trailing bytes up to the end of the range (R194, R196). -/
theorem leadPiece_bounds {r r₁ : Word} {b o L p rem : Nat} (ho : o < 8)
    (h : leadPiece ps m c r b o L = some (r₁, p, rem)) :
    (p = b ∨ o ≠ 0 ∧ 0 < L ∧ p = b + 1) ∧ p + (rem + 7) / 8 = b + bytesTouched o L := by
  unfold leadPiece at h
  unfold bytesTouched
  split at h
  · rename_i hpos
    split at h
    · cases h
    · cases h
      exact ⟨.inr ⟨hpos.1, hpos.2, rfl⟩, by split <;> omega⟩
  · cases h
    exact ⟨.inl rfl, by split <;> omega⟩

/-- `ProcLut` reads admitted bytes of its message and of the table (R196). -/
theorem of_mem_procLutReads {r : Word} {b o L x : Nat} (ho : o < 8) (h : x ∈ procLutReads ps m c r b o L) :
    memAdmit ps .read x = true ∧
      ((b ≤ x ∧ x < b + bytesTouched o L) ∨ (c.table.toNat ≤ x ∧ x < c.table.toNat + tableSize c.deg.toNat)) := by
  unfold procLutReads at h
  split at h
  · cases h
  · rename_i r₁ p rem hlead
    obtain ⟨hp, hend⟩ := leadPiece_bounds ho hlead
    rw [List.mem_append, List.mem_append] at h
    rcases h with hfirst | hlut | hlast
    · split at hfirst
      · rename_i hpos
        obtain rfl := List.mem_singleton.mp hfirst
        refine ⟨leadPiece_admitted hlead hpos, .inl ⟨le_rfl, ?_⟩⟩
        unfold bytesTouched
        split <;> omega
      · cases hfirst
    · obtain ⟨hadm, hwhere⟩ := of_mem_lutReads hlut
      exact ⟨hadm, hwhere.imp_left fun _ => by omega⟩
    · split at hlast
      · cases hlast
      · split at hlast
        · obtain ⟨hadm, hlo, hhi⟩ := of_mem_takeWhile_range' (a := p + rem / 8) (n := 1) hlast
          exact ⟨hadm, .inl (by omega)⟩
        · cases hlast

/-- `ProcLut` depends on the bytes it reads. -/
theorem procLut_congr {r : Word} {b o L : Nat}
    (h : ∀ x ∈ procLutReads ps m c r b o L, Memory.read m' x = Memory.read m x) :
    procLut ps m' c r b o L = procLut ps m c r b o L := by
  have hlead : leadPiece ps m' c r b o L = leadPiece ps m c r b o L :=
    leadPiece_congr fun hpos hadm => h b (by simp [procLutReads, leadPiece, hpos, readByte_of_admitted hadm])
  cases hl : leadPiece ps m c r b o L with
  | none => simp [procLut, hlead, hl]
  | some q =>
    obtain ⟨r₁, p, rem⟩ := q
    have hlut : lutKernel ps m' c (rem / 8) p r₁ = lutKernel ps m c (rem / 8) p r₁ :=
      lutKernel_congr fun x hx => h x (by simp [procLutReads, hl, hx])
    cases hk : lutKernel ps m c (rem / 8) p r₁ with
    | none => simp [procLut, hlead, hl, hlut, hk]
    | some r₂ =>
      have htrail : trailPiece ps m' c r₂ (p + rem / 8) (rem % 8) = trailPiece ps m c r₂ (p + rem / 8) (rem % 8) :=
        trailPiece_congr fun hpos hadm => h _ (by simp [procLutReads, hl, hk, hpos, hadm])
      simp [procLut, hlead, hl, hlut, hk, htrail]

/-! ### PROCESS -/

/-- PROCESS reads admitted bytes of its message range and, with a table attached, of the table (R51, R62). -/
theorem of_mem_rangeReads {r : Word} {b o L x : Nat} (ho : o < 8) (h : x ∈ rangeReads ps m c r b o L) :
    memAdmit ps .read x = true ∧
      ((b ≤ x ∧ x < b + bytesTouched o L) ∨
        (c.table ≠ 0 ∧ c.table.toNat ≤ x ∧ x < c.table.toNat + tableSize c.deg.toNat)) := by
  unfold rangeReads at h
  split at h
  · exact (of_mem_takeWhile_range' h).imp_right .inl
  · rename_i htable
    exact (of_mem_procLutReads ho h).imp_right fun hwhere => hwhere.imp_right fun hin => ⟨htable, hin⟩

/-- The register PROCESS leaves depends on the bytes it reads. -/
theorem processRange_congr {r : Word} {b o L : Nat}
    (h : ∀ x ∈ rangeReads ps m c r b o L, Memory.read m' x = Memory.read m x) :
    processRange ps m' c r b o L = processRange ps m c r b o L := by
  unfold rangeReads at h
  unfold processRange
  split
  · rw [if_pos ‹_›] at h
    exact procBytes_congr h
  · rw [if_neg ‹_›] at h
    exact procLut_congr h

theorem processChecks_iff (a : Args) :
    processChecks a = true ↔
      a.a0 ≠ 0 ∧ a.a1.toNat < 8 ∧ a.a0.toNat + bytesTouched a.a1.toNat a.a2.toNat ≤ 2 ^ 64 := by
  simp only [processChecks, Bool.and_eq_true, decide_eq_true_eq, and_assoc]
  rfl

theorem pendingReads_process {s : State} {p : Pending} {ci si : Nat} (hp : s.pending = some p)
    (hd : decode p.word = .ok (.process ci si)) : pendingReads s = processReads ci si p.args s := by
  simp [pendingReads, hp, hd]

/-- Only a PROCESS in flight reads MEM (R51). -/
theorem exists_process_of_mem_pendingReads {s : State} {x : Nat} (h : x ∈ pendingReads s) :
    ∃ p ci si, s.pending = some p ∧ decode p.word = .ok (.process ci si) := by
  unfold pendingReads at h
  split at h
  · cases h
  · rename_i p hp
    split at h
    · rename_i ci si hd
      exact ⟨p, ci, si, hp, hd⟩
    · cases h

/-- A PROCESS that reads at all passes its checks, and reads admitted bytes of its message or its table. -/
theorem of_mem_processReads {s : State} {ci si x : Nat} {a : Args} (h : x ∈ processReads ci si a s) :
    ∃ c, s.cfg[ci]? = some c ∧ processChecks a = true ∧ memAdmit s.params .read x = true ∧
      ((a.a0.toNat ≤ x ∧ x < a.a0.toNat + bytesTouched a.a1.toNat a.a2.toNat) ∨
        (c.table ≠ 0 ∧ c.table.toNat ≤ x ∧ x < c.table.toNat + tableSize c.deg.toNat)) := by
  unfold processReads at h
  split at h
  · rename_i c y hc hy
    split at h
    · rename_i hk
      have hchecks := (Bool.and_eq_true_iff.mp hk).2
      obtain ⟨-, ho, -⟩ := (processChecks_iff a).mp hchecks
      exact ⟨c, hc, hchecks, of_mem_rangeReads ho h⟩
    · cases h
  · cases h

theorem pos_of_ne_zero {v : Word} (h : v ≠ 0) : 0 < v.toNat :=
  Nat.pos_of_ne_zero fun h0 => h (BitVec.eq_of_toNat_eq h0)

/-- Settles O30: a command in flight that accesses MEM has passed its null check, and an attached table is not at 0. -/
theorem nullAddressIsNeverAccessed : Obligations.NullAddressIsNeverAccessed := by
  refine fun s => ⟨fun hread => ?_, fun hwrite => ?_⟩
  · obtain ⟨p, ci, si, hp, hd⟩ := exists_process_of_mem_pendingReads hread
    rw [pendingReads_process hp hd] at hread
    obtain ⟨c, -, hk, -, ⟨hlo, -⟩ | ⟨htable, hlo, -⟩⟩ := of_mem_processReads hread
    · obtain ⟨hbuffer, -, -⟩ := (processChecks_iff p.args).mp hk
      have := pos_of_ne_zero hbuffer
      omega
    · have := pos_of_ne_zero htable
      omega
  · obtain ⟨p, ci, c, -, -, -, hk, hlo, -⟩ := of_mem_pendingWrites hwrite
    obtain ⟨hoperand, -, -⟩ := (buildChecks_iff s.params.width c p.args).mp hk
    have := pos_of_ne_zero hoperand
    omega

/-- Taking a fault and other contents of MEM do not interfere (R229). -/
theorem State.raise_withMem (s : State) (cause : Cause) (m : Memory) :
    State.raise { s with mem := m } cause = { s.raise cause with mem := m } := by
  unfold State.raise
  split <;> rfl

theorem busInProcess_withMem (si : Nat) (x : StSlot) (s : State) (m : Memory) :
    busInProcess si x { s with mem := m } = { busInProcess si x s with mem := m } :=
  State.raise_withMem (s.drawWord.2.setSt si { x with value := s.drawWord.1 }) .bus m

theorem processInto_withMem {si : Nat} {x : StSlot} {a : Args} {s : State} {m : Memory}
    (h : ∀ y ∈ rangeReads s.params s.mem c x.value a.buffer.toNat a.offset.toNat a.bitLength.toNat,
      Memory.read m y = Memory.read s.mem y) :
    processInto si c x a { s with mem := m } = { processInto si c x a s with mem := m } := by
  unfold processInto
  simp only [processRange_congr h]
  split
  · exact busInProcess_withMem si x s m
  · rfl

/-- PROCESS ends the same way under any contents of MEM that agree on the bytes it reads. -/
theorem processRule_withMem {ci si : Nat} {a : Args} {s : State} {m : Memory}
    (h : ∀ y ∈ processReads ci si a s, Memory.read m y = Memory.read s.mem y) :
    processRule ci si a { s with mem := m } = { processRule ci si a s with mem := m } := by
  unfold processReads at h
  unfold processRule
  dsimp only
  split
  · rename_i c x hc hx
    split
    · exact State.raise_withMem s .unconfigured m
    · rename_i hv
      split
      · exact State.raise_withMem s _ m
      · rename_i hphase
        split
        · rename_i hk
          refine processInto_withMem ?_
          simpa [hc, hx, hv, hphase, hk] using h
        · rfl
  · rfl

/-- Settles O55: the bytes PROCESS reads, and its dependence on them alone. -/
theorem processReadsOnlyItsFootprint : Obligations.ProcessReadsOnlyItsFootprint := by
  intro s p ci si hp hd
  rw [pendingReads_process hp hd]
  refine ⟨fun x hx => ?_, fun t m hagree hexec => ?_⟩
  · obtain ⟨c, hc, -, hadm, hwhere⟩ := of_mem_processReads hx
    exact ⟨hadm, hwhere.imp_right fun hin => ⟨c, hc, hin⟩⟩
  · rw [exec_some hp] at hexec
    cases hexec
    rw [exec_some (s := { s with mem := m }) hp]
    exact congrArg (fun u : State => Host.Outcome.next u.retire) (processRule_withMem hagree)

end Sys2Proof.Machine
end

section
/-! SUPPORT. When PROCESS raises BUS (R56, R170): a message byte that is not admitted, or a table entry that cannot be
read. Over admitted message bytes `ProcLut` is the fold of R196 over whatever table MEM holds. -/

namespace Sys2Proof.Machine

variable {ps : Config.Params} {m : Memory} {c : CfgSlot}

/-! ### A range that is processed is admitted -/

theorem rangeAdmitted_succ {k : Config.AccessKind} {a n : Nat} (h0 : memAdmit ps k a = true)
    (h : rangeAdmitted ps k (a + 1) n) : rangeAdmitted ps k a (n + 1) := by
  intro i hi
  cases i with
  | zero => exact h0
  | succ i =>
    rw [show a + (i + 1) = a + 1 + i by omega]
    exact h i (by omega)

theorem procBytes_admitted {n p o rem : Nat} {r r' : Word} (h : procBytes ps m c n p o rem r = some r') :
    rangeAdmitted ps .read p n := by
  induction n generalizing p o rem r with
  | zero => exact fun i hi => absurd hi (by omega)
  | succ n ih =>
    unfold procBytes at h
    split at h
    · cases h
    · exact rangeAdmitted_succ (readByte_eq_some.mp ‹_›).1 (ih h)

theorem lutKernel_admitted {n b : Nat} {r r' : Word} (h : lutKernel ps m c n b r = some r') :
    rangeAdmitted ps .read b n := by
  induction n generalizing b r with
  | zero => exact fun i hi => absurd hi (by omega)
  | succ n ih =>
    unfold lutKernel at h
    split at h
    · cases h
    · split at h
      · cases h
      · exact rangeAdmitted_succ (readByte_eq_some.mp ‹_›).1 (ih h)

theorem trailPiece_admitted {r r' : Word} {p rem : Nat} (h : trailPiece ps m c r p rem = some r') (hpos : 0 < rem) :
    memAdmit ps .read p = true := by
  unfold trailPiece at h
  rw [if_pos hpos] at h
  split at h
  · cases h
  · exact (readByte_eq_some.mp ‹_›).1

theorem procLut_admitted {r r' : Word} {b o L : Nat} (ho : o < 8) (h : procLut ps m c r b o L = some r') :
    rangeAdmitted ps .read b (bytesTouched o L) := by
  unfold procLut at h
  split at h
  · cases h
  · rename_i r₁ p rem hlead
    split at h
    · cases h
    · rename_i r₂ hlut
      obtain ⟨hp, hend⟩ := leadPiece_bounds ho hlead
      intro i hi
      by_cases hfirst : b + i < p
      · obtain rfl : i = 0 := by omega
        exact leadPiece_admitted hlead (by omega)
      · by_cases hlast : b + i < p + rem / 8
        · have := lutKernel_admitted hlut (b + i - p) (by omega)
          rwa [show p + (b + i - p) = b + i by omega] at this
        · rw [show b + i = p + rem / 8 by omega]
          exact trailPiece_admitted h (by omega)

/-- A range that PROCESS gets through has every message byte admitted, whatever table is attached (R56). -/
theorem processRange_admitted {r r' : Word} {b o L : Nat} (ho : o < 8) (h : processRange ps m c r b o L = some r') :
    rangeAdmitted ps .read b (bytesTouched o L) := by
  unfold processRange at h
  split at h
  · exact procBytes_admitted h
  · exact procLut_admitted ho h

/-! ### `ProcLut` over any table -/

section

variable {T : Nat → Option Word} (hT : tableReads ps m c T)

include hT

/-- Reading entry `i` gives `T i` (R58, R170). -/
theorem readLE_eq_of_tableReads {i : Nat} (hi : i < 256) :
    readLE ps m (c.table.toNat + i * entryBytes c.deg.toNat) (entryBytes c.deg.toNat) = T i := by
  obtain ⟨hnone, hsome⟩ := hT i hi
  cases hTi : T i with
  | none =>
    obtain ⟨j, hj, hstop⟩ := hnone hTi
    rw [Option.eq_none_iff_forall_ne_some]
    intro v hv
    simp [readLE_admitted hv j hj] at hstop
  | some v =>
    obtain ⟨hlt, hbytes⟩ := hsome v hTi
    obtain ⟨v', hv', hbits⟩ := readLE_eq_some (m := m) (entryBytes_le c.deg.toNat) fun j hj => (hbytes j hj).1
    rw [hv']
    refine congrArg some (BitVec.eq_of_getLsbD_eq fun k hk => ?_)
    rw [hbits k hk]
    by_cases hin : k < 8 * entryBytes c.deg.toNat
    · rw [← (hbytes (k / 8) (by omega)).2, BitVec.getLsbD_extractLsb', Nat.div_add_mod]
      simp [hin, Nat.mod_lt]
    · rw [(lt_two_pow_iff v).mp hlt k (by omega)]
      simp [hin]

/-- A LUT step is the step over `T` (R171, R172). -/
theorem lutStep_eq_tableStep (r : Word) (v : Byte) : lutStep ps m c r v = tableStep ps.width.bits c T r v := by
  have hread := readLE_eq_of_tableReads hT (lutIndex_lt ps.width.bits c r v)
  unfold lutStep tableEntry tableStep
  unfold lutIndex at hread ⊢
  unfold lutShift
  cases hio : c.inOrder <;> simp only [hio] at hread ⊢ <;> rw [hread]
  · cases T (((r >>> (ps.width.bits - 8)) ^^^ v.setWidth 64).toNat % 256) <;> rfl
  · cases T ((r ^^^ v.setWidth 64).toNat % 256) <;> rfl

/-- A LUT run over admitted bytes is the fold of the step over `T` (R173). -/
theorem lutKernel_eq_foldlM {n b : Nat} {r : Word} (hadm : rangeAdmitted ps .read b n) :
    lutKernel ps m c n b r =
      ((List.range n).map fun i => Memory.read m (b + i)).foldlM (tableStep ps.width.bits c T) r := by
  induction n generalizing b r with
  | zero => rfl
  | succ n ih =>
    have hrest : rangeAdmitted ps .read (b + 1) n := fun i hi => by
      rw [show b + 1 + i = b + (i + 1) by omega]
      exact hadm (i + 1) (by omega)
    have hbyte : readByte ps m b = some (Memory.read m b) := readByte_of_admitted (hadm 0 (by omega))
    have hshift : (fun i => Memory.read m (b + i)) ∘ Nat.succ = fun i => Memory.read m (b + 1 + i) :=
      funext fun i => congrArg (Memory.read m) (by simp only [Nat.succ_eq_add_one]; omega)
    rw [List.range_succ_eq_map, List.map_cons, List.map_map, hshift, List.foldlM_cons, Nat.add_zero,
      ← lutStep_eq_tableStep hT]
    cases hr : lutStep ps m c r (Memory.read m b) with
    | none => simp [lutKernel, hbyte, hr]
    | some r' => simpa [lutKernel, hbyte, hr] using ih hrest

end

/-- The bits taken from one byte are message bits (R150, R154). -/
theorem bitsOf_eq_messageBits (m : Memory) (ord : BitOrder) (b : Nat) {o k : Nat} (h : o + k ≤ 8) :
    bitsOf ord (Memory.read m b) o k = messageBits m ord b o k := by
  refine List.map_congr_left fun i hi => ?_
  have hi := List.mem_range.mp hi
  unfold bitAt
  rw [show (o + i) / 8 = 0 by omega, show (o + i) % 8 = o + i by omega]
  cases ord <;> rfl

/-- The number of bits of the leading partial byte (R196). -/
def leadBits (o L : Nat) : Nat := if o = 0 then 0 else min (8 - o) L

/-- The first byte after the leading partial byte (R196). -/
def leadNext (b o L : Nat) : Nat := if leadBits o L = 0 then b else b + 1

/-- The fold of R196 by the lengths of its three pieces. -/
theorem tableRange_eq (w : Nat) (c : CfgSlot) (m : Memory) (T : Nat → Option Word) (r : Word) (b o L : Nat) :
    tableRange w c m T r b o L =
      (((List.range ((L - leadBits o L) / 8)).map fun i => Memory.read m (leadNext b o L + i)).foldlM (tableStep w c T)
        (bitKernel w c r (messageBits m c.inOrder b o (leadBits o L)))).map fun r₂ =>
      bitKernel w c r₂
        (messageBits m c.inOrder (leadNext b o L + (L - leadBits o L) / 8) 0 ((L - leadBits o L) % 8)) := rfl

/-- The leading piece over an admitted byte: its bits by the bit-wise kernel (R196). -/
theorem leadPiece_eq {r : Word} {b o L : Nat} (ho : o < 8) (hadm : 0 < leadBits o L → memAdmit ps .read b = true) :
    leadPiece ps m c r b o L =
      some (bitKernel ps.width.bits c r (messageBits m c.inOrder b o (leadBits o L)),
        leadNext b o L, L - leadBits o L) := by
  unfold leadPiece leadNext
  by_cases hpos : o ≠ 0 ∧ 0 < L
  · have hk : leadBits o L = min (8 - o) L := if_neg hpos.1
    have hk0 : leadBits o L ≠ 0 := by omega
    rw [if_pos hpos, readByte_of_admitted (hadm (by omega)), if_neg hk0, hk,
      ← bitsOf_eq_messageBits m c.inOrder b (by omega)]
  · have hk : leadBits o L = 0 := by
      unfold leadBits
      split <;> omega
    simp [hpos, hk, messageBits]

/-- The trailing piece over an admitted byte: its bits by the bit-wise kernel (R196). -/
theorem trailPiece_eq {r : Word} {p rem : Nat} (hrem : rem < 8) (hadm : 0 < rem → memAdmit ps .read p = true) :
    trailPiece ps m c r p rem = some (bitKernel ps.width.bits c r (messageBits m c.inOrder p 0 rem)) := by
  unfold trailPiece
  by_cases hpos : 0 < rem
  · rw [if_pos hpos, readByte_of_admitted (hadm hpos),
      ← bitsOf_eq_messageBits m c.inOrder p (o := 0) (k := rem) (by omega)]
  · obtain rfl : rem = 0 := by omega
    rfl

/-- Over an admitted message `ProcLut` is the fold of R196 over the table MEM holds, whatever built it. -/
theorem procLut_eq_tableRange {T : Nat → Option Word} (hT : tableReads ps m c T) {r : Word} {b o L : Nat} (ho : o < 8)
    (hadm : rangeAdmitted ps .read b (bytesTouched o L)) :
    procLut ps m c r b o L = tableRange ps.width.bits c m T r b o L := by
  have hlead : leadPiece ps m c r b o L = _ := leadPiece_eq ho fun hpos => hadm 0 (by
    unfold leadBits at hpos
    unfold bytesTouched
    split at hpos <;> split <;> omega)
  obtain ⟨hp, hend⟩ := leadPiece_bounds ho hlead
  have hsub (i : Nat) (hi : i < (L - leadBits o L + 7) / 8) :
      memAdmit ps .read (leadNext b o L + i) = true := by
    have := hadm (leadNext b o L + i - b) (by omega)
    rwa [Nat.add_sub_cancel' (by omega)] at this
  have hlut (r₁ : Word) := lutKernel_eq_foldlM hT (r := r₁) fun i (hi : i < (L - leadBits o L) / 8) =>
    hsub i (by omega)
  have htrail (r₂ : Word) := trailPiece_eq (m := m) (c := c) (r := r₂) (Nat.mod_lt (L - leadBits o L) (by decide))
    fun hpos => hsub ((L - leadBits o L) / 8) (by omega)
  simp only [procLut, hlead, hlut, htrail, tableRange_eq]
  split
  · rw [‹List.foldlM _ _ _ = _›, Option.map_none]
  · rw [‹List.foldlM _ _ _ = _›, Option.map_some]

/-! ### PROCESS -/

/-- Outside the conditions of R222 the checks of PROCESS on a valid slot in a running phase pass (R194). -/
theorem processChecks_of_not_invalidCase {s : State} {ci si : Nat} {x : StSlot} {a : Args} (hc : s.cfg[ci]? = some c)
    (hx : s.st[si]? = some x) (hv : c.valid = true) (hphase : x.phase = .fresh ∨ x.phase = .accum)
    (hk : ¬ invalidCase (.process ci si) a s) : processChecks a = true := by
  rw [processChecks_iff]
  by_contra hfail
  refine hk (Or.inr (.inr ⟨c, x, hc, hx, hv, hphase, ?_⟩))
  by_cases h0 : a.a0 = 0
  · exact .inl h0
  · exact .inr (by simp only [ne_eq, h0, not_false_eq_true, true_and] at hfail; omega)

theorem processRule_of_checks {s : State} {ci si : Nat} {x : StSlot} {a : Args} (hc : s.cfg[ci]? = some c)
    (hx : s.st[si]? = some x) (hv : c.valid = true) (hphase : x.phase = .fresh ∨ x.phase = .accum)
    (hk : processChecks a = true) : processRule ci si a s = processInto si c x a s := by
  simp [processRule, hc, hx, hv, phaseCause_eq_none.mpr hphase, hk]

/-- PROCESS over a range it cannot get through leaves a free value in VALUE and raises BUS (R227). -/
theorem processInto_bus {s : State} {si : Nat} {x : StSlot} {a : Args}
    (h : processRange s.params s.mem c x.value a.a0.toNat a.a1.toNat a.a2.toNat = none) :
    processInto si c x a s = busInProcess si x s := by
  rcases processInto_cases si c x a s with ⟨r, hr, -⟩ | ⟨-, h'⟩
  · exact absurd (h.symm.trans hr) nofun
  · exact h'

theorem busInProcess_retire (si : Nat) (x : StSlot) (s : State) :
    (busInProcess si x s).retire =
      { s with
        pending := none
        status := s.status.faulted .bus
        st := s.st.set si { x with value := s.drawWord.1 }
        draws := s.draws + 1 } := State.raise_retire _ _

/-- Settles O54: PROCESS gets through no range with a message byte that is not admitted, and otherwise through a range
with a table exactly when the fold of R196 does. -/
theorem processBusFaultLeavesAnOpenValue : Obligations.ProcessBusFaultLeavesAnOpenValue := by
  intro s p ci si c x hp hc hx hv hphase hvalid hbad
  have hk := processChecks_of_not_invalidCase hc hx hv hphase hvalid
  obtain ⟨-, ho, -⟩ := (processChecks_iff p.args).mp hk
  have hnone : processRange s.params s.mem c x.value p.args.a0.toNat p.args.a1.toNat p.args.a2.toNat = none := by
    rw [Option.eq_none_iff_forall_ne_some]
    intro r hr
    have hadm := processRange_admitted ho hr
    rcases hbad with ⟨k, hlt, hstop⟩ | ⟨htable, T, hT, hrange⟩
    · simp [hadm k hlt] at hstop
    · rw [processRange, if_neg htable, procLut_eq_tableRange hT ho hadm, hrange] at hr
      cases hr
  refine ⟨s.drawWord.1, trunc_lt s.W _, ?_⟩
  rw [exec_some hp, ruleOf, processRule_of_checks hc hx hv hphase hk, processInto_bus hnone, busInProcess_retire]
  rfl

end Sys2Proof.Machine
end

section
/-! SUPPORT. The command word (R81 to R90): the decoder as a function of the word's five fields, the fields of an encoded
command, and what completes when a word names no command. -/

namespace Sys2Proof.Machine

/-! ### The decoder by its fields -/

/-- The command of an OP value with the given slot indices, the rows of R83. -/
def opCommand (op ci si : Nat) : Except Reserved Instr :=
  match op with
  | 0x1 => .ok (.configure ci)
  | 0x2 => .ok (.buildTable ci)
  | 0x3 => .ok .sizeofTable
  | 0x4 => .ok (.reset ci si)
  | 0x5 => .ok (.process ci si)
  | 0x6 => .ok (.finalize ci si)
  | _ => .error .opcode

theorem opCommand_reserved {op : Nat} (h : op = 0 ∨ 7 ≤ op) (ci si : Nat) : opCommand op ci si = .error .opcode := by
  rcases h with rfl | h
  · rfl
  · obtain ⟨k, rfl⟩ := Nat.exists_eq_add_of_le' h
    rfl

/-- A field of R10 is a run of bits. -/
theorem wordField_eq (w : Word) (hi lo : Nat) : wordField w hi lo = (w.extractLsb' lo (hi - lo + 1)).toNat :=
  (BitVec.extractLsb'_toNat ..).symm

/-- The decoder of R85 reads the two reserved fields, OP, CI and SI, and no other bit. -/
theorem decode_eq (w : Word) :
    decode w =
      if w.extractLsb' 4 4 ≠ 0 then .error .bits7to4
      else if w.extractLsb' 24 40 ≠ 0 then .error .bits63to24
      else opCommand (w.extractLsb' 0 4).toNat (w.extractLsb' 8 8).toNat (w.extractLsb' 16 8).toNat := by
  simp only [decode, wordField_eq, ne_eq, ← BitVec.toNat_inj]
  rfl

/-- A word with its reserved bits clear is the command of its OP (R83, R85). -/
theorem decode_of_reserved_clear {w : Word} (h4 : w.extractLsb' 4 4 = 0) (h24 : w.extractLsb' 24 40 = 0) :
    decode w = opCommand (w.extractLsb' 0 4).toNat (w.extractLsb' 8 8).toNat (w.extractLsb' 16 8).toNat := by
  rw [decode_eq, if_neg (not_not_intro h4), if_neg (not_not_intro h24)]

/-- The Reserved words of R87. -/
theorem decode_reserved {w : Word}
    (h : w.extractLsb' 0 4 = 0 ∨ 7 ≤ (w.extractLsb' 0 4).toNat ∨ w.extractLsb' 4 4 ≠ 0 ∨ w.extractLsb' 24 40 ≠ 0) :
    ∃ e, decode w = .error e := by
  rw [decode_eq]
  split
  · exact ⟨_, rfl⟩
  · split
    · exact ⟨_, rfl⟩
    · refine ⟨_, opCommand_reserved ?_ _ _⟩
      rcases h with h | h | h | h
      · exact .inl (by rw [h]; rfl)
      · exact .inr h
      all_goals contradiction

/-- Settles O2: each OP value picks its row of `opCommand`. -/
theorem decodeFollowsTheFieldTable : Obligations.DecodeFollowsTheFieldTable := by
  refine fun w => ⟨fun h => decode_reserved (.inr (.inr h)), fun h4 h24 => ?_⟩
  have hrow {op : BitVec 4} (hop : w.extractLsb' 0 4 = op) :
      decode w = opCommand op.toNat (w.extractLsb' 8 8).toNat (w.extractLsb' 16 8).toNat :=
    hop ▸ decode_of_reserved_clear h4 h24
  exact ⟨hrow, hrow, hrow, hrow, hrow, hrow, fun h => decode_reserved (h.imp_right .inl)⟩

/-- Settles O1: `decode` evaluated on the eight words. -/
theorem decodesTheSpecsCommandWords : Obligations.DecodesTheSpecsCommandWords := by
  unfold Obligations.DecodesTheSpecsCommandWords
  decide

/-! ### The encoder -/

/-- The fields of an encoded word are those it was made from, with the reserved bits clear, when each fits (R81). -/
theorem extractLsb'_commandWord {op ci si : Nat} (hop : op < 16) (hci : ci < 256) (hsi : si < 256) :
    (commandWord op ci si).extractLsb' 4 4 = 0 ∧ (commandWord op ci si).extractLsb' 24 40 = 0 ∧
      ((commandWord op ci si).extractLsb' 0 4).toNat = op ∧ ((commandWord op ci si).extractLsb' 8 8).toNat = ci ∧
      ((commandWord op ci si).extractLsb' 16 8).toNat = si := by
  have hword : (commandWord op ci si).toNat = op + ci * 2 ^ 8 + si * 2 ^ 16 := by
    rw [commandWord, BitVec.toNat_ofNat, Nat.mod_eq_of_lt (by omega)]
  simp only [extractLsb'_eq_iff, BitVec.extractLsb'_toNat, Nat.shiftRight_eq_div_pow, hword, BitVec.reduceToNat]
  refine ⟨?_, ?_, ?_, ?_, ?_⟩ <;> omega

/-- Decoding undoes the packing of fields that fit (R81, R85). -/
theorem decode_commandWord {op ci si : Nat} (hop : op < 16) (hci : ci < 256) (hsi : si < 256) :
    decode (commandWord op ci si) = opCommand op ci si := by
  obtain ⟨h4, h24, h0, h8, h16⟩ := extractLsb'_commandWord hop hci hsi
  rw [decode_of_reserved_clear h4 h24, h0, h8, h16]

theorem indexFits_iff {k : Nat} : indexFits k = true ↔ k < 256 := decide_eq_true_iff

/-- Settles O3: every command is the row of `opCommand` for the fields `encode` writes. -/
theorem decodeEncodeAgree : Obligations.DecodeEncodeAgree := by
  intro i hwf
  cases i <;> simp only [Instr.wellFormed, Bool.and_eq_true, indexFits_iff] at hwf
  case configure | buildTable => exact decode_commandWord (by decide) hwf (by decide)
  case sizeofTable => exact decode_commandWord (by decide) (by decide) (by decide)
  case reset | process | finalize =>
    obtain ⟨hci, hsi⟩ := hwf
    exact decode_commandWord (by decide) hci hsi

/-! ### Unused index fields -/

/-- Changing bits outside a mask leaves every field the mask covers. -/
theorem extractLsb'_xor_of_masked {m k : Word} {lo n : Nat} (hm : m &&& k = 0)
    (hk : k.extractLsb' lo n = BitVec.allOnes n) (w : Word) : (w ^^^ m).extractLsb' lo n = w.extractLsb' lo n := by
  have hfield : m.extractLsb' lo n = 0 := by
    rw [← BitVec.and_allOnes (x := m.extractLsb' lo n), ← hk, ← BitVec.extractLsb'_and, hm]
    exact BitVec.extractLsb'_zero
  rw [BitVec.extractLsb'_xor, hfield]
  exact BitVec.xor_zero

/-- The decoder depends on the index fields only through the command of the word's OP (R82). -/
theorem decode_congr {v w : Word} (h4 : v.extractLsb' 4 4 = w.extractLsb' 4 4)
    (h24 : v.extractLsb' 24 40 = w.extractLsb' 24 40)
    (hcmd : opCommand (v.extractLsb' 0 4).toNat (v.extractLsb' 8 8).toNat (v.extractLsb' 16 8).toNat =
      opCommand (w.extractLsb' 0 4).toNat (w.extractLsb' 8 8).toNat (w.extractLsb' 16 8).toNat) :
    decode v = decode w := by
  rw [decode_eq, decode_eq, h4, h24, hcmd]

/-- Completion takes nothing from the word but the command it decodes to (R190). -/
theorem completeWord_congr {v w : Word} (h : decode v = decode w) (s : State) : completeWord v s = completeWord w s := by
  rw [completeWord, completeWord, h]

/-- Settles O4: the masks cover every field the decoder reads for the word's OP. -/
theorem unusedIndexFieldsHaveNoEffect : Obligations.UnusedIndexFieldsHaveNoEffect := by
  intro w m h
  have hdecode : decode (w ^^^ m) = decode w := by
    rcases h with ⟨hop, hm⟩ | ⟨hop, hm⟩
    · have keeps {lo n : Nat} (hk : (0xFFFFFFFFFF00FFFF : Word).extractLsb' lo n = BitVec.allOnes n) :=
        extractLsb'_xor_of_masked hm hk w
      refine decode_congr (keeps (by decide)) (keeps (by decide)) ?_
      rw [keeps (lo := 0) (by decide), keeps (lo := 8) (by decide)]
      rcases hop with hop | hop <;> rw [hop] <;> rfl
    · have keeps {lo n : Nat} (hk : (0xFFFFFFFFFF0000FF : Word).extractLsb' lo n = BitVec.allOnes n) :=
        extractLsb'_xor_of_masked hm hk w
      refine decode_congr (keeps (by decide)) (keeps (by decide)) ?_
      rw [keeps (lo := 0) (by decide), hop]
      rfl
  exact ⟨hdecode, completeWord_congr hdecode⟩

/-! ### Reserved words -/

/-- With no turn fixed and a command in flight, the step is its completion (R190). -/
theorem step_of_pending {s : State} {p : Pending} (hp : s.pending = some p) (hturns : s.turns = []) :
    step s = completeWord p.word s := by
  simp [step, hturns, hp, takeTurn, blockTurn]

/-- A word the decoder refuses completes with NOT_SUPPORTED (R87). -/
theorem completeWord_error {w : Word} {e : Reserved} (he : decode w = .error e) {s : State} {p : Pending}
    (hp : s.pending = some p) : completeWord w s = .next (s.finish .notSupported).retire := by
  rw [completeWord, he]
  exact State.completing_some hp _

/-- Settles O6: a Reserved word decodes to an error, whose completion writes CODE and retires the command. -/
theorem reservedWordsCompleteNotSupported : Obligations.ReservedWordsCompleteNotSupported := by
  intro s p hp hturns hreserved
  obtain ⟨e, he⟩ := decode_reserved hreserved
  rw [step_of_pending hp hturns, completeWord_error he hp, State.finish_retire]
  rfl

end Sys2Proof.Machine
end

section
/-! SUPPORT. The Polynomial Normalizer (R100 to R112): the Bit-Mirror unit, the checks and the effect of CONFIGURE, where
the bits of a configured slot sit, and the stored output mask as FINALIZE applies it. -/

namespace Sys2Proof.Machine

/-! ### The Bit-Mirror unit -/

theorem getLsbD_mirror64 (v : Word) {i : Nat} (hi : i < 64) : (mirror64 v).getLsbD (63 - i) = v.getLsbD i := by
  unfold mirror64
  rw [BitVec.getLsbD_reverse, BitVec.getMsbD_eq_getLsbD, decide_eq_true (by omega), Bool.true_and,
    show 64 - 1 - (63 - i) = i by omega]

/-- `mirror_n` undoes itself on `n`-bit values (R101). -/
theorem mirror_mirror {n : Nat} (hn : n ≤ 64) {v : Word} (hv : v.toNat < 2 ^ n) : mirror n (mirror n v) = v := by
  refine BitVec.eq_of_getLsbD_eq fun i _ => ?_
  rw [getLsbD_mirror hn, getLsbD_mirror hn]
  by_cases hi : i < n
  · rw [decide_eq_true hi, decide_eq_true (by omega), Bool.true_and, Bool.true_and,
      show n - 1 - (n - 1 - i) = i by omega]
  · simp [hi, (lt_two_pow_iff v).mp hv i (by omega)]

theorem mirror_xor {n : Nat} (hn : n ≤ 64) (a b : Word) : mirror n (a ^^^ b) = mirror n a ^^^ mirror n b := by
  refine BitVec.eq_of_getLsbD_eq fun i _ => ?_
  simp only [BitVec.getLsbD_xor, getLsbD_mirror hn, Bool.and_xor_distrib_left]

/-- Settles O41: each clause is the bit-wise law of the mirror it speaks of. -/
theorem mirrorReversesBits : Obligations.MirrorReversesBits := by
  refine ⟨fun v i hi => getLsbD_mirror64 v hi, fun _ _ => rfl, fun w v i hi => ?_, fun w v => mirror_mirror w.bits_le⟩
  rw [getLsbD_mirror w.bits_le, decide_eq_true (by omega), Bool.true_and,
    show w.bits - 1 - (w.bits - 1 - i) = i by omega]

/-! ### CONFIGURE -/

/-- The order operands are 0 and 1 (R12). -/
theorem orderOfOperand_of_le {v : Word} (h : v.toNat ≤ 1) : orderOfOperand v = some (if v = 0 then .msb else .lsb) := by
  unfold orderOfOperand
  split
  · rfl
  · rename_i h0
    have hne : v.toNat ≠ 0 := fun h' => h0 (BitVec.eq_of_toNat_eq h')
    rw [if_pos (BitVec.eq_of_toNat_eq (show v.toNat = 1 by omega))]

theorem le_of_orderOfOperand {v : Word} {o : BitOrder} (h : orderOfOperand v = some o) : v.toNat ≤ 1 := by
  unfold orderOfOperand at h
  split_ifs at h with h0 h1
  · simp [h0]
  · simp [h1]

/-- The null table address is aligned (R55). -/
theorem tableAligned_iff (w : Width) (t : Word) :
    tableAligned w t = true ↔ ¬ (t ≠ 0 ∧ t.toNat % (w.bits / 8) ≠ 0) := by
  simp only [tableAligned, Width.bytes_eq, decide_eq_true_eq, ne_eq, not_and, not_not]
  refine ⟨fun h _ => h, fun h => ?_⟩
  by_cases ht : t = 0
  · simp [ht]
  · exact h ht

/-- The conditions of R222 fail for CONFIGURE exactly when the slot exists and the operands pass R109. -/
theorem not_invalidCase_configure {ci : Nat} {a : Args} {s : State} :
    ¬ invalidCase (.configure ci) a s ↔
      ci < s.ncfg ∧ configChecks s.params.width a = true ∧ a.a4.toNat ≤ 1 ∧ a.a5.toNat ≤ 1 := by
  have hchecks : configChecks s.params.width a = true ↔
      a.a0 ≠ 0 ∧ bitlen a.a0 ≤ s.W ∧ ¬ (a.a3 ≠ 0 ∧ a.a3.toNat % (s.W / 8) ≠ 0) ∧ a.a1.toNat < 2 ^ bitlen a.a0 ∧
        a.a2.toNat < 2 ^ bitlen a.a0 := by
    rw [← tableAligned_iff]
    simp only [configChecks, Bool.and_eq_true, decide_eq_true_eq, and_assoc]
    rfl
  rw [hchecks]
  simp only [invalidCase, not_or, Nat.not_le, Nat.not_lt, ne_eq, and_assoc]

/-- A rejected CONFIGURE writes CODE alone (R109). -/
theorem configureRule_of_invalidCase {ci : Nat} {a : Args} {s : State} (h : invalidCase (.configure ci) a s) :
    configureRule ci a s = s.finish .invalidParam := by
  rcases configureRule_cases ci a s with ⟨io, oo, hci, hk, hio, hoo, -⟩ | hrule
  · exact absurd h (not_invalidCase_configure.mpr ⟨hci, hk, le_of_orderOfOperand hio, le_of_orderOfOperand hoo⟩)
  · exact hrule

/-- A CONFIGURE that passes its checks writes the slot whole (R108). -/
theorem configureRule_of_not_invalidCase {ci : Nat} {a : Args} {s : State} (h : ¬ invalidCase (.configure ci) a s) :
    configureRule ci a s =
      (s.setCfg ci (configSlot s.W a.a0 a.a1 a.a2 a.a3 (if a.a4 = 0 then .msb else .lsb)
        (if a.a5 = 0 then .msb else .lsb))).finish .success := by
  obtain ⟨hci, hk, hio, hoo⟩ := not_invalidCase_configure.mp h
  have hio' : orderOfOperand a.inputOrder = _ := orderOfOperand_of_le hio
  have hoo' : orderOfOperand a.outputOrder = _ := orderOfOperand_of_le hoo
  unfold configureRule
  rw [if_neg (by omega), if_pos hk, hio', hoo']
  rfl

/-- Settles O37: the slot written is that of R108, whose order operands pick the branches of R105 to R107. -/
theorem configureWritesTheSlot : Obligations.ConfigureWritesTheSlot := by
  intro s p ci hp
  rw [exec_some hp]
  refine ⟨fun h => ?_, fun h => ?_⟩
  · rw [ruleOf, configureRule_of_invalidCase h]
    rfl
  · rw [ruleOf, configureRule_of_not_invalidCase h]
    split_ifs <;> rfl

/-! ### Words by their lowest and highest set bits -/

/-- A word is a multiple of `2^k` exactly when it has no bit below `k`. -/
theorem mod_two_pow_eq_zero_iff {k : Nat} (v : Word) : v.toNat % 2 ^ k = 0 ↔ ∀ i < k, v.getLsbD i = false := by
  constructor
  · intro h i hi
    have hbit := Nat.testBit_mod_two_pow v.toNat k i
    rw [h, Nat.zero_testBit, decide_eq_true hi, Bool.true_and] at hbit
    exact hbit.symm
  · intro h
    refine Nat.eq_of_testBit_eq fun i => ?_
    rw [Nat.testBit_mod_two_pow, Nat.zero_testBit]
    by_cases hi : i < k
    · rw [show v.toNat.testBit i = false from h i hi, Bool.and_false]
    · simp [hi]

theorem shiftLeft_mod (v : Word) (k : Nat) : (v <<< k).toNat % 2 ^ k = 0 :=
  (mod_two_pow_eq_zero_iff _).mpr fun i hi => by simp [hi]

theorem shiftLeft_ushiftRight_cancel {n k : Nat} {v : Word} (hv : v.toNat < 2 ^ n) (h : n + k ≤ 64) :
    (v <<< k) >>> k = v := by
  refine BitVec.eq_of_getLsbD_eq fun i _ => ?_
  rw [BitVec.getLsbD_ushiftRight, BitVec.getLsbD_shiftLeft, Nat.add_sub_cancel_left]
  by_cases hi : n ≤ i
  · simp [(lt_two_pow_iff v).mp hv i hi]
  · rw [decide_eq_true (by omega), decide_eq_false (by omega), Bool.true_and, Bool.not_false, Bool.true_and]

/-- Mirroring moves the `d` low bits to the top of the register (R101). -/
theorem mirror_mod_of_lt {w d : Nat} (hw : w ≤ 64) {v : Word} (hv : v.toNat < 2 ^ d) :
    (mirror w v).toNat % 2 ^ (w - d) = 0 :=
  (mod_two_pow_eq_zero_iff _).mpr fun i hi => by
    simp [getLsbD_mirror hw, (lt_two_pow_iff v).mp hv (w - 1 - i) (by omega)]

/-- Mirroring moves the `d` top bits of the register down to its low bits (R101). -/
theorem mirror_lt_of_mod {w d : Nat} (hw : w ≤ 64) {v : Word} (hv : v.toNat % 2 ^ (w - d) = 0) :
    (mirror w v).toNat < 2 ^ d :=
  (lt_two_pow_iff _).mpr fun i hi => by
    rw [getLsbD_mirror hw]
    by_cases hiw : i < w
    · simp [(mod_two_pow_eq_zero_iff v).mp hv (w - 1 - i) (by omega)]
    · simp [hiw]

/-- The trailing zeros of a word whose lowest set bit is bit `k`. -/
theorem ctz_eq_of_lowest_bit {k : Nat} {v : Word} (hbit : v.getLsbD k = true) (hlow : v.toNat % 2 ^ k = 0) :
    v.ctz.toNat = k := by
  have hne : v ≠ 0 := by rintro rfl; simp at hbit
  rcases Nat.lt_trichotomy v.ctz.toNat k with h | h | h
  · have := BitVec.getLsbD_true_ctz_of_ne_zero hne
    simp [(mod_two_pow_eq_zero_iff v).mp hlow _ h] at this
  · exact h
  · simp [BitVec.getLsbD_false_of_lt_ctz h] at hbit

/-- The length of a word whose highest set bit is bit `d - 1` (R10). -/
theorem bitlen_eq_of_highest_bit {d : Nat} {v : Word} (hd : 1 ≤ d) (hbit : v.getLsbD (d - 1) = true)
    (hlt : v.toNat < 2 ^ d) : bitlen v = d := by
  have hne : v ≠ 0 := by rintro rfl; simp at hbit
  have hle : 2 ^ (d - 1) ≤ v.toNat := Nat.ge_two_pow_of_testBit hbit
  have hlog : v.toNat.log2 = d - 1 :=
    (Nat.log2_eq_iff (by have := Nat.two_pow_pos (d - 1); omega)).mpr ⟨hle, by rwa [Nat.sub_add_cancel hd]⟩
  rw [bitlen, if_neg hne, hlog]
  omega

/-! ### The canonical forms -/

/-- The `x^0` coefficient of the generator, which the operand leaves out, stands at bit `W - d` (R103, R104). -/
theorem getLsbD_forwardPoly {w d : Nat} (hd : 1 ≤ d) (hdw : d ≤ w) (hw : w ≤ 64) (p : Word) :
    (forwardPoly w d p).getLsbD (w - d) = true := by
  rw [forwardPoly, normalForm, BitVec.getLsbD_shiftLeft, Nat.sub_self, getLsbD_trunc, BitVec.getLsbD_or]
  simp [show w - d < 64 by omega, show 0 < d by omega]

section
variable {w d : Nat} (hw : w ≤ 64)
include hw

theorem canonPoly_lsb_lt (p : Word) : (canonPoly w d .lsb p).toNat < 2 ^ d :=
  mirror_lt_of_mod hw (shiftLeft_mod _ _)

theorem canonIxor_lsb_lt (ix : Word) : (canonIxor w d .lsb ix).toNat < 2 ^ d :=
  mirror_lt_of_mod hw (shiftLeft_mod _ _)

theorem canonOxor_msb_mod {ox : Word} (hox : ox.toNat < 2 ^ d) (oo : BitOrder) :
    (canonOxor w d .msb oo ox).toNat % 2 ^ (w - d) = 0 := by
  cases oo with
  | msb => exact shiftLeft_mod ox _
  | lsb => exact mirror_mod_of_lt hw hox

theorem canonOxor_lsb_lt {ox : Word} (hox : ox.toNat < 2 ^ d) (oo : BitOrder) :
    (canonOxor w d .lsb oo ox).toNat < 2 ^ d := by
  cases oo with
  | msb => exact mirror_lt_of_mod hw (shiftLeft_mod ox _)
  | lsb => exact hox

/-- With LSB input the `x^0` coefficient stands at bit `d - 1` (R105). -/
theorem getLsbD_canonPoly_lsb (hd : 1 ≤ d) (hdw : d ≤ w) (p : Word) :
    (canonPoly w d .lsb p).getLsbD (d - 1) = true := by
  rw [canonPoly, getLsbD_mirror hw, show w - 1 - (d - 1) = w - d by omega, getLsbD_forwardPoly hd hdw hw,
    decide_eq_true (by omega), Bool.true_and]

end

/-- The operands behind a configured slot: its degree and its canonical forms are theirs (R22). -/
theorem CfgSlot.configured_operands {w : Width} {c : CfgSlot} (h : c.configured w) :
    ∃ (a : Args) (oo : BitOrder), configChecks w a = true ∧ bitlen a.a0 = c.deg.toNat ∧
      c.poly = canonPoly w.bits c.deg.toNat c.inOrder a.a0 ∧ c.ixor = canonIxor w.bits c.deg.toNat c.inOrder a.a1 ∧
      c.oxor = canonOxor w.bits c.deg.toNat c.inOrder oo a.a2 := by
  obtain ⟨a, io, oo, hk, -, -, -, hc⟩ := h
  have hdeg : c.deg.toNat = bitlen a.a0 := by rw [hc]; exact configSlot_deg ..
  rw [hdeg, hc]
  exact ⟨a, oo, hk, rfl, rfl, rfl, rfl⟩

/-- Settles O38: the shift of R104 clears the bits below `W - d`, and the mirror exchanges them for those from `d` up. -/
theorem canonicalFormsSitInTheirBits : Obligations.CanonicalFormsSitInTheirBits := by
  intro w c h
  obtain ⟨hd, hdw, hpoly, hixor, hoxor⟩ := CfgSlot.configured_bounds h
  obtain ⟨a, oo, hk, hdeg, hp, hx, ho⟩ := CfgSlot.configured_operands h
  obtain ⟨-, -, -, -, hox⟩ := configChecks_spec hk
  rw [hdeg] at hox
  refine ⟨fun hio => ?_, fun hio => ?_⟩ <;> rw [hio] at hp hx ho
  · have hbit : c.poly.getLsbD (w.bits - c.deg.toNat) = true := hp ▸ getLsbD_forwardPoly hd hdw w.bits_le _
    have hlow : c.poly.toNat % 2 ^ (w.bits - c.deg.toNat) = 0 := hp ▸ shiftLeft_mod _ _
    exact ⟨hbit, hlow, hx ▸ shiftLeft_mod _ _, ho ▸ canonOxor_msb_mod w.bits_le hox oo, hpoly, hixor, hoxor,
      ctz_eq_of_lowest_bit hbit hlow⟩
  · have hbit : c.poly.getLsbD (c.deg.toNat - 1) = true := hp ▸ getLsbD_canonPoly_lsb w.bits_le hd hdw _
    have hlt : c.poly.toNat < 2 ^ c.deg.toNat := hp ▸ canonPoly_lsb_lt w.bits_le _
    exact ⟨hbit, hlt, hx ▸ canonIxor_lsb_lt w.bits_le _, ho ▸ canonOxor_lsb_lt w.bits_le hox oo,
      bitlen_eq_of_highest_bit hd hbit hlt⟩

/-- Settles O39: the `x^0` coefficient, always 1, is the lowest or the highest set bit of POLY (R111). -/
theorem degreeIsRecoverable : Obligations.DegreeIsRecoverable := by
  intro w c h
  obtain ⟨hd, hdw, -⟩ := CfgSlot.configured_bounds h
  obtain ⟨hmsb, hlsb⟩ := canonicalFormsSitInTheirBits w c h
  refine ⟨hd, hdw, fun hio => ?_, fun hio => ?_⟩
  · obtain ⟨-, -, -, -, -, -, -, hctz⟩ := hmsb hio
    omega
  · obtain ⟨-, -, -, -, hlen⟩ := hlsb hio
    exact hlen.symm

/-! ### The stored output mask -/

/-- FINALIZE's correction is linear: it moves bits and drops some (R201). -/
theorem correct_xor {w : Nat} (hw : w ≤ 64) (c : CfgSlot) (a b : Word) :
    correct w c (a ^^^ b) = correct w c a ^^^ correct w c b := by
  unfold correct
  cases c.inOrder <;> cases c.outOrder <;> simp [mirror_xor hw, BitVec.ushiftRight_xor_distrib]

/-- The stored output mask is corrected back to the operand (R107, R201). -/
theorem correct_canonOxor {w : Nat} {p ox : Word} (hw : w ≤ 64) (hd : bitlen p ≤ w) (hox : ox.toNat < 2 ^ bitlen p)
    (ix t : Word) (io oo : BitOrder) :
    correct w (configSlot w p ix ox t io oo) (canonOxor w (bitlen p) io oo ox) = ox := by
  have hcancel : (ox <<< (w - bitlen p)) >>> (w - bitlen p) = ox := shiftLeft_ushiftRight_cancel hox (by omega)
  have hlt : ox.toNat < 2 ^ w := Nat.lt_of_lt_of_le hox (Nat.pow_le_pow_right (by omega) hd)
  unfold correct
  rw [configSlot_deg]
  match io, oo with
  | .msb, .msb => exact hcancel
  | .msb, .lsb => exact mirror_mirror hw hlt
  | .lsb, .lsb => rfl
  | .lsb, .msb =>
    show mirror w (mirror w (ox <<< (w - bitlen p))) >>> (w - bitlen p) = ox
    rw [mirror_mirror hw (shiftLeft_top_lt hox hd), hcancel]

/-- Settles O40: the correction is linear, and takes OXOR to outputXOR. -/
theorem outputMaskAppliesInOutputOrientation : Obligations.OutputMaskAppliesInOutputOrientation := by
  intro w a io oo v hk
  obtain ⟨-, hd, -, -, hox⟩ := configChecks_spec hk
  rw [correct_xor w.bits_le, correct_canonOxor w.bits_le hd hox]

end Sys2Proof.Machine
end

section
/-! SUPPORT. Table sizing and the completed build (R130 to R136): the entry width of each range of degrees, SIZEOF_TABLE,
and a BUILD_TABLE whose table bytes are all admitted. -/

namespace Sys2Proof.Machine

/-! ### The size of a table -/

theorem entryBytes_eq_one {d : Nat} (h : d ≤ 8) : entryBytes d = 1 := if_pos h

theorem entryBytes_eq_two {d : Nat} (hlo : 9 ≤ d) (h : d ≤ 16) : entryBytes d = 2 := by
  rw [entryBytes, if_neg (by omega), if_pos h]

theorem entryBytes_eq_four {d : Nat} (hlo : 17 ≤ d) (h : d ≤ 32) : entryBytes d = 4 := by
  rw [entryBytes, if_neg (by omega), if_neg (by omega), if_pos h]

theorem entryBytes_eq_eight {d : Nat} (hlo : 33 ≤ d) : entryBytes d = 8 := by
  rw [entryBytes, if_neg (by omega), if_neg (by omega), if_neg (by omega)]

/-- Settles O43: TBLSIZE is 256 times the entry width of each range, and a configured slot's degree is at most `W`. -/
theorem entryWidthsFollowTheDegree : Obligations.EntryWidthsFollowTheDegree := by
  refine ⟨fun d h => ?_, fun d hlo h => ?_, fun d hlo h => ?_, fun d hlo _ => ?_, fun w c hc => ?_⟩
  · simp [tableSize, entryBytes_eq_one h]
  · simp [tableSize, entryBytes_eq_two hlo h]
  · simp [tableSize, entryBytes_eq_four hlo h]
  · simp [tableSize, entryBytes_eq_eight hlo]
  · obtain ⟨-, hdeg, -⟩ := CfgSlot.configured_bounds hc
    exact entryBytes_fit w hdeg

/-- TBLSIZE as the word SIZEOF_TABLE writes, by the thresholds of R130. -/
theorem ofNat_tableSize (d : Nat) :
    BitVec.ofNat 64 (tableSize d) = if d ≤ 8 then 256 else if d ≤ 16 then 512 else if d ≤ 32 then 1024 else 2048 := by
  unfold tableSize entryBytes
  split_ifs <;> rfl

/-- Settles O42: SIZEOF_TABLE has no check, and writes the table size of its operand's bit length. -/
theorem sizeofTableGivesTheTableSize : Obligations.SizeofTableGivesTheTableSize := by
  intro s p hp
  rw [exec_some hp, ruleOf, sizeofTableRule, ofNat_tableSize, State.finish_retire]
  rfl

/-! ### A table that is written whole -/

/-- With every table byte admitted, BUILD_TABLE makes all its writes, attaches the table and succeeds (R135, R136). -/
theorem buildTableRule_of_admitted {s : State} {ci : Nat} {c : CfgSlot} {a : Args} (hc : s.cfg[ci]? = some c)
    (hv : c.valid = true) (hk : buildChecks s.params.width c a = true)
    (hadm : rangeAdmitted s.params .write a.a0.toNat (tableSize c.deg.toNat)) :
    buildTableRule ci a s =
      ({ s with mem := Memory.writeList s.mem (buildCells ci a s) }.setCfg ci { c with table := a.a0 }).finish
        .success := by
  have hall : (writeCells s.params s.mem (tableCells s.W c a.a0.toNat)).2 = true := by
    rw [writeCells_snd, List.all_eq_true]
    intro cell hcell
    have hmem := List.mem_map_of_mem (f := Prod.fst) hcell
    rw [tableCells_map_fst, List.mem_range'_1] at hmem
    have := hadm (cell.1 - a.a0.toNat) (by omega)
    rwa [Nat.add_sub_cancel' hmem.1] at this
  rw [buildTableRule_of_checks hc hv hk, buildCells_of_checks hc hv hk, ← writeCells_fst]
  rcases buildInto_cases ci c a.a0 s with ⟨-, h⟩ | ⟨hfail, -⟩
  · exact h
  · rw [hall] at hfail
    cases hfail

/-- Settles O44: no table byte stops the writes, so they are all `TBLSIZE` bytes and the table is attached. -/
theorem buildTableFillsAndAttaches : Obligations.BuildTableFillsAndAttaches := by
  intro s p ci c hp hc hv hvalid hwf hadm
  have hk := buildChecks_of_not_invalidCase hc hv hvalid
  have hstop : tableSize c.deg.toNat < tableSize c.deg.toNat →
      memAdmit s.params .write (p.args.a0.toNat + tableSize c.deg.toNat) = false := fun h => absurd h (Nat.lt_irrefl _)
  refine ⟨Memory.writeList s.mem (buildCells ci p.args s), ?_, fun i hi j hj => ?_,
    fun x hx => read_buildCells_other hc hv hk le_rfl hadm hstop hx⟩
  · rw [exec_some hp, ruleOf, buildTableRule_of_admitted hc hv hk hadm, State.finish_retire]
    rfl
  · refine read_buildCells hc hv hk le_rfl hadm hstop hwf hi hj ?_
    obtain ⟨-, hlt⟩ := entry_in_table (c := { c with table := p.args.a0 }) hi (Nat.le_add_right _ j)
      (Nat.add_lt_add_left hj _)
    dsimp only at hlt
    omega

end Sys2Proof.Machine
end

section
/-! SUPPORT. The bit-wise kernels as the degree-`d` register (R158, R159): one step of each kernel on an encoded
register is the encoding of one step of NR, so a run is too. MSB input encodes a register at the top of the `W` bits,
LSB input reflected in the low `d` bits. -/

namespace Sys2Proof.Machine

/-! ### The two encodings -/

/-- A register with the low `k` bits 0 is its top part, shifted back up. -/
theorem ushiftRight_shiftLeft_cancel {k : Nat} {v : Word} (hv : v.toNat % 2 ^ k = 0) : (v >>> k) <<< k = v := by
  refine BitVec.eq_of_getLsbD_eq fun i hi => ?_
  rw [BitVec.getLsbD_shiftLeft, BitVec.getLsbD_ushiftRight, decide_eq_true hi, Bool.true_and]
  by_cases hik : i < k
  · rw [(mod_two_pow_eq_zero_iff v).mp hv i hik, decide_eq_true hik, Bool.not_true, Bool.false_and]
  · rw [decide_eq_false hik, Bool.not_false, Bool.true_and, Nat.add_sub_cancel' (by omega)]

/-- Mirroring a top-aligned `d`-bit value in `w` bits reflects it in its `d` bits (R101, R159). -/
theorem mirror_shiftLeft_top {w d : Nat} (hdw : d ≤ w) (hw : w ≤ 64) (v : Word) :
    mirror w (v <<< (w - d)) = mirror d v := by
  refine BitVec.eq_of_getLsbD_eq fun i _ => ?_
  rw [getLsbD_mirror hw, getLsbD_mirror (by omega), BitVec.getLsbD_shiftLeft]
  by_cases hi : i < d
  · simp [hi, show i < w by omega, show w - 1 - i < 64 by omega, show ¬ w - 1 - i < w - d by omega,
      show w - 1 - i - (w - d) = d - 1 - i by omega]
  · simp [hi]
    omega

/-- The top bit leaves the register, wherever the register stands. -/
theorem trunc_shiftLeft_top {w d : Nat} (hdw : d ≤ w) (R : Word) :
    trunc w ((R <<< (w - d)) <<< 1) = trunc d (R <<< 1) <<< (w - d) := by
  refine BitVec.eq_of_getLsbD_eq fun i hi => ?_
  simp only [getLsbD_trunc, BitVec.getLsbD_shiftLeft, Nat.sub_right_comm i 1 (w - d)]
  by_cases hpad : i ≤ w - d
  · simp [show i - (w - d) = 0 by omega]
    omega
  · simp [hi, show i ≠ 0 by omega, show i - (w - d) ≠ 0 by omega, show ¬ i < w - d by omega,
      show ¬ i - 1 < w - d by omega, show i - 1 < 64 by omega, show i - (w - d) < 64 by omega,
      show i - (w - d) < d ↔ i < w by omega]

/-- Reflected, the shift of NR is a right shift. -/
theorem mirror_trunc_shiftLeft_one {d : Nat} (hd : d ≤ 64) (R : Word) :
    mirror d (trunc d (R <<< 1)) = mirror d R >>> 1 := by
  refine BitVec.eq_of_getLsbD_eq fun i _ => ?_
  rw [getLsbD_mirror hd, BitVec.getLsbD_ushiftRight, getLsbD_mirror hd, getLsbD_trunc, BitVec.getLsbD_shiftLeft,
    show d - 1 - (1 + i) = d - 1 - i - 1 by omega]
  by_cases hi : 1 + i < d
  · simp [hi, show i < d by omega, show d - 1 - i < 64 by omega, show d - 1 - i < d by omega,
      show d - 1 - i ≠ 0 by omega]
  · simp [hi, show d - 1 - i = 0 by omega]

theorem mirror_zero {n : Nat} (hn : n ≤ 64) : mirror n 0#64 = 0#64 :=
  BitVec.eq_of_getLsbD_eq fun i _ => by simp [getLsbD_mirror hn]

/-! ### One step -/

/-- A forward step is a step of NR on the top-aligned register (R151, R159). -/
theorem fwdBit_shiftLeft_top {w d : Nat} (hd : 1 ≤ d) (hdw : d ≤ w) (hw : w ≤ 64) (N R : Word) (x : Bool) :
    fwdBit w (N <<< (w - d)) (R <<< (w - d)) x = normalStep d N R x <<< (w - d) := by
  have htop : (R <<< (w - d)).getLsbD (w - 1) = R.getLsbD (d - 1) := by
    rw [BitVec.getLsbD_shiftLeft, show w - 1 - (w - d) = d - 1 by omega, decide_eq_true (by omega),
      decide_eq_false (by omega), Bool.true_and, Bool.not_false, Bool.true_and]
  rw [fwdBit, normalStep, htop, trunc_shiftLeft_top hdw, BitVec.shiftLeft_xor_distrib]
  split
  · rfl
  · simp

/-- A reverse step is a step of NR on the reflected register (R152, R159). -/
theorem revBit_mirror {d : Nat} (hd : 1 ≤ d) (hd64 : d ≤ 64) (N R : Word) (x : Bool) :
    revBit (mirror d N) (mirror d R) x = mirror d (normalStep d N R x) := by
  have hlow : (mirror d R).getLsbD 0 = R.getLsbD (d - 1) := by
    rw [getLsbD_mirror hd64, decide_eq_true (by omega), Bool.true_and, Nat.sub_zero]
  rw [revBit, normalStep, hlow, mirror_xor hd64, mirror_trunc_shiftLeft_one hd64]
  split
  · rfl
  · simp [mirror_zero hd64]

/-! ### A run -/

section
variable {w : Nat} {p : Word} (hd : 1 ≤ bitlen p) (hdw : bitlen p ≤ w) (hw : w ≤ 64)
include hd hdw hw

/-- The Forward kernel runs the top-aligned register of NR (R159). -/
theorem bitKernel_configSlot_msb (ix ox t : Word) (oo : BitOrder) (R : Word) (S : List Bool) :
    bitKernel w (configSlot w p ix ox t .msb oo) (R <<< (w - bitlen p)) S =
      normalRegister (bitlen p) (normalForm (bitlen p) p) R S <<< (w - bitlen p) := by
  refine List.foldl_hom (fun R : Word => R <<< (w - bitlen p)) fun R x => ?_
  exact fwdBit_shiftLeft_top hd hdw hw _ R x

/-- The Reverse kernel runs the reflected register of NR (R159). -/
theorem bitKernel_configSlot_lsb (ix ox t : Word) (oo : BitOrder) (R : Word) (S : List Bool) :
    bitKernel w (configSlot w p ix ox t .lsb oo) (mirror (bitlen p) R) S =
      mirror (bitlen p) (normalRegister (bitlen p) (normalForm (bitlen p) p) R S) := by
  have hpoly : (configSlot w p ix ox t .lsb oo).poly = mirror (bitlen p) (normalForm (bitlen p) p) :=
    mirror_shiftLeft_top hdw hw _
  refine List.foldl_hom (mirror (bitlen p)) fun R x => ?_
  rw [← revBit_mirror hd (bitlen_le p), ← hpoly]
  rfl

end

/-- Settles O47: a register that meets the padding is the encoding of a `d`-bit one, which the kernel runs by NR. -/
theorem kernelIsTheTextbookRegister : Obligations.KernelIsTheTextbookRegister := by
  intro w a io oo t r S hk _
  obtain ⟨h0, hdw, -⟩ := configChecks_spec hk
  refine ⟨?_, ?_⟩
  · rintro rfl hpad
    rw [← bitKernel_configSlot_msb (bitlen_pos h0) hdw w.bits_le, ushiftRight_shiftLeft_cancel hpad]
  · rintro rfl hpad
    rw [← bitKernel_configSlot_lsb (bitlen_pos h0) hdw w.bits_le, mirror_mirror (bitlen_le _) hpad]

/-- Settles O46: by the closed form, the kernel leaves a value shifted up by `W - d`, or one reflected in `d` bits. -/
theorem kernelKeepsThePadding : Obligations.KernelKeepsThePadding := by
  rintro w c r S ⟨a, io, oo, hk, -, -, -, hc⟩ hr
  have hc' : c = configSlot w.bits a.a0 a.a1 a.a2 c.table io oo := hc
  have hdeg : c.deg.toNat = bitlen a.a0 := by rw [hc']; exact configSlot_deg ..
  have hio : c.inOrder = io := by rw [hc']; rfl
  obtain ⟨hmsb, hlsb⟩ := kernelIsTheTextbookRegister w a io oo c.table r S hk hr
  rw [← hc'] at hmsb hlsb
  rw [hdeg, hio]
  refine ⟨fun h hpad => ?_, fun h hpad => ?_⟩
  · rw [hmsb h hpad]
    exact shiftLeft_mod _ _
  · rw [hlsb h hpad]
    exact mirror_lt (bitlen_le _) _

end Sys2Proof.Machine
end

section
/-! SUPPORT. PROCESS over whatever table MEM holds (R170 to R173, R196): a range it gets through gives its register. -/

namespace Sys2Proof.Machine

/-- PROCESS over a range it gets through writes the register and succeeds (R194). -/
theorem processInto_of_some {s : State} {si : Nat} {c : CfgSlot} {x : StSlot} {a : Args} {r : Word}
    (h : processRange s.params s.mem c x.value a.a0.toNat a.a1.toNat a.a2.toNat = some r) :
    processInto si c x a s = (s.setSt si { value := r, phase := .accum }).finish .success := by
  rcases processInto_cases si c x a s with ⟨r', hr', h'⟩ | ⟨hnone, -⟩
  · obtain rfl : r' = r := Option.some.inj (hr'.symm.trans h)
    exact h'
  · exact absurd (h.symm.trans hnone) nofun

/-- Settles O53: over admitted message bytes `ProcLut` is the fold of R196 over the table MEM holds. -/
theorem processTakesTheTableAsItIs : Obligations.ProcessTakesTheTableAsItIs := by
  intro s p ci si c x T r hp hc hx hv hphase hvalid htable hadm hT hrange
  have hk := processChecks_of_not_invalidCase hc hx hv hphase hvalid
  obtain ⟨-, ho, -⟩ := (processChecks_iff p.args).mp hk
  have hsome : processRange s.params s.mem c x.value p.args.a0.toNat p.args.a1.toNat p.args.a2.toNat = some r := by
    rw [processRange, if_neg htable, procLut_eq_tableRange hT ho hadm, hrange]
  rw [exec_some hp, ruleOf, processRule_of_checks hc hx hv hphase hk, processInto_of_some hsome, State.finish_retire]
  rfl

end Sys2Proof.Machine
end

section
/-! SUPPORT. The table-wise kernel over the slot's own table (R174). A bit step is a shift of the register xor the
polynomial or 0, chosen by the bit shifted out and the message bit. So a run of `n` steps is a shift by `n` xor the run
from 0 over the message bits xor the register's bits: over a byte, that run is the table's entry. -/

namespace Sys2Proof.Machine

/-! ### A run of bit steps as one shift -/

/-- The register shifted by `n` bits in the direction of its order: `lutShift` for any count (R151, R152, R171,
R172). -/
def shiftBy (w : Nat) (ord : BitOrder) (r : Word) (n : Nat) : Word :=
  match ord with
  | .msb => trunc w (r <<< n)
  | .lsb => r >>> n

/-- The bit of the register that the `i`-th of a run of shifts moves out (R151, R152). -/
def bitOut (w : Nat) (ord : BitOrder) (r : Word) (i : Nat) : Bool :=
  match ord with
  | .msb => r.getLsbD (w - 1 - i)
  | .lsb => r.getLsbD i

/-- The message bits `f 0` to `f (n - 1)`, each xor the register bit it meets. -/
def fedBits (w : Nat) (ord : BitOrder) (r : Word) (f : Nat → Bool) (n : Nat) : List Bool :=
  (List.range n).map fun i => bitOut w ord r i != f i

theorem bitStep_eq (w : Nat) (c : CfgSlot) (r : Word) (x : Bool) :
    bitStep w c r x = shiftBy w c.inOrder r 1 ^^^ if bitOut w c.inOrder r 0 != x then c.poly else 0 := by
  unfold bitStep shiftBy bitOut
  cases c.inOrder with
  | msb => simp only [fwdBit, Nat.sub_zero]; split <;> simp
  | lsb => simp only [revBit]; split <;> simp

theorem lutShift_eq (w : Nat) (c : CfgSlot) (r : Word) : lutShift w c r = shiftBy w c.inOrder r 8 := by
  unfold lutShift shiftBy
  cases c.inOrder <;> rfl

theorem trunc_eq_self {n : Nat} (hn : n ≤ 64) {v : Word} (hv : v.toNat < 2 ^ n) : trunc n v = v :=
  BitVec.eq_of_toNat_eq (by rw [trunc_toNat hn, Nat.mod_eq_of_lt hv])

theorem trunc_xor (n : Nat) (a b : Word) : trunc n (a ^^^ b) = trunc n a ^^^ trunc n b := by
  simp [trunc, BitVec.setWidth_xor]

theorem shiftBy_xor (w : Nat) (ord : BitOrder) (a b : Word) (n : Nat) :
    shiftBy w ord (a ^^^ b) n = shiftBy w ord a n ^^^ shiftBy w ord b n := by
  cases ord with
  | msb => simp only [shiftBy, BitVec.shiftLeft_xor_distrib, trunc_xor]
  | lsb => exact BitVec.ushiftRight_xor_distrib a b n

theorem bitOut_xor (w : Nat) (ord : BitOrder) (a b : Word) (i : Nat) :
    bitOut w ord (a ^^^ b) i = (bitOut w ord a i != bitOut w ord b i) := by
  cases ord <;> exact BitVec.getLsbD_xor

theorem shiftBy_zero {w : Nat} (hw : w ≤ 64) {r : Word} (hr : r.toNat < 2 ^ w) (ord : BitOrder) :
    shiftBy w ord r 0 = r := by
  cases ord with
  | msb => rw [shiftBy, BitVec.shiftLeft_zero, trunc_eq_self hw hr]
  | lsb => exact BitVec.ushiftRight_zero r

theorem shiftBy_succ (w : Nat) (ord : BitOrder) (r : Word) (n : Nat) :
    shiftBy w ord (shiftBy w ord r n) 1 = shiftBy w ord r (n + 1) := by
  cases ord with
  | msb =>
    refine BitVec.eq_of_getLsbD_eq fun i hi => ?_
    simp only [shiftBy, getLsbD_trunc, BitVec.getLsbD_shiftLeft]
    cases i with
    | zero => simp
    | succ i =>
      by_cases hiw : i + 1 < w
      · simp [hi, hiw, show i < 64 by omega, show i < w by omega]
      · simp [hiw]
  | lsb => exact (BitVec.shiftRight_add r n 1).symm

/-- The next bit out of a register that was shifted `n` times. -/
theorem bitOut_shiftBy {w n : Nat} (hn : n < w) (hw : w ≤ 64) (ord : BitOrder) (r : Word) :
    bitOut w ord (shiftBy w ord r n) 0 = bitOut w ord r n := by
  cases ord with
  | msb =>
    rw [bitOut, shiftBy, getLsbD_trunc, BitVec.getLsbD_shiftLeft, Nat.sub_zero]
    simp [bitOut, show w - 1 < 64 by omega, show w - 1 < w by omega, show ¬ w - 1 < n by omega]
  | lsb => simp [shiftBy, bitOut]

/-- Superposition: what a step does to one part of the register is a shift, its bit moved over to the message bit. -/
theorem bitStep_xor (w : Nat) (c : CfgSlot) (a b : Word) (x : Bool) :
    bitStep w c (a ^^^ b) x = shiftBy w c.inOrder a 1 ^^^ bitStep w c b (bitOut w c.inOrder a 0 != x) := by
  simp only [bitStep_eq, shiftBy_xor, bitOut_xor, BitVec.xor_assoc]
  congr 4
  rw [Bool.bne_assoc]
  exact Bool.xor_left_comm ..

theorem bitKernel_snoc (w : Nat) (c : CfgSlot) (r : Word) (S : List Bool) (x : Bool) :
    bitKernel w c r (S ++ [x]) = bitStep w c (bitKernel w c r S) x :=
  List.foldl_concat ..

theorem fedBits_succ (w : Nat) (ord : BitOrder) (r : Word) (f : Nat → Bool) (n : Nat) :
    fedBits w ord r f (n + 1) = fedBits w ord r f n ++ [bitOut w ord r n != f n] := by
  simp [fedBits, List.range_succ]

/-- A run of at most `W` steps is a shift of the register xor the run from 0 over the bits fed back (R153). -/
theorem bitKernel_eq_shiftBy_xor {w n : Nat} (hn : n ≤ w) (hw : w ≤ 64) (c : CfgSlot) {r : Word}
    (hr : r.toNat < 2 ^ w) (f : Nat → Bool) :
    bitKernel w c r ((List.range n).map f) =
      shiftBy w c.inOrder r n ^^^ bitKernel w c 0 (fedBits w c.inOrder r f n) := by
  induction n with
  | zero => simp [fedBits, shiftBy_zero hw hr]
  | succ n ih =>
    rw [List.range_succ, List.map_append, List.map_singleton, bitKernel_snoc, ih (by omega), bitStep_xor, shiftBy_succ,
      bitOut_shiftBy hn hw, fedBits_succ, bitKernel_snoc]

/-! ### The bits of a byte and its table index -/

/-- Bit `i` of a byte in the given order (R150). -/
def byteBit (ord : BitOrder) (v : Byte) (i : Nat) : Bool :=
  match ord with
  | .msb => v.getLsbD (7 - i)
  | .lsb => v.getLsbD i

theorem bitsOf_eq_map_byteBit (ord : BitOrder) (v : Byte) (n : Nat) :
    bitsOf ord v 0 n = (List.range n).map (byteBit ord v) := by
  refine List.map_congr_left fun i _ => ?_
  cases ord <;> simp only [byteBit, Nat.zero_add]

theorem getLsbD_ofNat_mod_256 (v : Word) {j : Nat} (hj : j < 8) :
    (BitVec.ofNat 8 (v.toNat % 256)).getLsbD j = v.getLsbD j := by
  rw [BitVec.getLsbD_ofNat, show 256 = 2 ^ 8 from rfl, Nat.testBit_mod_two_pow, decide_eq_true hj, Bool.true_and,
    Bool.true_and]
  rfl

/-- The table index collects the bits that eight shifts move out, each xor the message bit it meets (R171, R172). -/
theorem byteBit_lutIndex {w i : Nat} (hw : 8 ≤ w) (hi : i < 8) (c : CfgSlot) (r : Word) (v : Byte) :
    byteBit c.inOrder (BitVec.ofNat 8 (lutIndex w c r v)) i = (bitOut w c.inOrder r i != byteBit c.inOrder v i) := by
  unfold lutIndex byteBit bitOut
  cases c.inOrder with
  | msb =>
    dsimp only
    rw [getLsbD_ofNat_mod_256 _ (by omega), BitVec.getLsbD_xor, BitVec.getLsbD_ushiftRight, BitVec.getLsbD_setWidth,
      show w - 8 + (7 - i) = w - 1 - i by omega]
    simp [show 7 - i < 64 by omega]
  | lsb =>
    dsimp only
    rw [getLsbD_ofNat_mod_256 _ hi, BitVec.getLsbD_xor, BitVec.getLsbD_setWidth]
    simp [show i < 64 by omega]

/-- Eight bit steps are the shift of a LUT step xor the kernel's register over the table index (R134, R171, R172). -/
theorem bitKernel_byte {w : Nat} (h8 : 8 ≤ w) (hw : w ≤ 64) (c : CfgSlot) {r : Word} (hr : r.toNat < 2 ^ w)
    (v : Byte) :
    bitKernel w c r (bitsOf c.inOrder v 0 8) =
      lutShift w c r ^^^ bitKernel w c 0 (bitsOf c.inOrder (BitVec.ofNat 8 (lutIndex w c r v)) 0 8) := by
  have hfed : fedBits w c.inOrder r (byteBit c.inOrder v) 8 =
      bitsOf c.inOrder (BitVec.ofNat 8 (lutIndex w c r v)) 0 8 := by
    rw [bitsOf_eq_map_byteBit, fedBits]
    exact List.map_congr_left fun i hi => (byteBit_lutIndex h8 (List.mem_range.mp hi) c r v).symm
  rw [bitsOf_eq_map_byteBit, bitKernel_eq_shiftBy_xor h8 hw c hr, hfed, lutShift_eq]

/-! ### The slot's own table -/

/-- An entry is as wide as the degree (R130). -/
theorem le_entryBytes {d : Nat} (hd : d ≤ 64) : d ≤ 8 * entryBytes d := by
  unfold entryBytes
  split_ifs <;> omega

theorem entry_lt {w : Width} {c : CfgSlot} (hc : c.configured w) (i : Nat) :
    (entry w.bits c i).toNat < 2 ^ (8 * entryBytes c.deg.toNat) := by
  obtain ⟨-, hdeg, hpoly, -⟩ := CfgSlot.configured_bounds hc
  have hfit := entryBytes_fit w hdeg
  unfold entry
  cases c.inOrder with
  | msb =>
    refine (lt_two_pow_iff _).mpr fun j hj => ?_
    rw [BitVec.getLsbD_ushiftRight]
    exact (lt_two_pow_iff _).mp (bitKernel_lt hpoly (Nat.two_pow_pos _) _) _ (by omega)
  | lsb => exact trunc_lt _ _

/-- The bytes of the built table, read back, are its entries (R53, R58). -/
theorem tableReads_entry {ps : Config.Params} {m : Memory} {c : CfgSlot} (hc : c.configured ps.width)
    (ht : holdsTable ps m c) : tableReads ps m c fun i => some (entry ps.width.bits c i) := by
  refine fun i hi => ⟨nofun, ?_⟩
  rintro v hv
  cases hv
  exact ⟨entry_lt hc i, fun j hj => ⟨(ht i hi j hj).1, (ht i hi j hj).2.symm⟩⟩

/-- An MSB entry moved to the top of the register is the kernel's register: the padding it drops is 0 (R134, R158). -/
theorem entry_shiftLeft_top {w : Width} {c : CfgSlot} (hc : c.configured w) (hio : c.inOrder = .msb) (i : Nat) :
    entry w.bits c i <<< (w.bits - 8 * entryBytes c.deg.toNat) =
      bitKernel w.bits c 0 (bitsOf .msb (BitVec.ofNat 8 i) 0 8) := by
  obtain ⟨-, hdeg, -⟩ := CfgSlot.configured_bounds hc
  have hwide := le_entryBytes (hdeg.trans w.bits_le)
  obtain ⟨hmsb, -⟩ := kernelKeepsThePadding w c 0 (bitsOf .msb (BitVec.ofNat 8 i) 0 8) hc (Nat.two_pow_pos _)
  have hpad := Nat.dvd_of_mod_eq_zero (hmsb hio (Nat.zero_mod _))
  have hdvd : 2 ^ (w.bits - 8 * entryBytes c.deg.toNat) ∣ 2 ^ (w.bits - c.deg.toNat) := Nat.pow_dvd_pow 2 (by omega)
  simp only [entry, hio]
  exact ushiftRight_shiftLeft_cancel (Nat.mod_eq_zero_of_dvd (hdvd.trans hpad))

/-- An LSB entry is the kernel's register, which fits the degree (R134, R158). -/
theorem entry_of_lsb {w : Width} {c : CfgSlot} (hc : c.configured w) (hio : c.inOrder = .lsb) (i : Nat) :
    entry w.bits c i = bitKernel w.bits c 0 (bitsOf .lsb (BitVec.ofNat 8 i) 0 8) := by
  obtain ⟨-, hdeg, -⟩ := CfgSlot.configured_bounds hc
  have hwide := le_entryBytes (hdeg.trans w.bits_le)
  obtain ⟨-, hlsb⟩ := kernelKeepsThePadding w c 0 (bitsOf .lsb (BitVec.ofNat 8 i) 0 8) hc (Nat.two_pow_pos _)
  simp only [entry, hio]
  exact trunc_eq_self ((entryBytes_fit w hdeg).trans w.bits_le)
    ((hlsb hio (Nat.two_pow_pos _)).trans_le (Nat.pow_le_pow_right (by decide) hwide))

/-- The value a LUT step joins to the register is the kernel's register over the index's eight bits (R134, R170). -/
theorem tableEntry_eq_bitKernel {ps : Config.Params} {m : Memory} {c : CfgSlot} (hc : c.configured ps.width)
    (ht : holdsTable ps m c) {i : Nat} (hi : i < 256) :
    tableEntry ps m c i = some (bitKernel ps.width.bits c 0 (bitsOf c.inOrder (BitVec.ofNat 8 i) 0 8)) := by
  have hread := readLE_eq_of_tableReads (tableReads_entry hc ht) hi
  unfold tableEntry
  dsimp only
  rw [hread]
  cases hio : c.inOrder with
  | msb => exact congrArg some (entry_shiftLeft_top hc hio i)
  | lsb => exact congrArg some (entry_of_lsb hc hio i)

/-- With the slot's own table a LUT step is eight bit steps (R174). -/
theorem lutStep_eq_bitKernel {ps : Config.Params} {m : Memory} {c : CfgSlot} {r : Word} (hc : c.configured ps.width)
    (ht : holdsTable ps m c) (hr : r.toNat < 2 ^ ps.width.bits) (v : Byte) :
    lutStep ps m c r v = some (bitKernel ps.width.bits c r (bitsOf c.inOrder v 0 8)) := by
  rw [lutStep, tableEntry_eq_bitKernel hc ht (lutIndex_lt ..),
    bitKernel_byte ps.width.eight_le_bits ps.width.bits_le c hr]

/-! ### A run of whole bytes -/

/-- Message bits past the first byte are the message bits from the next byte (R57, R154). -/
theorem messageBits_byte_append (m : Memory) (ord : BitOrder) (b L : Nat) :
    messageBits m ord b 0 (8 + L) = bitsOf ord (Memory.read m b) 0 8 ++ messageBits m ord (b + 1) 0 L := by
  rw [bitsOf_eq_messageBits m ord b (by omega)]
  simp only [messageBits, List.range_add, List.map_append, List.map_map, Nat.zero_add]
  refine congrArg _ (List.map_congr_left fun k _ => ?_)
  simp only [Function.comp_apply, bitAt]
  rw [show b + (8 + k) / 8 = b + 1 + k / 8 by omega, show (8 + k) % 8 = k % 8 by omega]

theorem rangeAdmitted_tail {ps : Config.Params} {k : Config.AccessKind} {a n : Nat} (h : rangeAdmitted ps k a (n + 1)) :
    rangeAdmitted ps k (a + 1) n := by
  intro i hi
  rw [Nat.add_assoc, Nat.add_comm 1]
  exact h (i + 1) (by omega)

theorem bitKernel_append (w : Nat) (c : CfgSlot) (r : Word) (S U : List Bool) :
    bitKernel w c r (S ++ U) = bitKernel w c (bitKernel w c r S) U :=
  List.foldl_append

/-- With the slot's own table a LUT run over admitted bytes is the bit-wise kernel over their bits (R173, R174). -/
theorem lutKernel_eq_bitKernel {ps : Config.Params} {m : Memory} {c : CfgSlot} (hc : c.configured ps.width)
    (ht : holdsTable ps m c) {n b : Nat} {r : Word} (hr : r.toNat < 2 ^ ps.width.bits)
    (hadm : rangeAdmitted ps .read b n) :
    lutKernel ps m c n b r = some (bitKernel ps.width.bits c r (messageBits m c.inOrder b 0 (8 * n))) := by
  induction n generalizing b r with
  | zero => rfl
  | succ n ih =>
    obtain ⟨-, -, hpoly, -⟩ := CfgSlot.configured_bounds hc
    have hread : readByte ps m b = some (Memory.read m b) := readByte_of_admitted (hadm 0 (by omega))
    simp only [lutKernel, hread, lutStep_eq_bitKernel hc ht hr]
    rw [ih (bitKernel_lt hpoly hr _) (rangeAdmitted_tail hadm), ← bitKernel_append, ← messageBits_byte_append,
      Nat.mul_succ, Nat.add_comm 8]

/-- Settles O48: a LUT step is eight bit steps, and a LUT run joins its bytes' bits. -/
theorem lutKernelIsTheBitKernel : Obligations.LutKernelIsTheBitKernel :=
  fun _ _ _ _ hc ht hr => ⟨lutStep_eq_bitKernel hc ht hr, fun _ _ => lutKernel_eq_bitKernel hc ht hr⟩

end Sys2Proof.Machine
end

section
/-! SUPPORT. A message range as PROCESS consumes it (R195 to R197): over admitted bytes the bit-wise pass and the
table-assisted one, over the slot's own table, are the bit-wise kernel over the range's bits. -/

namespace Sys2Proof.Machine

/-! ### The bits of a range -/

/-- Consecutive ranges join (R154). -/
theorem messageBits_add (m : Memory) (ord : BitOrder) (b o L L' : Nat) :
    messageBits m ord b o (L + L') = messageBits m ord b o L ++ messageBits m ord b (o + L) L' := by
  simp only [messageBits, List.range_add, List.map_append, List.map_map]
  refine congrArg _ (List.map_congr_left fun k _ => ?_)
  rw [Function.comp_apply, Nat.add_assoc]

/-- Eight bits of the offset are one byte of the address (R57). -/
theorem messageBits_eight_mul (m : Memory) (ord : BitOrder) (b k L : Nat) :
    messageBits m ord b (8 * k) L = messageBits m ord (b + k) 0 L := by
  refine List.map_congr_left fun i _ => ?_
  simp only [bitAt, show b + (8 * k + i) / 8 = b + k + (0 + i) / 8 by omega,
    show (8 * k + i) % 8 = (0 + i) % 8 by omega]

/-- A range is its bits in the first byte, then the rest from the next byte on (R195). -/
theorem messageBits_firstByte (m : Memory) (ord : BitOrder) (b L : Nat) {o : Nat} (ho : o < 8) :
    messageBits m ord b o L =
      messageBits m ord b o (min (8 - o) L) ++ messageBits m ord (b + 1) 0 (L - min (8 - o) L) := by
  by_cases hL : L ≤ 8 - o
  · simp [Nat.min_eq_right hL, messageBits]
  · rw [Nat.min_eq_left (by omega), ← messageBits_eight_mul m ord b 1, show 8 * 1 = o + (8 - o) by omega,
      ← messageBits_add, Nat.add_sub_cancel' (by omega)]

/-- A range is its leading bits, then the rest from the first whole byte on (R196). -/
theorem messageBits_lead (m : Memory) (ord : BitOrder) (b L : Nat) {o : Nat} (ho : o < 8) :
    messageBits m ord b o L =
      messageBits m ord b o (leadBits o L) ++ messageBits m ord (leadNext b o L) 0 (L - leadBits o L) := by
  by_cases hpos : o ≠ 0 ∧ 0 < L
  · have hk : leadBits o L = min (8 - o) L := if_neg hpos.1
    rw [leadNext, hk, if_neg (by omega)]
    exact messageBits_firstByte m ord b L ho
  · obtain rfl | rfl : o = 0 ∨ L = 0 := by omega
    · simp [leadNext, leadBits, messageBits]
    · simp [leadBits, messageBits]

/-- A range from the start of a byte is its whole bytes, then its trailing bits (R196). -/
theorem messageBits_trail (m : Memory) (ord : BitOrder) (b L : Nat) :
    messageBits m ord b 0 L =
      messageBits m ord b 0 (8 * (L / 8)) ++ messageBits m ord (b + L / 8) 0 (L % 8) := by
  have hsplit := messageBits_add m ord b 0 (8 * (L / 8)) (L % 8)
  rwa [Nat.div_add_mod, Nat.zero_add, messageBits_eight_mul] at hsplit

/-! ### The two passes over admitted bytes -/

variable {ps : Config.Params} {m : Memory} {c : CfgSlot}

/-- The bytes after the first that a range touches (R194). -/
theorem bytesTouched_tail {o L n : Nat} (ho : o < 8) (h : bytesTouched o L = n + 1) :
    bytesTouched 0 (L - min (8 - o) L) = n := by
  unfold bytesTouched at h ⊢
  split at h
  · omega
  · split <;> omega

/-- The bit-wise pass over admitted bytes is the kernel over the range's bits (R195). -/
theorem procBytes_eq_bitKernel {n b o L : Nat} {r : Word} (ho : o < 8) (hn : bytesTouched o L = n)
    (hadm : rangeAdmitted ps .read b n) :
    procBytes ps m c n b o L r = some (bitKernel ps.width.bits c r (messageBits m c.inOrder b o L)) := by
  induction n generalizing b o L r with
  | zero =>
    obtain rfl : L = 0 := by
      unfold bytesTouched at hn
      split at hn <;> omega
    rfl
  | succ n ih =>
    have hread : readByte ps m b = some (Memory.read m b) := readByte_of_admitted (hadm 0 (by omega))
    simp only [procBytes, hread]
    rw [ih (by decide) (bytesTouched_tail ho hn) (rangeAdmitted_tail hadm),
      bitsOf_eq_messageBits m c.inOrder b (by omega), ← bitKernel_append, ← messageBits_firstByte m c.inOrder b L ho]

theorem procBit_eq_bitKernel {r : Word} {b o L : Nat} (ho : o < 8)
    (hadm : rangeAdmitted ps .read b (bytesTouched o L)) :
    procBit ps m c r b o L = some (bitKernel ps.width.bits c r (messageBits m c.inOrder b o L)) :=
  procBytes_eq_bitKernel ho rfl hadm

/-- The whole bytes between the leading and the trailing piece lie in the range (R194, R196). -/
theorem rangeAdmitted_wholeBytes {b o L : Nat} (ho : o < 8)
    (hadm : rangeAdmitted ps .read b (bytesTouched o L)) :
    rangeAdmitted ps .read (leadNext b o L) ((L - leadBits o L) / 8) := by
  intro i hi
  have hin : b ≤ leadNext b o L ∧ leadNext b o L + i < b + bytesTouched o L := by
    unfold leadNext leadBits bytesTouched at *
    split_ifs at * <;> omega
  have := hadm (leadNext b o L + i - b) (by omega)
  rwa [Nat.add_sub_cancel' (by omega)] at this

/-- With the slot's own table, the table-assisted pass over admitted bytes is the kernel over the range's bits (R174,
R196, R197). -/
theorem procLut_eq_bitKernel {r : Word} {b o L : Nat} (hc : c.configured ps.width) (ht : holdsTable ps m c)
    (hr : r.toNat < 2 ^ ps.width.bits) (ho : o < 8) (hadm : rangeAdmitted ps .read b (bytesTouched o L)) :
    procLut ps m c r b o L = some (bitKernel ps.width.bits c r (messageBits m c.inOrder b o L)) := by
  obtain ⟨-, -, hpoly, -⟩ := CfgSlot.configured_bounds hc
  have hT := tableReads_entry hc ht
  have hwhole := rangeAdmitted_wholeBytes ho hadm
  rw [procLut_eq_tableRange hT ho hadm, tableRange_eq, ← lutKernel_eq_foldlM hT hwhole,
    lutKernel_eq_bitKernel hc ht (bitKernel_lt hpoly hr _) hwhole, Option.map_some,
    messageBits_lead m c.inOrder b L ho, messageBits_trail m c.inOrder (leadNext b o L) (L - leadBits o L),
    bitKernel_append, bitKernel_append]

/-- Settles O49: over admitted bytes both passes are the bit-wise kernel over the range's bits, and over any other range
neither gets through. -/
theorem tableAssistedEqualsBitwise : Obligations.TableAssistedEqualsBitwise := by
  intro ps m c r b o L hc ht hr ho
  by_cases hadm : rangeAdmitted ps .read b (bytesTouched o L)
  · rw [procLut_eq_bitKernel hc ht hr ho hadm, procBit_eq_bitKernel ho hadm]
  · have hlut : procLut ps m c r b o L = none :=
      Option.eq_none_iff_forall_ne_some.mpr fun _ h => hadm (procLut_admitted ho h)
    have hbit : procBit ps m c r b o L = none :=
      Option.eq_none_iff_forall_ne_some.mpr fun _ h => hadm (procBytes_admitted h)
    rw [hlut, hbit]

/-! ### PROCESS -/

/-- A slot with no table, or with its own table in MEM and a register of `W` bits: where PROCESS is the bit-wise kernel
(R197, R199). -/
def bitwiseEquivalent (ps : Config.Params) (m : Memory) (c : CfgSlot) (r : Word) : Prop :=
  c.table = 0 ∨ (c.configured ps.width ∧ holdsTable ps m c ∧ r.toNat < 2 ^ ps.width.bits)

theorem bitwiseEquivalent_bitKernel {r : Word} (h : bitwiseEquivalent ps m c r) (S : List Bool) :
    bitwiseEquivalent ps m c (bitKernel ps.width.bits c r S) := by
  rcases h with h | ⟨hc, ht, hr⟩
  · exact .inl h
  · obtain ⟨-, -, hpoly, -⟩ := CfgSlot.configured_bounds hc
    exact .inr ⟨hc, ht, bitKernel_lt hpoly hr S⟩

theorem processRange_eq_bitKernel {r : Word} {b o L : Nat} (h : bitwiseEquivalent ps m c r) (ho : o < 8)
    (hadm : rangeAdmitted ps .read b (bytesTouched o L)) :
    processRange ps m c r b o L = some (bitKernel ps.width.bits c r (messageBits m c.inOrder b o L)) := by
  unfold processRange
  split
  · exact procBit_eq_bitKernel ho hadm
  · rcases h with htable | ⟨hc, ht, hr⟩
    · contradiction
    · exact procLut_eq_bitKernel hc ht hr ho hadm

/-- A PROCESS that passes its checks on admitted bytes writes the kernel's register and succeeds (R194). -/
theorem processRule_eq_bitKernel {s : State} {ci si : Nat} {x : StSlot} {a : Args} (hc : s.cfg[ci]? = some c)
    (hx : s.st[si]? = some x) (hv : c.valid = true) (hphase : x.phase = .fresh ∨ x.phase = .accum)
    (hk : processChecks a = true) (h : bitwiseEquivalent s.params s.mem c x.value)
    (hadm : rangeAdmitted s.params .read a.a0.toNat (bytesTouched a.a1.toNat a.a2.toNat)) :
    processRule ci si a s =
      (s.setSt si
        { value := bitKernel s.W c x.value (messageBits s.mem c.inOrder a.a0.toNat a.a1.toNat a.a2.toNat)
          phase := .accum }).finish .success := by
  obtain ⟨-, ho, -⟩ := (processChecks_iff a).mp hk
  rw [processRule_of_checks hc hx hv hphase hk, processInto_of_some (processRange_eq_bitKernel h ho hadm)]

/-- Settles O51: with no table attached PROCESS is the bit-wise pass. -/
theorem processRunsTheBitwiseKernel : Obligations.ProcessRunsTheBitwiseKernel := by
  intro s p ci si c x hp hc hx hv hphase hvalid htable hadm
  have hk := processChecks_of_not_invalidCase hc hx hv hphase hvalid
  rw [exec_some hp, ruleOf, processRule_eq_bitKernel hc hx hv hphase hk (.inl htable) hadm, State.finish_retire]
  rfl

/-- Settles O52: the slot's own table gives what the bit-wise pass gives. -/
theorem processRunsTheTableKernel : Obligations.ProcessRunsTheTableKernel := by
  intro s p ci si c x hp hc hx hv hphase hvalid _ hconf ht hr hadm
  have hk := processChecks_of_not_invalidCase hc hx hv hphase hvalid
  rw [exec_some hp, ruleOf, processRule_eq_bitKernel hc hx hv hphase hk (.inr ⟨hconf, ht, hr⟩) hadm,
    State.finish_retire]
  rfl

end Sys2Proof.Machine
end

section
/-! SUPPORT. The life cycle of a command (R190): who moves in a step, the issue by a write to CMD, completion, and a
block that faulted. -/

namespace Sys2Proof.Machine

/-! ### Whose move a step is -/

theorem step_blockTurn {s : State} {rest : List Turn} (h : s.turns = .block :: rest) :
    step s = blockTurn { s with turns := rest } := by
  rw [step, h]
  rfl

theorem step_hostTurn {s : State} {rest : List Turn} (h : s.turns = .host :: rest) :
    step s = hostTurn { s with turns := rest } := by
  rw [step, h]
  rfl

/-- With no turn fixed and no command in flight a host moves (log entry 8). -/
theorem step_of_idle {s : State} (hturns : s.turns = []) (hp : s.pending = none) : step s = hostTurn s := by
  rw [step, hturns, hp]
  rfl

theorem completeWord_ok {w : Word} {i : Instr} (h : decode w = .ok i) (s : State) : completeWord w s = exec i s := by
  rw [completeWord, h]

theorem blockTurn_of_pending {s : State} {p : Pending} {i : Instr} (hp : s.pending = some p)
    (hd : decode p.word = .ok i) : blockTurn s = exec i s := by
  rw [blockTurn, hp]
  exact completeWord_ok hd s

theorem blockTurn_of_idle {s : State} (hp : s.pending = none) : blockTurn s = .next s := by
  rw [blockTurn, hp]

theorem hostTurn_nil {s : State} (h : s.lines = []) : hostTurn s = .next s := by
  rw [hostTurn, h]

theorem hostTurn_cons {s : State} {l : HostLine} {ls : List HostLine} (h : s.lines = l :: ls) :
    hostTurn s = hostLine l { s with lines := ls } := by
  rw [hostTurn, h]

theorem decodeTableWord_eq_some {nbits w : Nat} {i : Instr} :
    decodeTableWord nbits w = some i ↔ decode (BitVec.ofNat 64 (w % 2 ^ nbits)) = .ok i := by
  unfold decodeTableWord
  cases decode (BitVec.ofNat 64 (w % 2 ^ nbits)) <;> simp

/-- Settles O5: the turn picks the agent, and the agent's state picks its move. -/
theorem stepRunsThePendingCommand : Obligations.StepRunsThePendingCommand := by
  intro s
  refine ⟨fun i p hp hd => ⟨fun hturns => ?_, fun rest hturns => ?_⟩, fun i w hd => ?_,
    fun l ls hl => ⟨fun hturns hp => ?_, fun rest hturns => ?_⟩,
    fun hl => ⟨fun hturns hp => ?_, fun rest hturns => ?_⟩, fun rest hturns hp => ?_, fun hb => if_pos hb,
    fun hb => if_neg (by simp [hb])⟩
  · rw [step_of_pending hp hturns, completeWord_ok hd]
  · rw [step_blockTurn hturns, blockTurn_of_pending (s := { s with turns := rest }) hp hd]
  · have hturns : (s.withFetchWord 64 w).turns = .block :: s.turns := rfl
    rw [step_blockTurn hturns]
    exact blockTurn_of_pending (s := { s.withFetchWord 64 w with turns := s.turns }) rfl
      (decodeTableWord_eq_some.mp hd)
  · rw [step_of_idle hturns hp, hostTurn_cons hl]
  · rw [step_hostTurn hturns, hostTurn_cons (s := { s with turns := rest }) hl]
  · rw [step_of_idle hturns hp, hostTurn_nil hl]
  · rw [step_hostTurn hturns, hostTurn_nil (s := { s with turns := rest }) hl]
  · rw [step_blockTurn hturns, blockTurn_of_idle (s := { s with turns := rest }) hp]

/-! ### Issue and completion -/

theorem issue_faulted {s : State} (h : s.status.fault = true) (w : Word) : issue w s = s := if_pos h

theorem issue_encode {s : State} (h : s.status.fault = false) (i : Instr) :
    issue (encode i) s = s.issued i s.args := if_neg (by simp [h])

/-- A write to CMD while not busy is an issue (R36, R190). -/
theorem hostLine_wrCmd {s : State} (h : s.status.busy = false) (v : Word) :
    hostLine (lineWr s.params .cmd v) s = .next (issue v s) := by
  calc hostLine (lineWr s.params .cmd v) s
    _ = .next (hostWrite 0x010 v s) := hostLine_wr s (off := 0x010) v (by decide) (by decide)
    _ = .next (issue v s) := by rw [hostWrite_idle h, regAt_cmd, writeReg]

/-- Settles O7: the write is `issue`, which takes the word unless a fault stands. -/
theorem cmdWriteIssues : Obligations.CmdWriteIssues := by
  intro s v hb
  rw [hostLine_wrCmd hb]
  refine ⟨rfl, ?_⟩
  rintro i rfl hf
  rw [issue_encode hf]

/-- Settles O24: whatever its rule does, the completion retires the command. -/
theorem everyCommandCompletes : Obligations.EveryCommandCompletes := fun _ _ _ hp => ⟨_, exec_some hp, rfl, rfl⟩

/-! ### A block that faulted -/

/-- `t` has the Configuration and State slots, RESULT, STATUS and the command in flight of `s` (R20). -/
def State.SameBlock (s t : State) : Prop :=
  t.pending = s.pending ∧ t.cfg = s.cfg ∧ t.st = s.st ∧ t.result = s.result ∧ t.status = s.status

theorem State.SameBlock.refl (s : State) : s.SameBlock s := ⟨rfl, rfl, rfl, rfl, rfl⟩

theorem State.SameBlock.trans {s t u : State} (hst : s.SameBlock t) (htu : t.SameBlock u) : s.SameBlock u := by
  obtain ⟨hp, hc, hs, hr, hstatus⟩ := hst
  obtain ⟨hp', hc', hs', hr', hstatus'⟩ := htu
  exact ⟨hp'.trans hp, hc'.trans hc, hs'.trans hs, hr'.trans hr, hstatus'.trans hstatus⟩

/-- With FAULT 1 and BUSY 0 a register write takes effect on ARG at most (R36, R226). -/
theorem State.sameBlock_hostWrite {s : State} (hf : s.status.fault = true) (hb : s.status.busy = false) (off : Nat)
    (v : Word) : s.SameBlock (hostWrite off v s) := by
  rw [hostWrite_idle hb]
  cases regAt s.ncfg s.nst off with
  | cmd => rw [writeReg, issue_faulted hf]; exact .refl s
  | arg i => exact ⟨rfl, rfl, rfl, rfl, rfl⟩
  | id | status | result | cfg | st | unmapped => exact .refl s

theorem State.sameBlock_of_hostLine {l : HostLine} {s t : State} (hf : s.status.fault = true)
    (hb : s.status.busy = false) (h : hostLine l s = .next t) : s.SameBlock t := by
  rcases hostLine_cases h with ⟨_, _, v, off, -, -, rfl⟩ | ⟨v, rfl⟩ | ⟨a, bs, -, -, -, rfl⟩ | ⟨-, -, rfl⟩ | ⟨-, -, rfl⟩
  · exact State.sameBlock_hostWrite hf hb off v
  all_goals exact ⟨rfl, rfl, rfl, rfl, rfl⟩

theorem State.sameBlock_of_hostTurn {s t : State} (hf : s.status.fault = true) (hb : s.status.busy = false)
    (h : hostTurn s = .next t) : s.SameBlock t := by
  rcases hostTurn_cases h with ⟨-, rfl⟩ | ⟨l, rest, -, hline⟩
  · exact .refl t
  · exact State.sameBlock_of_hostLine (s := { s with lines := rest }) hf hb hline

/-- Settles O26: the block's turn has nothing to complete, and a host's issue is ignored. -/
theorem faultedBlockRunsNoCommand : Obligations.FaultedBlockRunsNoCommand := by
  intro s t h hf hp hb hturns
  obtain ⟨s₀, hs₀, hmove⟩ := step_cases h
  have hturn : s.SameBlock s₀ := by
    rcases hs₀ with rfl | ⟨u, rest, -, rfl⟩
    · exact .refl s₀
    · exact ⟨rfl, rfl, rfl, rfl, rfl⟩
  have ⟨hp₀, _, _, _, hstatus₀⟩ := hturn
  have hsame : s.SameBlock t := by
    refine .trans hturn ?_
    rcases hmove with ⟨hhost, -, -⟩ | ⟨hblock, -, -⟩ | ⟨-, rest, hreset⟩
    · exact State.sameBlock_of_hostTurn (hstatus₀ ▸ hf) (hstatus₀ ▸ hb) hhost
    · rw [blockTurn_of_idle (hp₀.trans hp)] at hblock
      cases hblock
      exact .refl _
    · exact absurd hreset (hturns rest)
  obtain ⟨hpt, hcfg, hst, hresult, hstatus⟩ := hsame
  exact ⟨hpt.trans hp, hcfg, hst, hresult, hstatus⟩

end Sys2Proof.Machine
end

section
/-! SUPPORT. RESET and FINALIZE (R193, R201): how each ends on slots that exist or do not. RESET, PROCESS and FINALIZE
on one State slot do not depend on another (R204). -/

namespace Sys2Proof.Machine

/-- Slots that hold something are within NCFG and NST (R7). -/
theorem slots_in_range {s : State} {ci si : Nat} {c : CfgSlot} {x : StSlot} (hc : s.cfg[ci]? = some c)
    (hx : s.st[si]? = some x) : ¬ (s.ncfg ≤ ci ∨ s.nst ≤ si) :=
  not_or.mpr ⟨Nat.not_le.mpr (List.getElem?_eq_some_iff.mp hc).1, Nat.not_le.mpr (List.getElem?_eq_some_iff.mp hx).1⟩

/-! ### RESET -/

theorem resetRule_absent {s : State} {ci si : Nat} (h : s.ncfg ≤ ci ∨ s.nst ≤ si) (a : Args) :
    resetRule ci si a s = s.finish .invalidParam := by
  rcases resetRule_cases ci si a s with ⟨c, x, hc, hx, -⟩ | ⟨c, x, hc, hx, -⟩ | ⟨-, hrule⟩
  case inr.inr => exact hrule
  all_goals exact absurd h (slots_in_range hc hx)

section
variable {s : State} {ci si : Nat} {c : CfgSlot} {x : StSlot} (hc : s.cfg[ci]? = some c) (hx : s.st[si]? = some x)
include hc hx

theorem resetRule_unconfigured (hv : c.valid = false) (a : Args) : resetRule ci si a s = s.raise .unconfigured := by
  simp [resetRule, hc, hx, hv]

theorem resetRule_valid (hv : c.valid = true) (a : Args) :
    resetRule ci si a s = (s.setSt si { value := c.ixor, phase := .fresh }).finish .success := by
  simp [resetRule, hc, hx, hv]

end

/-- Settles O50: VALID of the Configuration slot decides, whatever the phase. -/
theorem resetStartsAChecksum : Obligations.ResetStartsAChecksum := by
  intro s p ci si hp
  rw [exec_some hp, ruleOf]
  refine ⟨fun h => ?_, fun c x hc hx hv => ?_, fun c x hc hx hv => ?_⟩
  · rw [resetRule_absent h]
    rfl
  · rw [resetRule_unconfigured hc hx hv, State.raise_retire]
    rfl
  · rw [resetRule_valid hc hx hv, State.finish_retire]
    rfl

/-! ### FINALIZE -/

theorem finalizeRule_absent {s : State} {ci si : Nat} (h : s.ncfg ≤ ci ∨ s.nst ≤ si) (a : Args) :
    finalizeRule ci si a s = s.finish .invalidParam := by
  rcases finalizeRule_cases ci si a s with ⟨c, x, cause, hc, hx, -⟩ | ⟨c, x, hc, hx, -⟩ | ⟨-, hrule⟩
  case inr.inr => exact hrule
  all_goals exact absurd h (slots_in_range hc hx)

theorem finalizeRule_contract {s : State} {ci si : Nat} {cause : Cause}
    (h : contractCause (.finalize ci si) s cause) (a : Args) : finalizeRule ci si a s = s.raise cause := by
  obtain ⟨c, x, hc, hx, ⟨hv, rfl⟩ | ⟨hv, hphase, rfl⟩ | ⟨hv, hphase, rfl⟩⟩ := h
  · simp [finalizeRule, hc, hx, hv]
  · simp [finalizeRule, hc, hx, hv, hphase, phaseCause]
  · simp [finalizeRule, hc, hx, hv, hphase, phaseCause]

theorem finalizeRule_valid {s : State} {ci si : Nat} {c : CfgSlot} {x : StSlot} (hc : s.cfg[ci]? = some c)
    (hx : s.st[si]? = some x) (hv : c.valid = true) (hphase : x.phase = .fresh ∨ x.phase = .accum) (a : Args) :
    finalizeRule ci si a s =
      (s.setSt si { value := correct s.W c (x.value ^^^ c.oxor), phase := .final }).finish .success := by
  simp [finalizeRule, hc, hx, hv, phaseCause_eq_none.mpr hphase]

/-- The correction by the orders it tests (R201). -/
theorem correct_eq (w : Nat) (c : CfgSlot) (v : Word) :
    correct w c v =
      if c.outOrder = .msb then (if c.inOrder = c.outOrder then v else mirror w v) >>> (w - c.deg.toNat)
      else if c.inOrder = c.outOrder then v else mirror w v := by
  unfold correct
  cases c.inOrder <;> cases c.outOrder <;> rfl

/-- Settles O56: the slots' presence, the contract and then the correction decide. -/
theorem finalizeWritesTheChecksum : Obligations.FinalizeWritesTheChecksum := by
  intro s p ci si hp
  rw [exec_some hp, ruleOf]
  refine ⟨fun h => ?_, fun cause h => ?_, fun c x hc hx hv hphase => ?_⟩
  · rw [finalizeRule_absent h]
    rfl
  · rw [finalizeRule_contract h, State.raise_retire]
    rfl
  · rw [finalizeRule_valid hc hx hv hphase, correct_eq, State.finish_retire]
    rfl

/-! ### Another State slot -/

theorem State.raise_setSt (s : State) (j : Nat) (x : StSlot) (cause : Cause) :
    (s.setSt j x).raise cause = (s.raise cause).setSt j x := by
  unfold State.raise
  split <;> simp_all [State.setSt]

theorem State.setSt_comm (s : State) {j k : Nat} (h : j ≠ k) (x y : StSlot) :
    (s.setSt j x).setSt k y = (s.setSt k y).setSt j x := by
  simp only [State.setSt, List.set_comm _ _ h]

section
variable {j si : Nat} (h : j ≠ si)
include h

/-- Writing another slot leaves what a command finds in its own. -/
theorem State.setSt_getElem?_ne (s : State) (x : StSlot) : (s.setSt j x).st[si]? = s.st[si]? :=
  List.getElem?_set_ne h

theorem finishSt_setSt (s : State) (x y : StSlot) (code : StatusCode) :
    ((s.setSt j x).setSt si y).finish code = ((s.setSt si y).finish code).setSt j x := by
  rw [State.setSt_comm s h]
  rfl

theorem busInProcess_setSt (s : State) (x y : StSlot) :
    busInProcess si y (s.setSt j x) = (busInProcess si y s).setSt j x := by
  have hdraw : (s.setSt j x).drawWord = (s.drawWord.1, s.drawWord.2.setSt j x) := rfl
  rw [busInProcess, hdraw, State.setSt_comm _ h, State.raise_setSt]
  rfl

theorem processInto_setSt (c : CfgSlot) (y : StSlot) (a : Args) (s : State) (x : StSlot) :
    processInto si c y a (s.setSt j x) = (processInto si c y a s).setSt j x := by
  unfold processInto
  rw [State.setSt_params, State.setSt_mem]
  split
  · exact busInProcess_setSt h s x y
  · exact finishSt_setSt h s x _ .success

theorem resetRule_setSt (ci : Nat) (a : Args) (s : State) (x : StSlot) :
    resetRule ci si a (s.setSt j x) = (resetRule ci si a s).setSt j x := by
  unfold resetRule
  rw [State.setSt_getElem?_ne h, State.setSt_cfg]
  split
  · split
    · exact s.raise_setSt j x .unconfigured
    · exact finishSt_setSt h s x _ .success
  · rfl

theorem processRule_setSt (ci : Nat) (a : Args) (s : State) (x : StSlot) :
    processRule ci si a (s.setSt j x) = (processRule ci si a s).setSt j x := by
  unfold processRule
  rw [State.setSt_getElem?_ne h, State.setSt_cfg]
  split
  · split
    · exact s.raise_setSt j x .unconfigured
    · split
      · exact s.raise_setSt j x _
      · split
        · exact processInto_setSt h _ _ a s x
        · rfl
  · rfl

theorem finalizeRule_setSt (ci : Nat) (a : Args) (s : State) (x : StSlot) :
    finalizeRule ci si a (s.setSt j x) = (finalizeRule ci si a s).setSt j x := by
  unfold finalizeRule
  rw [State.setSt_getElem?_ne h, State.setSt_cfg]
  split
  · split
    · exact s.raise_setSt j x .unconfigured
    · split
      · exact s.raise_setSt j x _
      · exact finishSt_setSt h s x _ .success
  · rfl

end

/-- The commands of a stream end the same way whatever another State slot holds (R204). -/
theorem ruleOf_setSt {i : Instr} {ci si j : Nat} (h : j ≠ si)
    (hi : i = .reset ci si ∨ i = .process ci si ∨ i = .finalize ci si) (a : Args) (s : State) (x : StSlot) :
    ruleOf i a (s.setSt j x) = (ruleOf i a s).setSt j x := by
  rcases hi with rfl | rfl | rfl
  · exact resetRule_setSt h ci a s x
  · exact processRule_setSt h ci a s x
  · exact finalizeRule_setSt h ci a s x

/-- Settles O57: the rule runs the same beside other contents of slot `j`, and its frame covers that slot and every
Configuration slot. -/
theorem distinctStateSlotsDoNotInteract : Obligations.DistinctStateSlotsDoNotInteract := by
  intro i ci si j s t x hj hi hexec
  obtain ⟨p, hp, rfl⟩ := exec_eq_next.mp hexec
  refine ⟨?_, ruleOf_st_frame ?_ p.args s, ?_⟩
  · rw [exec_some (s := s.setSt j x) hp, ruleOf_setSt hj hi]
    rfl
  · rcases hi with rfl | rfl | rfl <;> simp [Ne.symm hj]
  · rcases ruleOf_cfg_cases i p.args s with hcfg | ⟨k, c, rfl, -⟩ | ⟨k, c, rfl, -⟩
    · exact hcfg
    · simp at hi
    · simp at hi

end Sys2Proof.Machine
end

section
/-! SUPPORT. Streams of commands (R199, R202, R203): each command issued is completed by the next step, a run of PROCESS
commands joins its chunks' bits, and FINALIZE turns the register a run of NR left into the checksum. -/

namespace Sys2Proof.Machine

/-! ### Issue and completion in turn -/

/-- With no turn fixed, the step after an issue completes the command (R190). -/
theorem step_issued {s : State} {i : Instr} (hturns : s.turns = []) (hwf : i.wellFormed = true) (a : Args) :
    step (s.issued i a) = .next (ruleOf i a (s.issued i a)).retire := by
  have hp : (s.issued i a).pending = some { word := encode i, args := a } := rfl
  rw [step_of_pending hp hturns, completeWord_ok (decodeEncodeAgree i hwf), exec_some hp]

theorem runCommands_cons {s t : State} {i : Instr} {a : Args} (h : step (s.issued i a) = .next t)
    (rest : List (Instr × Args)) : runCommands ((i, a) :: rest) s = runCommands rest t := by
  rw [runCommands, h]

theorem runCommands_append {s t : State} {cs : List (Instr × Args)} (h : runCommands cs s = .next t)
    (ds : List (Instr × Args)) : runCommands (cs ++ ds) s = runCommands ds t := by
  induction cs generalizing s with
  | nil =>
    cases h
    rfl
  | cons c cs ih =>
    obtain ⟨i, a⟩ := c
    rw [runCommands] at h
    split at h
    · rw [List.cons_append, runCommands_cons ‹_›]
      exact ih h
    · cases h
    · cases h

/-- `t` is a later state of a stream on State slot `si`, which holds `x`: what the stream depends on and its commands do
not write is as in `s`. -/
structure State.Streamed (s : State) (si : Nat) (x : StSlot) (t : State) : Prop where
  params : t.params = s.params
  cfg : t.cfg = s.cfg
  mem : t.mem = s.mem
  turns : t.turns = s.turns
  fault : t.status.fault = s.status.fault
  slot : t.st[si]? = some x

theorem State.Streamed.refl {s : State} {si : Nat} {x : StSlot} (h : s.st[si]? = some x) : s.Streamed si x s :=
  ⟨rfl, rfl, rfl, rfl, rfl, h⟩

theorem State.Streamed.trans {s t u : State} {si : Nat} {x y : StSlot} (hst : s.Streamed si x t)
    (htu : t.Streamed si y u) : s.Streamed si y u :=
  ⟨htu.params.trans hst.params, htu.cfg.trans hst.cfg, htu.mem.trans hst.mem, htu.turns.trans hst.turns,
    htu.fault.trans hst.fault, htu.slot⟩

/-- A command that writes its State slot and succeeds goes on with the stream. -/
theorem step_streamed {s : State} {i : Instr} {si : Nat} {x y : StSlot} (hturns : s.turns = [])
    (hwf : i.wellFormed = true) (hx : s.st[si]? = some x) {a : Args}
    (hrule : ruleOf i a (s.issued i a) = ((s.issued i a).setSt si y).finish .success) :
    ∃ t, step (s.issued i a) = .next t ∧ s.Streamed si y t ∧ t.status.code = .success := by
  refine ⟨_, step_issued hturns hwf a, ?_, ?_⟩ <;> rw [hrule]
  · exact ⟨rfl, rfl, rfl, rfl, rfl, List.getElem?_set_self (List.getElem?_eq_some_iff.mp hx).1⟩
  · rfl

/-! ### The three commands of a stream -/

section
variable {s : State} {ci si : Nat} {c : CfgSlot} {x : StSlot} (hturns : s.turns = []) (hci : ci < 256) (hsi : si < 256)
  (hc : s.cfg[ci]? = some c) (hv : c.valid = true) (hx : s.st[si]? = some x)
include hturns hci hsi hc hv hx

theorem step_reset (a : Args) :
    ∃ t, step (s.issued (.reset ci si) a) = .next t ∧ s.Streamed si { value := c.ixor, phase := .fresh } t ∧
      t.status.code = .success :=
  step_streamed hturns (by simp [Instr.wellFormed, indexFits_iff, hci, hsi]) hx
    (resetRule_valid (s := s.issued (.reset ci si) a) hc hx hv a)

theorem step_process (hphase : x.phase = .fresh ∨ x.phase = .accum) {a : Args} (hk : processChecks a = true)
    (heq : bitwiseEquivalent s.params s.mem c x.value)
    (hadm : rangeAdmitted s.params .read a.a0.toNat (bytesTouched a.a1.toNat a.a2.toNat)) :
    ∃ t, step (s.issued (.process ci si) a) = .next t ∧
      s.Streamed si
        { value := bitKernel s.W c x.value (messageBits s.mem c.inOrder a.a0.toNat a.a1.toNat a.a2.toNat)
          phase := .accum } t ∧
      t.status.code = .success :=
  step_streamed hturns (by simp [Instr.wellFormed, indexFits_iff, hci, hsi]) hx
    (processRule_eq_bitKernel (s := s.issued (.process ci si) a) hc hx hv hphase hk heq hadm)

theorem step_finalize (hphase : x.phase = .fresh ∨ x.phase = .accum) (a : Args) :
    ∃ t, step (s.issued (.finalize ci si) a) = .next t ∧
      s.Streamed si { value := correct s.W c (x.value ^^^ c.oxor), phase := .final } t ∧ t.status.code = .success :=
  step_streamed hturns (by simp [Instr.wellFormed, indexFits_iff, hci, hsi]) hx
    (finalizeRule_valid (s := s.issued (.finalize ci si) a) hc hx hv hphase a)

end

/-! ### The chunks -/

/-- A chunk that PROCESS gets through: its operands pass the checks of R194, and its bytes are admitted. -/
def chunkReady (ps : Config.Params) (a : Args) : Prop :=
  processChecks a = true ∧ rangeAdmitted ps .read a.a0.toNat (bytesTouched a.a1.toNat a.a2.toNat)

theorem chunkReady_iff {ps : Config.Params} {a : Args} :
    chunkReady ps a ↔ a.a0 ≠ 0 ∧ a.a1.toNat < 8 ∧ a.a0.toNat + bytesTouched a.a1.toNat a.a2.toNat ≤ 2 ^ 64 ∧
      rangeAdmitted ps .read a.a0.toNat (bytesTouched a.a1.toNat a.a2.toNat) := by
  simp only [chunkReady, processChecks_iff, and_assoc]

/-- The joined bit list of a list of chunks (R199). -/
def chunkBits (m : Memory) (ord : BitOrder) (chunks : List Args) : List Bool :=
  chunks.flatMap fun a => messageBits m ord a.a0.toNat a.a1.toNat a.a2.toNat

/-- A run of PROCESS commands leaves the kernel over the joined bits, in a phase that goes on (R199). -/
theorem runCommands_process {s : State} {ci si : Nat} {c : CfgSlot} {x : StSlot} {chunks : List Args}
    (hturns : s.turns = []) (hci : ci < 256) (hsi : si < 256) (hc : s.cfg[ci]? = some c) (hv : c.valid = true)
    (hx : s.st[si]? = some x) (hphase : x.phase = .fresh ∨ x.phase = .accum)
    (heq : bitwiseEquivalent s.params s.mem c x.value) (hready : ∀ a ∈ chunks, chunkReady s.params a) :
    ∃ t y, runCommands (chunks.map fun a => (.process ci si, a)) s = .next t ∧ s.Streamed si y t ∧
      (y.phase = .fresh ∨ y.phase = .accum) ∧ y.value = bitKernel s.W c x.value (chunkBits s.mem c.inOrder chunks) := by
  induction chunks generalizing s x with
  | nil => exact ⟨s, x, rfl, .refl hx, hphase, rfl⟩
  | cons a chunks ih =>
    obtain ⟨hk, hadm⟩ := hready a List.mem_cons_self
    obtain ⟨t, hstep, ht, -⟩ := step_process hturns hci hsi hc hv hx hphase hk heq hadm
    obtain ⟨u, y, hrun, hu, hy, hvalue⟩ := ih (ht.turns.trans hturns) (ht.cfg ▸ hc) ht.slot (.inr rfl)
      (by rw [ht.params, ht.mem]; exact bitwiseEquivalent_bitKernel heq _)
      (by rw [ht.params]; exact fun b hb => hready b (List.mem_cons_of_mem a hb))
    refine ⟨u, y, ?_, ht.trans hu, hy, ?_⟩
    · rw [List.map_cons, runCommands_cons hstep, hrun]
    · rw [hvalue, State.W, ht.params, ht.mem, ← bitKernel_append]
      rfl

/-- Settles O58: the run of the chunks, one PROCESS after the other. -/
theorem streamingJoinsTheBitLists : Obligations.StreamingJoinsTheBitLists := by
  intro s ci si c x chunks hturns hci hsi hc hx hv hphase heq hready
  obtain ⟨t, y, hrun, ht, -, hvalue⟩ := runCommands_process hturns hci hsi hc hv hx hphase heq
    fun a ha => chunkReady_iff.mpr (hready a ha)
  exact ⟨t, y, hrun, ht.slot, hvalue⟩

/-! ### The checksum -/

theorem normalStep_lt {d : Nat} {N : Word} (hN : N.toNat < 2 ^ d) (R : Word) (x : Bool) :
    (normalStep d N R x).toNat < 2 ^ d := by
  unfold normalStep
  refine xor_lt (trunc_lt d _) ?_
  split
  · exact hN
  · exact Nat.two_pow_pos d

/-- NR keeps its register within `d` bits (R159). -/
theorem normalRegister_lt {d : Nat} {N R : Word} (hN : N.toNat < 2 ^ d) (hR : R.toNat < 2 ^ d) (S : List Bool) :
    (normalRegister d N R S).toNat < 2 ^ d := by
  induction S generalizing R with
  | nil => exact hR
  | cons x S ih => exact ih (normalStep_lt hN R x)

theorem normalForm_lt (d : Nat) (p : Word) : (normalForm d p).toNat < 2 ^ d := trunc_lt d _

section
variable {w : Nat} {p : Word} (hdw : bitlen p ≤ w) (hw : w ≤ 64)
include hdw hw

/-- On the stored form of a register the kernel leaves the stored form of NR's (R106, R159). -/
theorem bitKernel_canonIxor (hp : p ≠ 0) (ix ox t R : Word) (io oo : BitOrder) (S : List Bool) :
    bitKernel w (configSlot w p ix ox t io oo) (canonIxor w (bitlen p) io R) S =
      canonIxor w (bitlen p) io (normalRegister (bitlen p) (normalForm (bitlen p) p) R S) := by
  cases io with
  | msb => exact bitKernel_configSlot_msb (bitlen_pos hp) hdw hw ix ox t oo R S
  | lsb =>
    simp only [canonIxor, mirror_shiftLeft_top hdw hw]
    exact bitKernel_configSlot_lsb (bitlen_pos hp) hdw hw ix ox t oo R S

/-- The correction takes the stored form of a register to the register, reflected for LSB output (R106, R201). -/
theorem correct_canonIxor {R : Word} (hR : R.toNat < 2 ^ bitlen p) (ix ox t : Word) (io oo : BitOrder) :
    correct w (configSlot w p ix ox t io oo) (canonIxor w (bitlen p) io R) =
      match oo with
      | .msb => R
      | .lsb => mirror (bitlen p) R := by
  have hcancel : (R <<< (w - bitlen p)) >>> (w - bitlen p) = R := shiftLeft_ushiftRight_cancel hR (by omega)
  have htop := shiftLeft_top_lt hR hdw
  rw [correct_eq, configSlot_deg]
  match io, oo with
  | .msb, .msb => exact hcancel
  | .msb, .lsb => exact mirror_shiftLeft_top hdw hw R
  | .lsb, .lsb => exact mirror_shiftLeft_top hdw hw R
  | .lsb, .msb =>
    show mirror w (mirror w (R <<< (w - bitlen p))) >>> (w - bitlen p) = R
    rw [mirror_mirror hw htop, hcancel]

end

section
variable {w : Width} {a : Args} (hk : configChecks w a = true)
include hk

/-- FINALIZE of the kernel's register over `S` from IXOR gives the checksum of `S` (R202). -/
theorem correct_bitKernel_eq_checksum (t : Word) (io oo : BitOrder) (S : List Bool) :
    correct w.bits (configSlot w.bits a.a0 a.a1 a.a2 t io oo)
        (bitKernel w.bits (configSlot w.bits a.a0 a.a1 a.a2 t io oo)
          (canonIxor w.bits (bitlen a.a0) io a.a1) S ^^^ canonOxor w.bits (bitlen a.a0) io oo a.a2) =
      checksum a.a0 a.a1 a.a2 oo S := by
  obtain ⟨h0, hd, -, hix, hox⟩ := configChecks_spec hk
  rw [bitKernel_canonIxor hd w.bits_le h0, correct_xor w.bits_le, correct_canonOxor w.bits_le hd hox,
    correct_canonIxor hd w.bits_le (normalRegister_lt (normalForm_lt _ _) hix S)]
  rfl

theorem checksum_lt (oo : BitOrder) (S : List Bool) : (checksum a.a0 a.a1 a.a2 oo S).toNat < 2 ^ bitlen a.a0 := by
  obtain ⟨-, -, -, hix, hox⟩ := configChecks_spec hk
  refine xor_lt ?_ hox
  cases oo with
  | msb => exact normalRegister_lt (normalForm_lt _ _) hix S
  | lsb => exact mirror_lt (bitlen_le _) _

end

/-- FINALIZE at the end of a stream whose register started from IXOR leaves the checksum of its bits (R202). -/
theorem step_finalize_checksum {s t : State} {ci si : Nat} {a : Args} {io oo : BitOrder} {t₀ : Word} {x : StSlot}
    {S : List Bool} (hturns : s.turns = []) (hci : ci < 256) (hsi : si < 256)
    (hk : configChecks s.params.width a = true)
    (hc : s.cfg[ci]? = some (configSlot s.W a.a0 a.a1 a.a2 t₀ io oo)) (ht : s.Streamed si x t)
    (hphase : x.phase = .fresh ∨ x.phase = .accum)
    (hvalue : x.value = bitKernel s.W (configSlot s.W a.a0 a.a1 a.a2 t₀ io oo)
      (canonIxor s.W (bitlen a.a0) io a.a1) S) :
    ∃ u, step (t.issued (.finalize ci si) Args.reset) = .next u ∧
      s.Streamed si { value := checksum a.a0 a.a1 a.a2 oo S, phase := .final } u ∧ u.status.code = .success := by
  obtain ⟨u, hstep, hu, hcode⟩ :=
    step_finalize (ht.turns.trans hturns) hci hsi (ht.cfg ▸ hc) rfl ht.slot hphase Args.reset
  rw [State.W, ht.params, hvalue] at hu
  exact ⟨u, hstep, correct_bitKernel_eq_checksum hk t₀ io oo S ▸ ht.trans hu, hcode⟩

theorem orderOfOperand_orderNum (o : BitOrder) : orderOfOperand (orderNum o) = some o := by cases o <;> rfl

/-- Operands that pass R109 and an aligned table make a configured slot, in any orders (R22). -/
theorem configured_configSlot {w : Width} {a : Args} {t : Word} (hk : configChecks w a = true)
    (ht : tableAligned w t = true) (io oo : BitOrder) :
    (configSlot w.bits a.a0 a.a1 a.a2 t io oo).configured w :=
  ⟨{ a with a4 := orderNum io, a5 := orderNum oo }, io, oo, hk, orderOfOperand_orderNum io, orderOfOperand_orderNum oo,
    ht, rfl⟩

/-- Settles O59: RESET starts from IXOR, the chunks run the kernel, and FINALIZE corrects its register. -/
theorem checksumHasTheClosedForm : Obligations.ChecksumHasTheClosedForm := by
  intro s ci si a io oo t₀ x chunks hturns hci hsi hk hc hx htable hready
  have heq : bitwiseEquivalent s.params s.mem (configSlot s.W a.a0 a.a1 a.a2 t₀ io oo)
      (canonIxor s.W (bitlen a.a0) io a.a1) := htable.imp_right fun ⟨hal, hholds⟩ => by
    have hconf := configured_configSlot hk hal io oo
    obtain ⟨-, -, -, hix, -⟩ := CfgSlot.configured_bounds hconf
    exact ⟨hconf, hholds, hix⟩
  obtain ⟨t, hreset, ht, -⟩ := step_reset hturns hci hsi hc rfl hx Args.reset
  obtain ⟨u, y, hchunks, hu, hphase, hvalue⟩ := runCommands_process (chunks := chunks) (ht.turns.trans hturns) hci hsi
    (ht.cfg ▸ hc) rfl ht.slot (.inl rfl) (by rw [ht.params, ht.mem]; exact heq)
    (by rw [ht.params]; exact fun b hb => chunkReady_iff.mpr (hready b hb))
  rw [State.W, ht.params, ht.mem] at hvalue
  obtain ⟨v, hfinal, hv, hcode⟩ := step_finalize_checksum hturns hci hsi hk hc (ht.trans hu) hphase hvalue
  refine ⟨v, _, ?_, hv.slot, rfl, hcode, hv.fault, rfl, checksum_lt hk oo _⟩
  rw [runCommands_append ((runCommands_cons hreset _).trans hchunks), runCommands_cons hfinal, runCommands]

/-- Settles O60: it is the checksum of no bits, whose register is inputXOR. -/
theorem emptyMessageChecksum : Obligations.EmptyMessageChecksum := by
  intro s ci si a io oo t₀ x hturns hci hsi hk hc hx
  obtain ⟨t, hreset, ht, -⟩ := step_reset hturns hci hsi hc rfl hx Args.reset
  obtain ⟨u, hfinal, hu, -⟩ := step_finalize_checksum (S := []) hturns hci hsi hk hc ht (.inl rfl) rfl
  refine ⟨u, _, ?_, hu.slot, rfl, ?_⟩
  · rw [runCommands_cons hreset, runCommands_cons hfinal, runCommands]
  · cases oo <;> rfl

end Sys2Proof.Machine
end

section
/-! SUPPORT. How a command ends (R220 to R228): rejected by a condition of R222, stopped by a contract of R225, or gone
on to success or `Fault(BUS)`. The first two make no MEM access. From this, STATUS over a command and FAULT over a step. -/

namespace Sys2Proof.Machine

/-! ### The conditions of R222 and R225 by the checks of the rules -/

section
variable {s : State} {ci si : Nat} {c : CfgSlot} {x : StSlot} (hc : s.cfg[ci]? = some c)
include hc

theorem invalidCase_buildTable_iff {a : Args} :
    invalidCase (.buildTable ci) a s ↔ c.valid = true ∧ buildChecks s.params.width c a = false := by
  have hci : ¬ s.ncfg ≤ ci := Nat.not_le.mpr (List.getElem?_eq_some_iff.mp hc).1
  rw [← Bool.not_eq_true (buildChecks _ _ _), buildChecks_iff]
  simp only [invalidCase, hci, hc, false_or, Option.some.injEq, exists_eq_left']
  tauto

theorem contractCause_buildTable_iff {cause : Cause} :
    contractCause (.buildTable ci) s cause ↔ c.valid = false ∧ cause = .unconfigured := by
  simp [contractCause, hc]

variable (hx : s.st[si]? = some x)
include hx

theorem invalidCase_process_iff {a : Args} :
    invalidCase (.process ci si) a s ↔
      c.valid = true ∧ phaseCause x.phase = none ∧ processChecks a = false := by
  obtain ⟨hci, hsi⟩ := not_or.mp (slots_in_range hc hx)
  rw [← Bool.not_eq_true (processChecks _), processChecks_iff, phaseCause_eq_none]
  simp only [invalidCase, hci, hsi, hc, hx, false_or, Option.some.injEq, exists_and_left, exists_eq_left', not_and_or,
    ne_eq, not_not, Nat.not_lt, Nat.not_le]

theorem contractCause_process_iff {cause : Cause} :
    contractCause (.process ci si) s cause ↔
      (c.valid = false ∧ cause = .unconfigured) ∨ (c.valid = true ∧ phaseCause x.phase = some cause) := by
  simp only [contractCause, hc, hx, Option.some.injEq, exists_and_left, exists_eq_left']
  cases x.phase <;> simp [phaseCause, eq_comm (a := cause)]

end

/-! ### The rules on commands that do not get through their checks -/

/-- A command under a condition of R222 is rejected (R223). -/
theorem ruleOf_of_invalidCase {i : Instr} {a : Args} {s : State} (h : invalidCase i a s) :
    ruleOf i a s = s.finish .invalidParam := by
  cases i with
  | configure ci => exact configureRule_of_invalidCase h
  | buildTable ci =>
    rcases buildTableRule_cases ci a s with ⟨c, hc, hv, -⟩ | ⟨c, hc, -, hk, -⟩ | hrule
    · simp [invalidCase_buildTable_iff hc, hv] at h
    · simp [invalidCase_buildTable_iff hc, hk] at h
    · exact hrule
  | sizeofTable => exact h.elim
  | reset ci si => exact resetRule_absent h a
  | process ci si =>
    rcases processRule_cases ci si a s with ⟨c, x, cause, hc, hx, hcause, -⟩ | ⟨c, x, hc, hx, -, -, hk, -⟩ | hrule
    · rw [invalidCase_process_iff hc hx] at h
      rcases hcause with ⟨hv, -⟩ | ⟨-, hphase⟩
      · simp [hv] at h
      · simp [hphase] at h
    · simp [invalidCase_process_iff hc hx, hk] at h
    · exact hrule
  | finalize ci si => exact finalizeRule_absent h a

/-- A command that breaks a contract of R225 raises its cause (R224). -/
theorem ruleOf_of_contractCause {i : Instr} {s : State} {cause : Cause} (h : contractCause i s cause) (a : Args) :
    ruleOf i a s = s.raise cause := by
  cases i with
  | configure ci => exact h.elim
  | buildTable ci =>
    obtain ⟨c, hc, hv, rfl⟩ := h
    simp [ruleOf, buildTableRule, hc, hv]
  | sizeofTable => exact h.elim
  | reset ci si =>
    obtain ⟨c, x, hc, hx, hv, rfl⟩ := h
    exact resetRule_unconfigured hc hx hv a
  | process ci si =>
    obtain ⟨c, x, hc, hx, -⟩ := id h
    rcases (contractCause_process_iff hc hx).mp h with ⟨hv, rfl⟩ | ⟨hv, hphase⟩
    · simp [ruleOf, processRule, hc, hx, hv]
    · simp [ruleOf, processRule, hc, hx, hv, hphase]
  | finalize ci si => exact finalizeRule_contract h a

/-- The command is rejected or breaks a contract: it does not get through its checks (R192, R228). -/
def stopped (i : Instr) (a : Args) (s : State) : Prop := invalidCase i a s ∨ ∃ cause, contractCause i s cause

theorem buildCells_of_stopped {ci : Nat} {a : Args} {s : State} (h : stopped (.buildTable ci) a s) :
    buildCells ci a s = [] := by
  unfold buildCells
  cases hc : s.cfg[ci]? with
  | none => rfl
  | some c =>
    rw [stopped, invalidCase_buildTable_iff hc] at h
    simp only [contractCause_buildTable_iff hc] at h
    refine if_neg ?_
    rcases h with ⟨-, hk⟩ | ⟨cause, hv, -⟩
    · simp [hk]
    · simp [hv]

theorem processReads_of_stopped {ci si : Nat} {a : Args} {s : State} (h : stopped (.process ci si) a s) :
    processReads ci si a s = [] := by
  unfold processReads
  split
  next c x hc hx =>
    rw [stopped, invalidCase_process_iff hc hx] at h
    simp only [contractCause_process_iff hc hx] at h
    refine if_neg ?_
    rcases h with ⟨-, -, hk⟩ | ⟨cause, ⟨hv, -⟩ | ⟨-, hphase⟩⟩
    · simp [hk]
    · simp [hv]
    · simp [hphase]
  · rfl

/-- A command that does not get through its checks makes no MEM access (R223, R228). -/
theorem footprint_of_stopped {i : Instr} {s : State} {p : Pending} (hp : s.pending = some p)
    (h : stopped i p.args s) (hd : decode p.word = .ok i) : pendingReads s = [] ∧ pendingWrites s = [] := by
  unfold pendingWrites
  cases i with
  | buildTable ci => simp [pendingReads, hp, hd, pendingCells_buildTable hp hd, buildCells_of_stopped h]
  | process ci si => simp [pendingCells, hp, hd, pendingReads_process hp hd, processReads_of_stopped h]
  | configure ci | sizeofTable | reset ci si | finalize ci si => simp [pendingReads, pendingCells, hp, hd]

/-- Settles O34: the rejection is the whole rule, and a rejected command has an empty footprint. -/
theorem invalidParamChangesNothing : Obligations.InvalidParamChangesNothing := by
  intro i s p hp h
  refine ⟨?_, footprint_of_stopped hp (.inl h)⟩
  rw [exec_some hp, ruleOf_of_invalidCase h, State.finish_retire]
  rfl

/-- Settles O36: raising the cause is the whole rule, and the command has an empty footprint. -/
theorem contractFaultsAreTaken : Obligations.ContractFaultsAreTaken := by
  intro i s p cause hp h
  refine ⟨?_, footprint_of_stopped hp (.inr ⟨cause, h⟩)⟩
  rw [exec_some hp, ruleOf_of_contractCause h, State.raise_retire]
  rfl

/-! ### STATUS after a command that is not rejected -/

/-- STATUS of `t` is that of `s` after a success or a fault (R220, R224). -/
def State.Concludes (s t : State) : Prop :=
  t.status = (s.finish .success).status ∨ ∃ cause, t.status = (s.raise cause).status

theorem State.concludes_finish {s t : State} (h : t.status = s.status) : s.Concludes (t.finish .success) :=
  .inl (by simp [h])

/-- What `raise` writes in STATUS depends on STATUS alone. -/
theorem State.concludes_raise {s t : State} (cause : Cause) (h : t.status = s.status) :
    s.Concludes (t.raise cause) := by
  refine .inr ⟨cause, ?_⟩
  unfold State.raise
  rw [h]
  split
  · exact h
  · rfl

theorem State.concludes_buildInto (s : State) (ci : Nat) (c : CfgSlot) (t : Word) :
    s.Concludes (buildInto ci c t s) := by
  rcases buildInto_cases ci c t s with ⟨-, h⟩ | ⟨-, h⟩ <;> rw [h]
  · exact State.concludes_finish rfl
  · exact State.concludes_raise .bus rfl

theorem State.concludes_processInto (s : State) (si : Nat) (c : CfgSlot) (x : StSlot) (a : Args) :
    s.Concludes (processInto si c x a s) := by
  rcases processInto_cases si c x a s with ⟨r, -, h⟩ | ⟨-, h⟩ <;> rw [h]
  · exact State.concludes_finish rfl
  · exact State.concludes_raise .bus rfl

theorem State.concludes_of_contractCause {i : Instr} {s : State} {cause : Cause} (h : contractCause i s cause)
    (a : Args) : s.Concludes (ruleOf i a s) := by
  rw [ruleOf_of_contractCause h]
  exact State.concludes_raise cause rfl

/-- Outside the conditions of R222 a command ends with a success or a fault (R221). -/
theorem State.concludes_ruleOf {i : Instr} {a : Args} {s : State} (h : ¬ invalidCase i a s) :
    s.Concludes (ruleOf i a s) := by
  cases i with
  | configure ci =>
    rw [ruleOf, configureRule_of_not_invalidCase h]
    exact State.concludes_finish rfl
  | buildTable ci =>
    obtain ⟨c, hc⟩ : ∃ c, s.cfg[ci]? = some c := ⟨_, List.getElem?_eq_getElem (Nat.not_le.mp (not_or.mp h).1)⟩
    cases hv : c.valid with
    | false => exact State.concludes_of_contractCause ((contractCause_buildTable_iff hc).mpr ⟨hv, rfl⟩) a
    | true =>
      rw [ruleOf, buildTableRule_of_checks hc hv (buildChecks_of_not_invalidCase hc hv h)]
      exact State.concludes_buildInto s ci c a.a0
  | sizeofTable => exact State.concludes_finish rfl
  | reset ci si =>
    rcases resetRule_cases ci si a s with ⟨c, x, -, -, -, hrule⟩ | ⟨c, x, -, -, -, hrule⟩ | ⟨habsent, -⟩
    · rw [ruleOf, hrule]
      exact State.concludes_raise .unconfigured rfl
    · rw [ruleOf, hrule]
      exact State.concludes_finish rfl
    · exact absurd (habsent.imp List.getElem?_eq_none_iff.mp List.getElem?_eq_none_iff.mp) h
  | process ci si =>
    obtain ⟨hci, hsi, -⟩ : ¬ s.ncfg ≤ ci ∧ ¬ s.nst ≤ si ∧ _ := by simpa only [invalidCase, not_or] using h
    obtain ⟨c, hc⟩ : ∃ c, s.cfg[ci]? = some c := ⟨_, List.getElem?_eq_getElem (Nat.not_le.mp hci)⟩
    obtain ⟨x, hx⟩ : ∃ x, s.st[si]? = some x := ⟨_, List.getElem?_eq_getElem (Nat.not_le.mp hsi)⟩
    cases hv : c.valid with
    | false => exact State.concludes_of_contractCause ((contractCause_process_iff hc hx).mpr (.inl ⟨hv, rfl⟩)) a
    | true =>
      cases hphase : phaseCause x.phase with
      | some cause =>
        exact State.concludes_of_contractCause ((contractCause_process_iff hc hx).mpr (.inr ⟨hv, hphase⟩)) a
      | none =>
        have hphase' := phaseCause_eq_none.mp hphase
        rw [ruleOf, processRule_of_checks hc hx hv hphase' (processChecks_of_not_invalidCase hc hx hv hphase' h)]
        exact State.concludes_processInto s si c x a
  | finalize ci si =>
    rcases finalizeRule_cases ci si a s with ⟨c, x, cause, -, -, -, hrule⟩ | ⟨c, x, -, -, -, -, hrule⟩ | ⟨habsent, -⟩
    · rw [ruleOf, hrule]
      exact State.concludes_raise cause rfl
    · rw [ruleOf, hrule]
      exact State.concludes_finish rfl
    · exact absurd (habsent.imp List.getElem?_eq_none_iff.mp List.getElem?_eq_none_iff.mp) h

/-- Settles O33: a command is rejected, or ends with a success or a fault, and is then retired. -/
theorem commandsFrameStatus : Obligations.CommandsFrameStatus := by
  intro i s t hexec
  obtain ⟨p, -, rfl⟩ := exec_eq_next.mp hexec
  refine ⟨rfl, rfl, ?_⟩
  by_cases h : invalidCase i p.args s
  · rw [ruleOf_of_invalidCase h]
    exact .inl ⟨.inr rfl, rfl, rfl⟩
  · rcases State.concludes_ruleOf h with hstatus | ⟨cause, hstatus⟩ <;> rw [State.retire_status, hstatus]
    · exact .inl ⟨.inl rfl, rfl, rfl⟩
    · exact .inr ⟨by simp, by simp, fun hf => by simp [hf]⟩

/-- Settles O35: a rejection writes INVALID_PARAM and raises no fault, a success writes another CODE, and a fault leaves
CODE. -/
theorem invalidParamExactly : Obligations.InvalidParamExactly := by
  intro i s t p hp hexec
  rw [exec_some hp] at hexec
  cases hexec
  by_cases h : invalidCase i p.args s
  · simp [ruleOf_of_invalidCase h, h]
  · rcases State.concludes_ruleOf h with hstatus | ⟨cause, hstatus⟩ <;> simp [hstatus, h]

/-! ### FAULT over a step -/

/-- A standing fault and its cause stay from `s` to `t` (R224). -/
def State.KeepsFault (s t : State) : Prop :=
  s.status.fault = true → t.status.fault = true ∧ t.status.cause = s.status.cause

theorem State.keepsFault_of_status {s t : State} (h : t.status = s.status) : s.KeepsFault t :=
  fun hf => by rw [h]; exact ⟨hf, rfl⟩

theorem State.keepsFault_raise (s : State) (cause : Cause) : s.KeepsFault (s.raise cause) :=
  fun hf => by simp [hf]

/-- A register write raises HOST_BUSY or leaves a standing fault, which an issue is ignored under (R36, R226, R227). -/
theorem State.keepsFault_hostWrite (s : State) (off : Nat) (v : Word) : s.KeepsFault (hostWrite off v s) := by
  cases hb : s.status.busy with
  | true =>
    rw [hostWrite_busy hb]
    exact State.keepsFault_raise s .hostBusy
  | false =>
    intro hf
    obtain ⟨-, -, -, -, hstatus⟩ := State.sameBlock_hostWrite hf hb off v
    exact State.keepsFault_of_status hstatus hf

theorem State.keepsFault_of_hostLine {l : HostLine} {s t : State} (h : hostLine l s = .next t) : s.KeepsFault t := by
  rcases hostLine_cases h with ⟨_, _, v, off, -, -, rfl⟩ | ⟨v, rfl⟩ | ⟨a, bs, -, -, -, rfl⟩ | ⟨-, -, rfl⟩ | ⟨-, -, rfl⟩
  · exact State.keepsFault_hostWrite s off v
  all_goals exact State.keepsFault_of_status rfl

theorem State.keepsFault_of_hostTurn {s t : State} (h : hostTurn s = .next t) : s.KeepsFault t := by
  rcases hostTurn_cases h with ⟨-, rfl⟩ | ⟨l, rest, -, hline⟩
  · exact State.keepsFault_of_status rfl
  · exact State.keepsFault_of_hostLine (s := { s with lines := rest }) hline

/-- No completion clears FAULT or writes a new CAUSE over the first (R221, R224). -/
theorem State.keepsFault_of_exec {i : Instr} {s t : State} (h : exec i s = .next t) : s.KeepsFault t := by
  intro hf
  obtain ⟨-, -, ⟨-, hfault, hcause⟩ | ⟨-, hfault, hcause⟩⟩ := commandsFrameStatus i s t h
  · exact ⟨hfault.trans hf, hcause⟩
  · exact ⟨hfault, hcause hf⟩

theorem State.keepsFault_of_blockTurn {s t : State} (h : blockTurn s = .next t) : s.KeepsFault t := by
  rcases blockTurn_cases h with ⟨-, rfl⟩ | ⟨p, i, -, -, hexec⟩ | ⟨p, e, -, -, rfl⟩
  · exact State.keepsFault_of_status rfl
  · exact State.keepsFault_of_exec hexec
  · exact fun hf => ⟨hf, rfl⟩

/-- Settles O25: a host's turn and the block's turn keep a standing fault, and only the platform's clears it. -/
theorem faultIsSticky : Obligations.FaultIsSticky := by
  intro s t h hf hturns
  obtain ⟨s₀, hs₀, hmove⟩ := step_cases h
  have hstatus : s₀.status = s.status := by
    rcases hs₀ with rfl | ⟨u, rest, -, rfl⟩ <;> rfl
  rw [← hstatus] at hf ⊢
  rcases hmove with ⟨hhost, -, -⟩ | ⟨hblock, -, -⟩ | ⟨-, rest, hreset⟩
  · exact State.keepsFault_of_hostTurn hhost hf
  · exact State.keepsFault_of_blockTurn hblock hf
  · exact absurd hreset (hturns rest)

end Sys2Proof.Machine
end

section
/-! SUPPORT. Block reset (R260, R261): the step that takes it, and MEM after it. The writes of a BUILD_TABLE in flight are
to distinct addresses, so each byte it abandons is the old one or the command's own. -/

namespace Sys2Proof.Machine

theorem step_blockReset {s : State} {rest : List Turn} (h : s.turns = .blockReset :: rest) :
    step s = .next { blockReset s with turns := rest } := by
  rw [step, h]
  rfl

/-! ### The writes in flight -/

/-- Only a BUILD_TABLE in flight writes MEM (R51). -/
theorem pendingCells_eq_nil {s : State} (h : ∀ p ci, s.pending = some p → decode p.word ≠ .ok (.buildTable ci)) :
    pendingCells s = [] := by
  unfold pendingCells
  split
  · rfl
  · rename_i p hp
    split
    · rename_i ci hd
      exact absurd hd (h p ci hp)
    · rfl

/-- BUILD_TABLE writes no address twice, wherever its writes stop (R135). -/
theorem buildCells_nodup (ci : Nat) (a : Args) (s : State) : ((buildCells ci a s).map Prod.fst).Nodup := by
  unfold buildCells
  split
  · exact List.nodup_nil
  · split
    · exact (tableCells_nodup _ _ _).sublist ((List.takeWhile_sublist _).map Prod.fst)
    · exact List.nodup_nil

theorem pendingWrites_nodup (s : State) : (pendingWrites s).Nodup := by
  by_cases h : ∃ p ci, s.pending = some p ∧ decode p.word = .ok (.buildTable ci)
  · obtain ⟨p, ci, hp, hd⟩ := h
    rw [pendingWrites, pendingCells_buildTable hp hd]
    exact buildCells_nodup ci p.args s
  · rw [pendingWrites, pendingCells_eq_nil fun p ci hp hd => h ⟨p, ci, hp, hd⟩]
    exact List.nodup_nil

/-! ### MEM after block reset -/

/-- Drawing cells at distinct addresses in canonical memory leaves each address with its old byte or its cell's (R261). -/
theorem read_drawCells_mem {m : Memory} (hm : Memory.wf m) {ws : List Host.Cell} (hd : (ws.map Prod.fst).Nodup)
    {c : Host.Cell} (hc : c ∈ ws) (n : Nat) :
    Memory.read (drawCells n m ws) c.1 = Memory.read m c.1 ∨ Memory.read (drawCells n m ws) c.1 = c.2 := by
  induction ws generalizing m n with
  | nil => cases hc
  | cons d ws ih =>
    obtain ⟨a, v⟩ := d
    obtain ⟨ha, hd⟩ := List.nodup_cons.mp hd
    unfold drawCells
    rcases List.mem_cons.mp hc with rfl | hc
    · rw [read_drawCells_other _ ha]
      split
      · exact .inr (Memory.read_write_same hm a v)
      · exact .inl rfl
    · have hne : c.1 ≠ a := ne_of_mem_of_not_mem (List.mem_map_of_mem hc) ha
      split
      · rw [← Memory.read_write_other m v hne]
        exact ih (Memory.write_wf hm a v) hd hc (n + 1)
      · exact ih hm hd hc (n + 1)

/-- Block reset leaves each byte of the BUILD_TABLE it abandons old or new (R261). -/
theorem read_blockReset_mem {s : State} (hm : Memory.wf s.mem) {c : Host.Cell} (hc : c ∈ pendingCells s) :
    Memory.read (blockReset s).mem c.1 = Memory.read s.mem c.1 ∨ Memory.read (blockReset s).mem c.1 = c.2 :=
  read_drawCells_mem hm (pendingWrites_nodup s) hc s.draws

theorem blockReset_mem_of_not_buildTable {s : State}
    (h : ∀ p ci, s.pending = some p → decode p.word ≠ .ok (.buildTable ci)) : (blockReset s).mem = s.mem := by
  simp [blockReset, pendingCells_eq_nil h, drawCells]

/-- Settles O20: the fields are those of `State.clearBlock`; MEM changes only at the writes in flight, which for a
BUILD_TABLE that passes its checks are the `n` bytes of its table before the first one that is not admitted. -/
theorem blockResetRestoresTheResetState : Obligations.BlockResetRestoresTheResetState := by
  intro s rest hturns
  refine ⟨_, step_blockReset hturns, rfl, rfl, rfl, rfl, rfl, rfl, rfl, rfl,
    fun a ha => read_blockReset_other ha, fun hwf c hc => read_blockReset_mem hwf hc,
    blockReset_mem_of_not_buildTable, fun p ci c n ⟨hp, hd, hc, hv, hvalid, hn, hadm, hstop⟩ hwf => ?_⟩
  have hk := buildChecks_of_not_invalidCase hc hv hvalid
  refine ⟨fun i hi j hj hlt => ?_, fun a ha => ?_⟩
  · have hcell := mem_buildCells hc hv hk hn hadm hstop hi hj hlt
    rw [← pendingCells_buildTable hp hd] at hcell
    exact read_blockReset_mem hwf hcell
  · refine read_blockReset_other ?_
    rw [pendingWrites, pendingCells_buildTable hp hd, buildCells_map_fst hc hv hk hn hadm hstop,
      List.mem_range'_1]
    omega

end Sys2Proof.Machine
end
